-- ==== Sys2Proof/Word.lean ====
section
/-! DEFINITION. The word types of the block: every register, operand and status is a byte (D3), the year and the temperature result
are 16 bits, the epoch 32 bits (R6). -/

namespace Sys2Proof

/-- A register byte, an operand byte, an offset or a status: 8 bits, unsigned (R6, R7). -/
abbrev Byte := BitVec 8

/-- The year at the Host interface and the temperature result: 16 bits (R6). -/
abbrev Half := BitVec 16

/-- `EpochSeconds`: 32 bits, unsigned (R6, D26). -/
abbrev Word := BitVec 32

end Sys2Proof
end

