-- ==== Sys2Proof/Syntax.lean ====
section
/-! DEFINITION. The 20 commands of R66, one constructor per row of spec/opcode_table.json, and the operand types they name. -/

namespace Sys2Proof

/-- `CalendarTime` (R93): ephemeral, seven fields, none of them validated. -/
structure CalendarTime where
  second : Byte
  minute : Byte
  hour : Byte
  weekday : Byte
  day : Byte
  month : Byte
  /-- The full calendar year, for example 2026 (R81). -/
  year : Half
  deriving DecidableEq, Repr, Inhabited

/-- The alarm selected by a legal `which` operand (R69). -/
inductive Alarm where
  | one
  | two
  deriving DecidableEq, Repr, Inhabited

/-- The eleven variants of `AlarmType` (R70). -/
inductive AlarmType where
  | alm1EverySecond
  | alm1MatchSeconds
  | alm1MatchMinutes
  | alm1MatchHours
  | alm1MatchDate
  | alm1MatchDay
  | alm2EveryMinute
  | alm2MatchMinutes
  | alm2MatchHours
  | alm2MatchDate
  | alm2MatchDay
  deriving DecidableEq, Repr

/-- The five variants of `SqwFreq` (R71). -/
inductive SqwFreq where
  | hz1
  | hz1024
  | hz4096
  | hz8192
  | disabled
  deriving DecidableEq, Repr

/-- A command as its packet states it: the operand bytes of the formats R76 to R82. Enumerated operands stand as the bytes the Host
sent; step (3) of R75 checks them (`Instr.wellFormed`), and each meaning acts on the checked operand. -/
inductive Instr where
  /-- DEC2BCD n (R87). -/
  | dec2bcd (n : Byte)
  /-- BCD2DEC b (R88). -/
  | bcd2dec (b : Byte)
  /-- RDTIME (R96). -/
  | rdtime
  /-- WRTIME second, minute, hour, weekday, day, month, year (R97). -/
  | wrtime (t : CalendarTime)
  /-- GETEPOCH (R98). -/
  | getepoch
  /-- SETEPOCH epoch (R99). -/
  | setepoch (epoch : Word)
  /-- WRBLK addr, len, data (R105); `len` is the length of `data` (R74, R82). -/
  | wrblk (addr : Byte) (data : List Byte)
  /-- RDBLK addr, count (R106). -/
  | rdblk (addr count : Byte)
  /-- WRBYTE addr, value (R107). -/
  | wrbyte (addr value : Byte)
  /-- RDBYTE addr (R108). -/
  | rdbyte (addr : Byte)
  /-- SETALM type, seconds, minutes, hours, daydate (R114). -/
  | setalm (type seconds minutes hours daydate : Byte)
  /-- SETALM3 type, minutes, hours, daydate (R115). -/
  | setalm3 (type minutes hours daydate : Byte)
  /-- ALMIE which, enabled (R116). -/
  | almie (which enabled : Byte)
  /-- ALMCONSUME which (R119). -/
  | almconsume (which : Byte)
  /-- ALMPEEK which (R118). -/
  | almpeek (which : Byte)
  /-- ALMCLEAR which (R120). -/
  | almclear (which : Byte)
  /-- SQWSET freq (R128). -/
  | sqwset (freq : Byte)
  /-- OSCSTOP clear (R129). -/
  | oscstop (clear : Byte)
  /-- TEMP (R131). -/
  | temp
  /-- GETERR (R132). -/
  | geterr
  deriving DecidableEq, Repr

end Sys2Proof
end

