-- ==== Sys2Proof/WellFormed.lean ====
section
/-! DEFINITION. Which commands are legal packets: step (3) of the decode procedure R75, with the cases of R68 by name. -/

namespace Sys2Proof

/-- Why a packet with a known opcode is not a legal command (R68, cases 2 to 6); `tooLong` is data no packet can carry, since `len`
is one byte (R82). -/
inductive IllegalOperand where
  | which
  | boolean
  | alarmType
  | frequency
  | zeroLength
  | tooLong
  deriving DecidableEq, Repr

/-- R69, R68 case 2: 0x01 or 0x02. -/
def legalWhich (b : Byte) : Bool := b == 0x01#8 || b == 0x02#8

/-- R64, R68 case 3: 0x00 or 0x01. -/
def legalBoolean (b : Byte) : Bool := b == 0x00#8 || b == 0x01#8

/-- R70, R68 case 4: one of the eleven codes. -/
def legalAlarmType (b : Byte) : Bool :=
  [0x00#8, 0x01#8, 0x03#8, 0x07#8, 0x0F#8, 0x1F#8, 0x80#8, 0x82#8, 0x86#8, 0x8E#8, 0x9E#8].contains b

/-- R71, R68 case 5: 0x00 to 0x04. -/
def legalFrequency (b : Byte) : Bool := decide (b.toNat ≤ 4)

/-- The first check of R68 that the command fails, in packet order; `none` when it is legal. Numeric operands are never checked (R64). -/
def Instr.illegalOperand : Instr → Option IllegalOperand
  | .dec2bcd _ => none
  | .bcd2dec _ => none
  | .rdtime => none
  | .wrtime _ => none
  | .getepoch => none
  | .setepoch _ => none
  | .wrblk _ data =>
    if data.length = 0 then some .zeroLength else if 255 < data.length then some .tooLong else none
  | .rdblk _ count => if count = 0#8 then some .zeroLength else none
  | .wrbyte _ _ => none
  | .rdbyte _ => none
  | .setalm type _ _ _ _ => if legalAlarmType type then none else some .alarmType
  | .setalm3 type _ _ _ => if legalAlarmType type then none else some .alarmType
  | .almie which enabled =>
    if legalWhich which then (if legalBoolean enabled then none else some .boolean) else some .which
  | .almconsume which => if legalWhich which then none else some .which
  | .almpeek which => if legalWhich which then none else some .which
  | .almclear which => if legalWhich which then none else some .which
  | .sqwset freq => if legalFrequency freq then none else some .frequency
  | .oscstop clear => if legalBoolean clear then none else some .boolean
  | .temp => none
  | .geterr => none

/-- The command is a legal packet (R68). -/
def Instr.wellFormed (i : Instr) : Bool := i.illegalOperand.isNone

end Sys2Proof
end

