-- ==== Sys2Proof/Decode.lean ====
section
/-! DEFINITION. The decoder and the encoder of command packets (R63 to R82), and the codes of the enumerated operands (R69 to R71).
The bit patterns are the spec's own (D2). Decoding is total: any byte sequence is a packet, an unknown opcode, or not yet a whole
packet. -/

namespace Sys2Proof

/-- The 20 opcodes of R66. -/
inductive Opcode where
  | dec2bcd
  | bcd2dec
  | rdtime
  | wrtime
  | getepoch
  | setepoch
  | wrblk
  | rdblk
  | wrbyte
  | rdbyte
  | setalm
  | setalm3
  | almie
  | almconsume
  | almpeek
  | almclear
  | sqwset
  | oscstop
  | temp
  | geterr
  deriving DecidableEq, Repr

/-- The opcode byte (R66). -/
def Opcode.code : Opcode → Byte
  | .dec2bcd => 0x01#8
  | .bcd2dec => 0x02#8
  | .rdtime => 0x10#8
  | .wrtime => 0x11#8
  | .getepoch => 0x12#8
  | .setepoch => 0x13#8
  | .wrblk => 0x20#8
  | .rdblk => 0x21#8
  | .wrbyte => 0x22#8
  | .rdbyte => 0x23#8
  | .setalm => 0x30#8
  | .setalm3 => 0x31#8
  | .almie => 0x32#8
  | .almconsume => 0x33#8
  | .almpeek => 0x34#8
  | .almclear => 0x35#8
  | .sqwset => 0x40#8
  | .oscstop => 0x41#8
  | .temp => 0x42#8
  | .geterr => 0x43#8

/-- The opcode map as a list, in the order of R66. -/
def Opcode.all : List Opcode :=
  [.dec2bcd, .bcd2dec, .rdtime, .wrtime, .getepoch, .setepoch, .wrblk, .rdblk, .wrbyte, .rdbyte, .setalm, .setalm3, .almie,
    .almconsume, .almpeek, .almclear, .sqwset, .oscstop, .temp, .geterr]

/-- The opcode a first byte stands for; none for the 236 illegal values (R68 case 1). -/
def Opcode.ofByte (b : Byte) : Option Opcode := Opcode.all.find? (fun o => o.code == b)

/-- How many bytes follow the opcode byte, without the data bytes of WRBLK: the formats F0, F1, F2, F4, F5, F8, FV (R76 to R82). -/
def Opcode.operandBytes : Opcode → Nat
  | .rdtime | .getepoch | .temp | .geterr => 0
  | .dec2bcd | .bcd2dec | .rdbyte | .almconsume | .almpeek | .almclear | .sqwset | .oscstop => 1
  | .rdblk | .wrbyte | .almie | .wrblk => 2
  | .setepoch | .setalm3 => 4
  | .setalm => 5
  | .wrtime => 8

/-- Total length of the packet that begins a byte sequence (R67); none while byte 0, or byte 2 of WRBLK, has not come. -/
def packetLength : List Byte → Option Nat
  | [] => none
  | op :: rest =>
    match Opcode.ofByte op with
    | none => some 1
    | some .wrblk =>
      match rest with
      | _ :: len :: _ => some (3 + len.toNat)
      | _ => none
    | some o => some (1 + o.operandBytes)

/-- The alarm a `which` byte selects (R69). -/
def Alarm.ofByte (b : Byte) : Option Alarm :=
  if b = 0x01#8 then some .one else if b = 0x02#8 then some .two else none

/-- A Boolean operand byte (R64, D30). -/
def boolOfByte (b : Byte) : Option Bool :=
  if b = 0x00#8 then some false else if b = 0x01#8 then some true else none

/-- The code of an alarm type (R70): bit 7 alarm 2, bit 4 DY/DT, bits 3:0 the mask bits of day/date, hours, minutes, seconds. -/
def AlarmType.code : AlarmType → Byte
  | .alm1EverySecond => 0x00#8
  | .alm1MatchSeconds => 0x01#8
  | .alm1MatchMinutes => 0x03#8
  | .alm1MatchHours => 0x07#8
  | .alm1MatchDate => 0x0F#8
  | .alm1MatchDay => 0x1F#8
  | .alm2EveryMinute => 0x80#8
  | .alm2MatchMinutes => 0x82#8
  | .alm2MatchHours => 0x86#8
  | .alm2MatchDate => 0x8E#8
  | .alm2MatchDay => 0x9E#8

/-- The eleven types, in the order of R70. -/
def AlarmType.all : List AlarmType :=
  [.alm1EverySecond, .alm1MatchSeconds, .alm1MatchMinutes, .alm1MatchHours, .alm1MatchDate, .alm1MatchDay, .alm2EveryMinute,
    .alm2MatchMinutes, .alm2MatchHours, .alm2MatchDate, .alm2MatchDay]

/-- The type a code stands for; none for the 245 other bytes (R70). -/
def AlarmType.ofByte (b : Byte) : Option AlarmType := AlarmType.all.find? (fun t => t.code == b)

/-- The code of a square-wave frequency: its position in the list of R71. -/
def SqwFreq.code : SqwFreq → Byte
  | .hz1 => 0x00#8
  | .hz1024 => 0x01#8
  | .hz4096 => 0x02#8
  | .hz8192 => 0x03#8
  | .disabled => 0x04#8

/-- The five frequencies, in the order of R71. -/
def SqwFreq.all : List SqwFreq := [.hz1, .hz1024, .hz4096, .hz8192, .disabled]

/-- The frequency a code stands for; none for 0x05 to 0xFF (R71). -/
def SqwFreq.ofByte (b : Byte) : Option SqwFreq := SqwFreq.all.find? (fun f => f.code == b)

/-- Least significant byte first, 16 bits (R64). -/
def le16 (h : Half) : List Byte := [h.extractLsb' 0 8, h.extractLsb' 8 8]

/-- Least significant byte first, 32 bits (R64). -/
def le32 (w : Word) : List Byte :=
  [w.extractLsb' 0 8, w.extractLsb' 8 8, w.extractLsb' 16 8, w.extractLsb' 24 8]

/-- The 16-bit operand sent as `lo`, `hi` (R64). -/
def half (lo hi : Byte) : Half := hi ++ lo

/-- The 32-bit operand sent as `e0` (lowest) to `e3` (R79). -/
def word (e0 e1 e2 e3 : Byte) : Word := e3 ++ e2 ++ e1 ++ e0

/-- Steps (1) and (2) of R75 for a known opcode: take the operand bytes its format names from the bytes after the opcode; none while
they have not all come. -/
def decodeOperands : Opcode → List Byte → Option (Instr × List Byte)
  | .dec2bcd, bs =>
    match bs with
    | n :: r => some (.dec2bcd n, r)
    | _ => none
  | .bcd2dec, bs =>
    match bs with
    | b :: r => some (.bcd2dec b, r)
    | _ => none
  | .rdtime, bs => some (.rdtime, bs)
  | .wrtime, bs =>
    match bs with
    | s :: mi :: h :: wd :: d :: mo :: ylo :: yhi :: r => some (.wrtime ⟨s, mi, h, wd, d, mo, half ylo yhi⟩, r)
    | _ => none
  | .getepoch, bs => some (.getepoch, bs)
  | .setepoch, bs =>
    match bs with
    | e0 :: e1 :: e2 :: e3 :: r => some (.setepoch (word e0 e1 e2 e3), r)
    | _ => none
  | .wrblk, bs =>
    match bs with
    | addr :: len :: r =>
      if len.toNat ≤ r.length then some (.wrblk addr (r.take len.toNat), r.drop len.toNat) else none
    | _ => none
  | .rdblk, bs =>
    match bs with
    | addr :: count :: r => some (.rdblk addr count, r)
    | _ => none
  | .wrbyte, bs =>
    match bs with
    | addr :: value :: r => some (.wrbyte addr value, r)
    | _ => none
  | .rdbyte, bs =>
    match bs with
    | addr :: r => some (.rdbyte addr, r)
    | _ => none
  | .setalm, bs =>
    match bs with
    | ty :: s :: m :: h :: d :: r => some (.setalm ty s m h d, r)
    | _ => none
  | .setalm3, bs =>
    match bs with
    | ty :: m :: h :: d :: r => some (.setalm3 ty m h d, r)
    | _ => none
  | .almie, bs =>
    match bs with
    | which :: enabled :: r => some (.almie which enabled, r)
    | _ => none
  | .almconsume, bs =>
    match bs with
    | which :: r => some (.almconsume which, r)
    | _ => none
  | .almpeek, bs =>
    match bs with
    | which :: r => some (.almpeek which, r)
    | _ => none
  | .almclear, bs =>
    match bs with
    | which :: r => some (.almclear which, r)
    | _ => none
  | .sqwset, bs =>
    match bs with
    | freq :: r => some (.sqwset freq, r)
    | _ => none
  | .oscstop, bs =>
    match bs with
    | clear :: r => some (.oscstop clear, r)
    | _ => none
  | .temp, bs => some (.temp, bs)
  | .geterr, bs => some (.geterr, bs)

/-- What the Host's bytes begin with. -/
inductive Decoded where
  /-- A whole packet of a known opcode and the bytes after it; its operands are still to be checked (R75 step 3). -/
  | packet (i : Instr) (rest : List Byte)
  /-- R68 case 1: the opcode byte alone is consumed (R67). -/
  | illegalOpcode (opcode : Byte) (rest : List Byte)
  /-- The packet's last byte has not come yet. -/
  | incomplete
  deriving DecidableEq, Repr

/-- The decoder (R67, R75). -/
def decode : List Byte → Decoded
  | [] => .incomplete
  | op :: rest =>
    match Opcode.ofByte op with
    | none => .illegalOpcode op rest
    | some o =>
      match decodeOperands o rest with
      | some (i, r) => .packet i r
      | none => .incomplete

/-- The opcode of a command (R66). -/
def Instr.opcode : Instr → Opcode
  | .dec2bcd _ => .dec2bcd
  | .bcd2dec _ => .bcd2dec
  | .rdtime => .rdtime
  | .wrtime _ => .wrtime
  | .getepoch => .getepoch
  | .setepoch _ => .setepoch
  | .wrblk _ _ => .wrblk
  | .rdblk _ _ => .rdblk
  | .wrbyte _ _ => .wrbyte
  | .rdbyte _ => .rdbyte
  | .setalm _ _ _ _ _ => .setalm
  | .setalm3 _ _ _ _ => .setalm3
  | .almie _ _ => .almie
  | .almconsume _ => .almconsume
  | .almpeek _ => .almpeek
  | .almclear _ => .almclear
  | .sqwset _ => .sqwset
  | .oscstop _ => .oscstop
  | .temp => .temp
  | .geterr => .geterr

/-- The operand bytes of a command in packet order (R76 to R82). -/
def Instr.operands : Instr → List Byte
  | .dec2bcd n => [n]
  | .bcd2dec b => [b]
  | .rdtime => []
  | .wrtime t => [t.second, t.minute, t.hour, t.weekday, t.day, t.month] ++ le16 t.year
  | .getepoch => []
  | .setepoch e => le32 e
  | .wrblk addr data => addr :: BitVec.ofNat 8 data.length :: data
  | .rdblk addr count => [addr, count]
  | .wrbyte addr value => [addr, value]
  | .rdbyte addr => [addr]
  | .setalm ty s m h d => [ty, s, m, h, d]
  | .setalm3 ty m h d => [ty, m, h, d]
  | .almie which enabled => [which, enabled]
  | .almconsume which => [which]
  | .almpeek which => [which]
  | .almclear which => [which]
  | .sqwset freq => [freq]
  | .oscstop clear => [clear]
  | .temp => []
  | .geterr => []

/-- The encoder: the packet of a command (R63). -/
def encode (i : Instr) : List Byte := i.opcode.code :: i.operands

/-- The packet whose bits are `w` as the opcode table numbers them (bit 0 is bit 0 of byte 0), every bit above `nbits` zero, cut at the
length R67 gives it. -/
def tablePacket (nbits w : Nat) : List Byte :=
  let given := (List.range (nbits / 8)).map (fun i => BitVec.ofNat 8 (w >>> (8 * i)))
  let padded := given ++ List.replicate 258 0#8
  padded.take ((packetLength padded).getD 1)

/-- What the decoder reads from a packet given as the opcode table numbers its bits; none where it refuses. -/
def decodeTableWord (nbits w : Nat) : Option Instr :=
  match decode (tablePacket nbits w) with
  | .packet i _ => some i
  | .illegalOpcode _ _ => none
  | .incomplete => none

end Sys2Proof
end

