-- ==== Sys2Proof/Config.lean ====
section
/-! DEFINITION. The parameters of R6: the constants this hardware takes, the two uninterpreted epoch functions, what the two
environment agents may do (the Chip's steps and the Transport's answers, as plain data), and the free values (opaque constants, no
body: nothing can be proved of what they are). -/

namespace Sys2Proof

/-- `DEV_ADDR`, 7 bits (R6). -/
def Config.devAddr : Nat := 0x68

/-- `REGFILE_SIZE` (R6, R40). -/
def Config.regFileSize : Nat := 256

/-- `TX_MAX_WRITE`, data bytes of a write leg (R6, R49, D27; log entry 16). -/
def Config.txMaxWrite : Nat := 31

/-- `TX_MAX_READ`, bytes of a read leg (R6, R49, D27; log entry 16). -/
def Config.txMaxRead : Nat := 32

/-- The offset the general-purpose memory begins at, the least value RAM_TOP may have (R6, R29). -/
def Config.ramBase : Nat := 0x14

/-- `YEAR_BASE` (R6). -/
def Config.yearBase : Half := 2000#16

/-- What an unlisted byte of the register file reads as. DESIGN CHOICE, unsafe: the spec gives no value (R37, N1; log entry 1). -/
def Config.unlistedByte : Byte := 0x00#8

/-- `CalToEpoch` (R6, D26): uninterpreted. -/
opaque Config.calToEpoch : CalendarTime → Word

/-- `EpochToCal` (R6, D26): uninterpreted, no law relates it to `CalToEpoch`. -/
opaque Config.epochToCal : Word → CalendarTime

/-- `RAM_TOP` of the chip at reset (R6, D12): open (log entry 3). -/
opaque Config.ramTop : Byte

/-- One step the Chip may take on its own (R36). The last four are `ChipOther` cut into its smallest changes, so that a list of steps
makes any change R36 allows (log entry 6). -/
inductive ChipStep where
  /-- Steps 1 and 2: a match event of an alarm sets its flag. -/
  | alarmMatch (k : Alarm)
  /-- Step 3: the oscillator stopped; OSF is set. -/
  | oscillatorStop
  /-- Step 4 on one of the time registers 0x00 to 0x06. -/
  | time (register : Fin 7) (value : Byte)
  /-- Step 4 on one of the temperature registers 0x11 and 0x12. -/
  | temperature (register : Fin 2) (value : Byte)
  /-- Step 4 on STATUS bit 2. -/
  | bsy (value : Bool)
  /-- Step 4 on CONTROL bit 5. -/
  | conv (value : Bool)
  deriving DecidableEq, Repr, Inhabited

/-- The draws of one transaction (R48): the status of its write leg (the address-select leg of a read), the status of its read leg,
how many data bytes a failed write leg stored, and the bytes a failed read returned. -/
structure Answer where
  writeLeg : Byte
  readLeg : Byte
  stored : Nat
  bytes : List Byte
  deriving DecidableEq, Repr, Inhabited

/-- What the Transport does with the next transaction: it answers, or it has not answered by the end of this step (R59, U15; log entry 7). -/
inductive Reply where
  | answers (d : Answer)
  | silent
  deriving DecidableEq, Repr, Inhabited

/-- FREE VALUE: the Chip's steps in a gap for which State lists none (R36; log entry 4). -/
opaque Config.freeGap : Nat → List ChipStep

/-- FREE VALUE: the Transport's reply where State lists none (R48, R59; log entry 4). -/
opaque Config.freeReply : Nat → Reply

/-- FREE VALUE: byte `i` a failed read returned, where the draw lists fewer bytes (R48 constraint 4; log entry 13). -/
opaque Config.freeByte : Nat → Nat → Byte

/-- FREE VALUE: which non-zero status, less one, an over-length leg gets (R48 constraint 1, U5; log entry 12). -/
opaque Config.freeFailure : Nat → Fin 255

/-- FREE VALUE: the chip's pointer where the spec does not state it (R33; log entry 2). -/
opaque Config.freePointer : Nat → Byte

/-- The status of an over-length leg whose draw is 0: some value from 1 to 255 (R48 constraint 1). -/
def Config.overLengthStatus (tick : Nat) : Byte := BitVec.ofNat 8 ((Config.freeFailure tick).val + 1)

end Sys2Proof
end

