-- ==== Sys2Proof/Machine/State.lean ====
section
/-! DEFINITION. The state of the whole system, as plain data: the Block's one register and its command in progress (R14, R34), the
Chip's register file, pointer and capacity (R15, R33, R6), the trace (R44), the two ends of the Host interface and the reset input (D1),
and the environment's coming moves (R36, R48). -/

namespace Sys2Proof.Machine

/-- The chip's register file (R15): (offset, byte) pairs in canonical form, offsets strictly rising, no pair equal to what an unlisted
offset reads as (`Memory.wf`). -/
abbrev Memory := List Host.Cell

/-- A response packet (R65). -/
inductive Response where
  | ok (payload : List Byte)
  /-- TransportError with its non-zero status (R138, R139). -/
  | err (status : Byte)
  /-- IllegalCommand (R141). -/
  | illegal
  deriving DecidableEq, Repr

/-- One leg the Block started, with its answer (R44). -/
inductive Event where
  /-- `W(off, data, st)`; with no data it is an address-select leg. -/
  | write (offset : Byte) (data : List Byte) (status : Byte)
  /-- `Rd(n, data, st)`. -/
  | read (count : Nat) (data : List Byte) (status : Byte)
  deriving DecidableEq, Repr

/-- The command in progress between two of its transactions: the one that comes next, with the bytes it has read so far (R34, R56). -/
inductive Pending where
  /-- RDTIME: the 7-byte read. -/
  | rdtime
  /-- GETEPOCH: the 7-byte read. -/
  | getepoch
  /-- WRTIME, SETEPOCH: the 7-byte write. -/
  | timeWrite (bytes : List Byte)
  /-- ClearOSF's read; `timeStatus` is the time write's status. -/
  | osfRead (timeStatus : Byte)
  /-- ClearOSF's write of `value`. -/
  | osfWrite (timeStatus value : Byte)
  /-- WRBLK, WRBYTE: the write. -/
  | blockWrite (addr : Byte) (data : List Byte)
  /-- RDBLK, RDBYTE: the read. -/
  | blockRead (addr : Byte) (count : Nat)
  /-- SETALM, SETALM3: the write. -/
  | alarmWrite (addr : Byte) (bytes : List Byte)
  /-- ALMIE: the read of CONTROL. -/
  | almieRead (k : Alarm) (enabled : Bool)
  /-- SQWSET: the read of CONTROL. -/
  | sqwRead (freq : SqwFreq)
  /-- ALMIE, SQWSET: the write of CONTROL. -/
  | controlWrite (value : Byte)
  /-- ALMPEEK: the read of STATUS. -/
  | peekRead (k : Alarm)
  /-- ALMCONSUME: the read of STATUS. -/
  | consumeRead (k : Alarm)
  /-- ALMCLEAR: the read of STATUS. -/
  | clearRead (k : Alarm)
  /-- OSCSTOP: the read of STATUS. -/
  | oscRead (clear : Bool)
  /-- ALMCONSUME, ALMCLEAR, OSCSTOP: the write of STATUS; the answer is then `true`. -/
  | statusWrite (value : Byte)
  /-- TEMP: the read of 0x12. -/
  | tempLsb
  /-- TEMP: the read of 0x11, with the byte of 0x12. -/
  | tempMsb (lsb : Byte)
  deriving DecidableEq, Repr

/-- Why the machine stops. No command and no operand raises one: "No operation is fatal" (R139). -/
inductive Fault where
  /-- Raised by `step` when the busy Block's next transaction lies outside the chip: a state no run reaches, since a command of
  that kind is refused before it starts. SAFE: the machine stops. -/
  | suspendedOutsideChip
  deriving DecidableEq, Repr

/-- Why a command has no meaning. -/
inductive Refusal where
  /-- Raised by an arm of `exec` whose instruction is not modelled. SAFE. -/
  | notModelled (mnemonic : String)
  /-- Raised by WRBLK and RDBLK when `addr + n > 256` (R50, D13): the spec gives the transaction no meaning. SAFE. -/
  | runPastTop
  /-- Raised by WRBLK, RDBLK, WRBYTE and RDBYTE when the run passes RAM_TOP (R29, R168, D12): not described, refused. SAFE. -/
  | aboveRamTop
  deriving DecidableEq, Repr

/-- The state of the system. -/
structure State where
  /-- The Block's one register (R14). -/
  lastError : Byte
  /-- The command in progress; none when the Block is idle (R16, R34). -/
  busy : Option Pending
  /-- Bytes the Host has sent and the Block has not accepted yet (R63); what is left of the Host's program (R16). -/
  inbox : List Byte
  /-- The responses given so far, oldest first (R65). -/
  outbox : List Response
  /-- The reset input (R156, D1), sampled at the start of a step (log entry 8). -/
  resetIn : Bool
  /-- The chip's register file `RF` (R15). -/
  rf : Memory
  /-- The chip's register pointer (R33). -/
  ptr : Byte
  /-- RAM_TOP, the last offset the chip implements (R6, R29); no step changes it. -/
  ramTop : Byte
  /-- The legs started so far, oldest first (R44). -/
  trace : List Event
  /-- The Chip's coming steps, one gap before each step of the Block (R36); past the last one they are free (log entries 4 and 5). -/
  gaps : List (List ChipStep)
  /-- The Transport's coming replies, one for each transaction (R48); past the last one they are free (log entry 4). -/
  replies : List Reply
  /-- The model's own field: how many gaps were taken, the index of the free values (log entry 22). -/
  tick : Nat
  deriving DecidableEq, Repr

/-- Right after reset (R37, R156, R157, R159): `lastError` 0, the Block idle, nothing sent, nothing recorded. The register file lists
nothing (log entry 1), `ptr` is the model's choice (log entry 2), `ramTop` is open (log entry 3). -/
def State.reset : State where
  lastError := 0x00#8
  busy := none
  inbox := []
  outbox := []
  resetIn := false
  rf := []
  ptr := 0x00#8
  ramTop := Config.ramTop
  trace := []
  gaps := []
  replies := []
  tick := 0

end Sys2Proof.Machine
end

