-- ==== Sys2Proof/Machine/Flags.lean ====
section
/-! DEFINITION. The bits of CONTROL and STATUS (R24, R25, R30) and every computation of a command or of the Chip on them. The positions
are the spec's decision D10 (log entry 18). -/

namespace Sys2Proof.Machine

/-- `WMASK(which)` (R69): the alarm's bit in CONTROL (enable) and in STATUS (flag). -/
def wmask : Alarm → Byte
  | .one => 0x01#8
  | .two => 0x02#8

/-- The bit number of an alarm's enable and flag, `which - 1` (R69). -/
def alarmBit : Alarm → Nat
  | .one => 0
  | .two => 1

/-- OSF, STATUS bit 7 (R25). -/
def osfMask : Byte := 0x80#8

/-- BSY, STATUS bit 2 (R25). -/
def bsyMask : Byte := 0x04#8

/-- CONV, CONTROL bit 5 (R24). -/
def convMask : Byte := 0x20#8

/-- INTCN, CONTROL bit 2 (R24). -/
def intcnMask : Byte := 0x04#8

/-- The bits SQWSET with a frequency keeps: all but RS2, RS1 and INTCN (R128). -/
def sqwKeepMask : Byte := 0xE3#8

/-- Set or clear the bits of a mask. -/
def putBits (b mask : Byte) (v : Bool) : Byte := if v then b ||| mask else b &&& ~~~mask

/-- The alarm flag as ALMPEEK, ALMCONSUME and ALMCLEAR test it (R118 to R120). -/
def alarmFlag (status : Byte) (k : Alarm) : Bool := (status &&& wmask k) != 0x00#8

/-- The oscillator-stop flag as OSCSTOP tests it (R129). -/
def osfFlag (status : Byte) : Bool := (status &&& osfMask) != 0x00#8

/-- STATUS as ALMCONSUME and ALMCLEAR write it back: only the alarm's flag cleared (R119, R120). -/
def clearAlarmFlag (status : Byte) (k : Alarm) : Byte := status &&& ~~~wmask k

/-- STATUS as ClearOSF and OSCSTOP write it back: only bit 7 cleared (R104, R129). -/
def clearOsf (status : Byte) : Byte := status &&& 0x7F#8

/-- CONTROL as ALMIE writes it back: only the alarm's enable bit changed (R116). -/
def putAlarmEnable (control : Byte) (k : Alarm) (enabled : Bool) : Byte := putBits control (wmask k) enabled

/-- CONTROL as SQWSET writes it back (R128). -/
def putSquareWave (control : Byte) : SqwFreq → Byte
  | .disabled => control ||| intcnMask
  | f => (control &&& sqwKeepMask) ||| (f.code <<< 3)

end Sys2Proof.Machine
end

