-- ==== Sys2Proof/Machine/Operands.lean ====
section
/-! DEFINITION. The packers and unpackers: the BCD codec (R85, R86), the calendar time (R94, R95), the alarm registers (R113), the
temperature (R130), and the payloads and bytes of responses (R64, R65, R72). All total, none reads state. -/

namespace Sys2Proof.Machine

/-- The encoder (R85), on 8 bits: the tens value is truncated by the shift for n of 160 and more (D4, log entry 17). -/
def dec2bcd (n : Byte) : Byte := ((n / 10#8) <<< 4) ||| (n % 10#8)

/-- The decoder (R86); the same formula for bytes that are not valid BCD (D5, log entry 17). -/
def bcd2dec (b : Byte) : Byte := 10#8 * (b >>> 4) + (b &&& 0x0F#8)

/-- Byte `i` of the bytes a transaction returned; every caller asks below their number. -/
def byteAt (d : List Byte) (i : Nat) : Byte := d.getD i 0x00#8

/-- `UnpackTime` (R94): SECONDS bit 7, HOURS bit 6 and MONTH bit 7 are dropped, the weekday is raw. -/
def unpackTime (d : List Byte) : CalendarTime where
  second := bcd2dec (byteAt d 0 &&& 0x7F#8)
  minute := bcd2dec (byteAt d 1)
  hour := bcd2dec (byteAt d 2 &&& 0xBF#8)
  weekday := byteAt d 3
  day := bcd2dec (byteAt d 4)
  month := bcd2dec (byteAt d 5 &&& 0x7F#8)
  year := Config.yearBase + (bcd2dec (byteAt d 6)).setWidth 16

/-- `PackTime` (R95): the same three bits are written as 0; the year's offset is taken modulo 65536, its low byte encoded (D6). -/
def packTime (t : CalendarTime) : List Byte :=
  [dec2bcd t.second &&& 0x7F#8, dec2bcd t.minute, dec2bcd t.hour &&& 0xBF#8, dec2bcd t.weekday, dec2bcd t.day,
    dec2bcd t.month &&& 0x7F#8, dec2bcd ((t.year - Config.yearBase).setWidth 8)]

/-- Bit `i` of a code, moved to bit `j`. -/
def codeBit (code : Byte) (i j : Nat) : Byte := ((code >>> i) &&& 0x01#8) <<< j

/-- `PackAlarm` (R113): the start offset and the bytes. Mask bits and DY/DT are ORed in; alarm 2 has no seconds register. -/
def packAlarm (type : AlarmType) (s m h d : Byte) : Byte × List Byte :=
  let bs := dec2bcd s ||| codeBit type.code 0 7
  let bm := dec2bcd m ||| codeBit type.code 1 7
  let bh := dec2bcd h ||| codeBit type.code 2 7
  let bd := dec2bcd d ||| codeBit type.code 3 7 ||| codeBit type.code 4 6
  if type.code.getLsbD 7 then (0x0B#8, [bm, bh, bd]) else (0x07#8, [bs, bm, bh, bd])

/-- `UnpackTemp` (R130): bits 15:6 of MSB ++ LSB, sign-extended: quarter degrees. -/
def unpackTemp (msb lsb : Byte) : Half := ((msb ++ lsb : Half).extractLsb' 6 10).signExtend 16

/-- A Boolean result byte (R65). -/
def boolPayload (b : Bool) : List Byte := [if b then 0x01#8 else 0x00#8]

/-- The eight payload bytes of a calendar time (R72). -/
def timePayload (t : CalendarTime) : List Byte :=
  [t.second, t.minute, t.hour, t.weekday, t.day, t.month] ++ le16 t.year

/-- The response packet as bytes: tag, then payload (R65). -/
def Response.packet : Response → List Byte
  | .ok payload => 0x00#8 :: payload
  | .err st => [0x01#8, st]
  | .illegal => [0x02#8]

end Sys2Proof.Machine
end

