-- ==== Sys2Proof/Machine/Ops.lean ====
section
/-! DEFINITION. The named operations every meaning is built from: the register file as a canonical list, the updates of State, the
Chip's steps (R36), the two transactions (R46, R47) with the Transport's reply, the reset (R156), and the end of a command (R139). There is
no trap to take and none to return from (R149, R150): an error is the response of the command. -/

namespace Sys2Proof.Machine

/-! ### The register file -/

/-- The byte at an offset (R15); an unlisted one reads as `Config.unlistedByte` (log entry 1). -/
def Memory.read : Memory → Nat → Byte
  | [], _ => Config.unlistedByte
  | (k, v) :: m, a => if k = a then v else Memory.read m a

/-- Store all 8 bits of a byte (R15), keeping the canonical form. -/
def Memory.write : Memory → Nat → Byte → Memory
  | [], a, b => if b = Config.unlistedByte then [] else [(a, b)]
  | (k, v) :: m, a, b =>
    if a < k then (if b = Config.unlistedByte then (k, v) :: m else (a, b) :: (k, v) :: m)
    else if a = k then (if b = Config.unlistedByte then m else (a, b) :: m)
    else (k, v) :: Memory.write m a b

/-- Offsets from `lo` on, strictly rising and below 256, and no listed byte equal to the unlisted one. -/
def Memory.wfFrom : Nat → Memory → Bool
  | _, [] => true
  | lo, (k, v) :: m =>
    decide (lo ≤ k) && decide (k < Config.regFileSize) && (v != Config.unlistedByte) && Memory.wfFrom (k + 1) m

/-- The canonical form. -/
def Memory.wf (m : Memory) : Bool := Memory.wfFrom 0 m

/-- The `n` bytes at ascending offsets from `a` (R43). -/
def Memory.readRun (m : Memory) : Nat → Nat → List Byte
  | _, 0 => []
  | a, n + 1 => Memory.read m a :: Memory.readRun m (a + 1) n

/-- Store bytes at ascending offsets from `a` (R43, R46). -/
def Memory.writeRun : Memory → Nat → List Byte → Memory
  | m, _, [] => m
  | m, a, b :: bs => Memory.writeRun (Memory.write m a b) (a + 1) bs

/-- The run of `n` bytes at `addr` lies in the space and in the chip (R50, R29). Offsets up to 0x14 are implemented whatever RAM_TOP
(R6: RAM_TOP is at least 0x14; log entry 3). `none`: it does; otherwise why the spec gives it no meaning. -/
def runRefusal (ramTop addr : Byte) (n : Nat) : Option Refusal :=
  if Config.regFileSize < addr.toNat + n then some .runPastTop
  else if addr.toNat + n ≤ Config.ramBase + 1 then none
  else if ramTop.toNat + 1 < addr.toNat + n then some .aboveRamTop
  else none

/-! ### Updates of State -/

/-- Append a leg to the trace (R44). -/
def State.record (e : Event) (s : State) : State := { s with trace := s.trace ++ [e] }

/-- The command ends with its response; the Block is idle (R139). -/
def State.respond (r : Response) (s : State) : State := { s with outbox := s.outbox ++ [r], busy := none }

/-- The Block is busy, and `p` is the transaction that comes next (R34): a step of the Block is one transaction (R12). -/
def State.suspend (p : Pending) (s : State) : State := { s with busy := some p }

/-- Only a failing time read writes it (R14). -/
def State.setLastError (st : Byte) (s : State) : State := { s with lastError := st }

/-- The register file after a transaction. -/
def State.setRf (m : Memory) (s : State) : State := { s with rf := m }

/-- The chip's pointer (R33). -/
def State.setPtr (p : Byte) (s : State) : State := { s with ptr := p }

/-- The Host's bytes not yet accepted. -/
def State.setInbox (bs : List Byte) (s : State) : State := { s with inbox := bs }

/-- The reset input (R156): `lastError` 0, the command in progress abandoned without a response, the Block idle, the Chip untouched. The
input is taken by this step (log entry 8). -/
def State.blockReset (s : State) : State := { s with lastError := 0x00#8, busy := none, resetIn := false }

/-! ### The Chip's own steps and the Transport's reply -/

/-- One step of the Chip on the register file (R36). -/
def chipStep (c : ChipStep) (m : Memory) : Memory :=
  match c with
  | .alarmMatch k => Memory.write m 0x0F (Memory.read m 0x0F ||| wmask k)
  | .oscillatorStop => Memory.write m 0x0F (Memory.read m 0x0F ||| osfMask)
  | .time r v => Memory.write m r.val v
  | .temperature r v => Memory.write m (0x11 + r.val) v
  | .bsy v => Memory.write m 0x0F (putBits (Memory.read m 0x0F) bsyMask v)
  | .conv v => Memory.write m 0x0E (putBits (Memory.read m 0x0E) convMask v)

/-- The Chip's steps in one gap, in order (R36). -/
def chipSteps : List ChipStep → Memory → Memory
  | [], m => m
  | c :: cs, m => chipSteps cs (chipStep c m)

/-- The Chip's steps in the gap before the next step of the Block: those listed first, else free ones (log entry 4). -/
def State.gap (s : State) : List ChipStep := s.gaps.headD (Config.freeGap s.tick)

/-- The state in which the Block's next step begins: the gap is over, the Chip's steps in it done (R36). -/
def State.afterGap (s : State) : State :=
  { s with rf := chipSteps s.gap s.rf, gaps := s.gaps.tail, tick := s.tick + 1 }

/-- What the Transport does with the next transaction: the first reply listed, else a free one (log entry 4). -/
def State.reply (s : State) : Reply := s.replies.headD (Config.freeReply s.tick)

/-- The next reply is taken. -/
def State.replied (s : State) : State := { s with replies := s.replies.tail }

/-! ### The two transactions -/

/-- The status of a leg (R48): its draw, but never 0 when it carries more than its limit (constraint 1). -/
def legStatus (limit n : Nat) (draw : Byte) (tick : Nat) : Byte :=
  if limit < n ∧ draw = 0x00#8 then Config.overLengthStatus tick else draw

/-- The `n` bytes a failed read returns: draws (R48 constraint 4). -/
def drawnBytes (n : Nat) (bytes : List Byte) (tick : Nat) : List Byte :=
  (List.range n).map (fun i => bytes.getD i (Config.freeByte tick i))

/-- The chip's pointer after a leg that moved `n` bytes from `addr` (R33): the next offset, free where the spec does not state it. -/
def pointerAfter (addr : Byte) (n : Nat) (st : Byte) (tick : Nat) : Byte :=
  if st = 0x00#8 ∧ addr.toNat + n < Config.regFileSize then BitVec.ofNat 8 (addr.toNat + n) else Config.freePointer tick

/-- `MemWrite(addr, n, v)` (R46) under the draws `d`: its status and the state after it. A failed leg has stored the first `d.stored` of
the bytes, all of them when there are fewer (R48 constraint 3; log entry 11). -/
def memWrite (addr : Byte) (v : List Byte) (d : Answer) (s : State) : Byte × State :=
  let st := legStatus Config.txMaxWrite v.length d.writeLeg s.tick
  let stored := if st = 0x00#8 then v else v.take d.stored
  (st, ((s.record (.write addr v st)).setRf (Memory.writeRun s.rf addr.toNat stored)).setPtr
    (pointerAfter addr v.length st s.tick))

/-- `MemRead(addr, n)` (R47) under the draws `d`: its status, its bytes and the state after it. The read leg starts at the pointer the
address-select leg set (R33), and is not started when that leg failed. -/
def memRead (addr : Byte) (n : Nat) (d : Answer) (s : State) : Byte × List Byte × State :=
  if d.writeLeg = 0x00#8 then
    let sel := (s.record (.write addr [] 0x00#8)).setPtr addr
    let st := legStatus Config.txMaxRead n d.readLeg s.tick
    let bytes := if st = 0x00#8 then Memory.readRun sel.rf sel.ptr.toNat n else drawnBytes n d.bytes s.tick
    (st, bytes, (sel.record (.read n bytes st)).setPtr (pointerAfter addr n st s.tick))
  else
    (d.writeLeg, drawnBytes n d.bytes s.tick,
      (s.record (.write addr [] d.writeLeg)).setPtr (Config.freePointer s.tick))

/-- A write transaction of the running command, then `k` with its status: the response, or the next transaction as the one that comes
next (R12, R34). When the Transport is silent the command stays in progress as `p` (R59; log entry 7). -/
def busWrite (addr : Byte) (v : List Byte) (p : Pending) (k : Byte → State → State) (s : State) : State :=
  match s.reply with
  | .silent => s.replied.suspend p
  | .answers d => k (memWrite addr v d s.replied).1 (memWrite addr v d s.replied).2

/-- A read transaction of the running command, then `k` with its status and bytes, in the same way (R12, R34, R59). -/
def busRead (addr : Byte) (n : Nat) (p : Pending) (k : Byte → List Byte → State → State) (s : State) : State :=
  match s.reply with
  | .silent => s.replied.suspend p
  | .answers d => k (memRead addr n d s.replied).1 (memRead addr n d s.replied).2.1 (memRead addr n d s.replied).2.2

/-! ### The ends of a command -/

/-- `ok()` for status 0 and `err(st)` otherwise (R9, R139). -/
def statusResponse (st : Byte) : Response := if st = 0x00#8 then .ok [] else .err st

/-- The packet is not a legal command: the response `illegal` and nothing else (R68, R141). -/
def answerIllegal (s : State) : Host.Outcome State Fault Refusal := .next (s.respond .illegal)

/-- Run a command whose transaction covers `n` bytes at `addr`, unless the spec gives that run no meaning (R50, R29). -/
def ifInChip (addr : Byte) (n : Nat) (run : State → State) (s : State) : Host.Outcome State Fault Refusal :=
  match runRefusal s.ramTop addr n with
  | some r => .refused r
  | none => .next (run s)

end Sys2Proof.Machine
end

