-- ==== Sys2Proof/Machine/Access.lean ====
section
/-! DEFINITION. Raw register access (42_register_access.md): opaque bytes, one transaction each. -/

namespace Sys2Proof.Machine

/-- The write of WRBLK and WRBYTE (R105, R107). -/
def blockWrite (addr : Byte) (data : List Byte) (s : State) : State :=
  busWrite addr data (.blockWrite addr data) (fun st s => s.respond (statusResponse st)) s

/-- The read of RDBLK and RDBYTE (R106, R108): no data on a failure. -/
def blockRead (addr : Byte) (count : Nat) (s : State) : State :=
  busRead addr count (.blockRead addr count)
    (fun st d s => if st = 0x00#8 then s.respond (.ok d) else s.respond (.err st)) s

/-- WRBLK (R105). Data of no packet (none, or more than `len` can say) is illegal (R68 case 6, R82; log entry 25). -/
def execWrblk (addr : Byte) (data : List Byte) (s : State) : Host.Outcome State Fault Refusal :=
  if data.length = 0 ∨ 255 < data.length then answerIllegal s
  else ifInChip addr data.length (blockWrite addr data) s

/-- RDBLK (R106); a count of 0 is illegal (R68 case 6). -/
def execRdblk (addr count : Byte) (s : State) : Host.Outcome State Fault Refusal :=
  if count = 0x00#8 then answerIllegal s else ifInChip addr count.toNat (blockRead addr count.toNat) s

/-- WRBYTE (R107). -/
def execWrbyte (addr value : Byte) (s : State) : Host.Outcome State Fault Refusal :=
  ifInChip addr 1 (blockWrite addr [value]) s

/-- RDBYTE (R108). -/
def execRdbyte (addr : Byte) (s : State) : Host.Outcome State Fault Refusal := ifInChip addr 1 (blockRead addr 1) s

end Sys2Proof.Machine
end

