-- ==== Sys2Proof/Machine/Alarms.lean ====
section
/-! DEFINITION. The alarm commands (43_alarm.md), one transaction a step (R12). No status reaches the Host (R125); a
failed read goes on with the drawn byte (R144). -/

namespace Sys2Proof.Machine

/-- The write of SETALM and SETALM3 (R114): the status is dropped. -/
def alarmWrite (addr : Byte) (bytes : List Byte) (s : State) : State :=
  busWrite addr bytes (.alarmWrite addr bytes) (fun _ s => s.respond (.ok [])) s

/-- The write of CONTROL that ends ALMIE and SQWSET (R116, R128): the status is dropped. -/
def controlWrite (value : Byte) (s : State) : State :=
  busWrite 0x0E#8 [value] (.controlWrite value) (fun _ s => s.respond (.ok [])) s

/-- The write of STATUS that ends ALMCONSUME, ALMCLEAR and OSCSTOP (R119, R120, R129): the status is dropped, the answer is true. -/
def statusWrite (value : Byte) (s : State) : State :=
  busWrite 0x0F#8 [value] (.statusWrite value) (fun _ s => s.respond (.ok (boolPayload true))) s

/-- The read of ALMIE (R116): the write comes next. -/
def almieRead (k : Alarm) (enabled : Bool) (s : State) : State :=
  busRead 0x0E#8 1 (.almieRead k enabled) (fun _ d s => s.suspend (.controlWrite (putAlarmEnable (byteAt d 0) k enabled))) s

/-- The read of ALMPEEK (R118). -/
def peekRead (k : Alarm) (s : State) : State :=
  busRead 0x0F#8 1 (.peekRead k) (fun _ d s => s.respond (.ok (boolPayload (alarmFlag (byteAt d 0) k)))) s

/-- What ALMCONSUME does with the byte it read (R119): the write comes next and reuses it; no write when the flag is clear. -/
def consumeStatus (k : Alarm) (status : Byte) (s : State) : State :=
  if alarmFlag status k then s.suspend (.statusWrite (clearAlarmFlag status k)) else s.respond (.ok (boolPayload false))

/-- The read of ALMCONSUME (R119). -/
def consumeRead (k : Alarm) (s : State) : State :=
  busRead 0x0F#8 1 (.consumeRead k) (fun _ d s => consumeStatus k (byteAt d 0) s) s

/-- What ALMCLEAR does with the byte it read (R120), its own definition beside ALMCONSUME's. -/
def clearStatus (k : Alarm) (status : Byte) (s : State) : State :=
  if alarmFlag status k then s.suspend (.statusWrite (clearAlarmFlag status k)) else s.respond (.ok (boolPayload false))

/-- The read of ALMCLEAR (R120). -/
def clearRead (k : Alarm) (s : State) : State :=
  busRead 0x0F#8 1 (.clearRead k) (fun _ d s => clearStatus k (byteAt d 0) s) s

/-- SETALM (R114). -/
def execSetalm (type seconds minutes hours daydate : Byte) (s : State) : Host.Outcome State Fault Refusal :=
  match AlarmType.ofByte type with
  | none => answerIllegal s
  | some t => .next (alarmWrite (packAlarm t seconds minutes hours daydate).1 (packAlarm t seconds minutes hours daydate).2 s)

/-- SETALM3 (R115): the seconds are forced to zero. -/
def execSetalm3 (type minutes hours daydate : Byte) (s : State) : Host.Outcome State Fault Refusal :=
  match AlarmType.ofByte type with
  | none => answerIllegal s
  | some t => .next (alarmWrite (packAlarm t 0x00#8 minutes hours daydate).1 (packAlarm t 0x00#8 minutes hours daydate).2 s)

/-- ALMIE (R116). -/
def execAlmie (which enabled : Byte) (s : State) : Host.Outcome State Fault Refusal :=
  match Alarm.ofByte which, boolOfByte enabled with
  | some k, some e => .next (almieRead k e s)
  | _, _ => answerIllegal s

/-- ALMCONSUME (R119). -/
def execAlmconsume (which : Byte) (s : State) : Host.Outcome State Fault Refusal :=
  match Alarm.ofByte which with
  | none => answerIllegal s
  | some k => .next (consumeRead k s)

/-- ALMPEEK (R118). -/
def execAlmpeek (which : Byte) (s : State) : Host.Outcome State Fault Refusal :=
  match Alarm.ofByte which with
  | none => answerIllegal s
  | some k => .next (peekRead k s)

/-- ALMCLEAR (R120). -/
def execAlmclear (which : Byte) (s : State) : Host.Outcome State Fault Refusal :=
  match Alarm.ofByte which with
  | none => answerIllegal s
  | some k => .next (clearRead k s)

end Sys2Proof.Machine
end

