-- ==== Sys2Proof/Machine/Auxiliary.lean ====
section
/-! DEFINITION. The auxiliary controls (44_auxiliary.md), one transaction a step (R12). No status reaches the Host; a failed
read goes on with the drawn byte (R144). -/

namespace Sys2Proof.Machine

/-- The read of SQWSET (R128): the write comes next. -/
def sqwRead (freq : SqwFreq) (s : State) : State :=
  busRead 0x0E#8 1 (.sqwRead freq) (fun _ d s => s.suspend (.controlWrite (putSquareWave (byteAt d 0) freq))) s

/-- What OSCSTOP does with the byte it read (R129): the write comes next only when OSF was read as 1 and `clear` is true. -/
def oscStatus (clear : Bool) (status : Byte) (s : State) : State :=
  if osfFlag status && clear then s.suspend (.statusWrite (clearOsf status)) else s.respond (.ok (boolPayload (osfFlag status)))

/-- The read of OSCSTOP (R129). -/
def oscRead (clear : Bool) (s : State) : State :=
  busRead 0x0F#8 1 (.oscRead clear) (fun _ d s => oscStatus clear (byteAt d 0) s) s

/-- The second read of TEMP (R131). -/
def tempMsb (lsb : Byte) (s : State) : State :=
  busRead 0x11#8 1 (.tempMsb lsb) (fun _ d s => s.respond (.ok (le16 (unpackTemp (byteAt d 0) lsb)))) s

/-- The first read of TEMP (R131): the second comes next whatever the first answered. -/
def tempLsb (s : State) : State := busRead 0x12#8 1 .tempLsb (fun _ d s => s.suspend (.tempMsb (byteAt d 0))) s

/-- SQWSET (R128). -/
def execSqwset (freq : Byte) (s : State) : Host.Outcome State Fault Refusal :=
  match SqwFreq.ofByte freq with
  | none => answerIllegal s
  | some f => .next (sqwRead f s)

/-- OSCSTOP (R129). -/
def execOscstop (clear : Byte) (s : State) : Host.Outcome State Fault Refusal :=
  match boolOfByte clear with
  | none => answerIllegal s
  | some c => .next (oscRead c s)

/-- TEMP (R131). -/
def execTemp (s : State) : Host.Outcome State Fault Refusal := .next (tempLsb s)

/-- GETERR (R132): `lastError` is not changed. -/
def execGeterr (s : State) : Host.Outcome State Fault Refusal := .next (s.respond (.ok [s.lastError]))

end Sys2Proof.Machine
end

