-- ==== Sys2Proof/Machine/Codec.lean ====
section
/-! DEFINITION. The BCD codec commands (40_bcd_codec.md): no state, no transaction. -/

namespace Sys2Proof.Machine

/-- DEC2BCD (R87). -/
def execDec2bcd (n : Byte) (s : State) : Host.Outcome State Fault Refusal := .next (s.respond (.ok [dec2bcd n]))

/-- BCD2DEC (R88). -/
def execBcd2dec (b : Byte) (s : State) : Host.Outcome State Fault Refusal := .next (s.respond (.ok [bcd2dec b]))

end Sys2Proof.Machine
end

