-- ==== Sys2Proof/Machine/Time.lean ====
section
/-! DEFINITION. The time commands (41_time.md), each as the transactions of its rule, one a step (R12). A function named after a
transaction runs that transaction and ends the command or leaves it busy with the next one (R34). -/

namespace Sys2Proof.Machine

/-- The read of RDTIME (R96). -/
def rdtimeRead (s : State) : State :=
  busRead 0x00#8 7 .rdtime
    (fun st d s =>
      if st = 0x00#8 then s.respond (.ok (timePayload (unpackTime d))) else (s.setLastError st).respond (.err st)) s

/-- The read of GETEPOCH (R98): a failed read answers the sentinel 0. -/
def getepochRead (s : State) : State :=
  busRead 0x00#8 7 .getepoch
    (fun st d s =>
      if st = 0x00#8 then s.respond (.ok (le32 (Config.calToEpoch (unpackTime d))))
      else (s.setLastError st).respond (.ok (le32 0#32))) s

/-- The write of ClearOSF (R104); then the time write's status is reported (R97). -/
def osfWrite (timeStatus value : Byte) (s : State) : State :=
  busWrite 0x0F#8 [value] (.osfWrite timeStatus value) (fun _ s => s.respond (statusResponse timeStatus)) s

/-- The read of ClearOSF (R104): the write comes next whatever the read answered. -/
def osfRead (timeStatus : Byte) (s : State) : State :=
  busRead 0x0F#8 1 (.osfRead timeStatus) (fun _ d s => s.suspend (.osfWrite timeStatus (clearOsf (byteAt d 0)))) s

/-- The 7-byte write of WRTIME and SETEPOCH (R97, R99): ClearOSF comes next whatever the write answered. -/
def timeWrite (v : List Byte) (s : State) : State :=
  busWrite 0x00#8 v (.timeWrite v) (fun st s => s.suspend (.osfRead st)) s

/-- RDTIME (R96): its one transaction. -/
def execRdtime (s : State) : Host.Outcome State Fault Refusal := .next (rdtimeRead s)

/-- WRTIME (R97): the first of its three transactions. -/
def execWrtime (t : CalendarTime) (s : State) : Host.Outcome State Fault Refusal := .next (timeWrite (packTime t) s)

/-- GETEPOCH (R98): its one transaction. -/
def execGetepoch (s : State) : Host.Outcome State Fault Refusal := .next (getepochRead s)

/-- SETEPOCH (R99): the first of its three transactions. -/
def execSetepoch (epoch : Word) (s : State) : Host.Outcome State Fault Refusal :=
  .next (timeWrite (packTime (Config.epochToCal epoch)) s)

end Sys2Proof.Machine
end

