-- ==== Sys2Proof/Machine/Resume.lean ====
section
/-! DEFINITION. The busy Block (R16, R34): one step runs the transaction that comes next (R12). -/

namespace Sys2Proof.Machine

/-- The offset and length of the transaction that comes next. -/
def Pending.run : Pending → Byte × Nat
  | .rdtime => (0x00#8, 7)
  | .getepoch => (0x00#8, 7)
  | .timeWrite v => (0x00#8, v.length)
  | .osfRead _ => (0x0F#8, 1)
  | .osfWrite _ _ => (0x0F#8, 1)
  | .blockWrite addr data => (addr, data.length)
  | .blockRead addr n => (addr, n)
  | .alarmWrite addr v => (addr, v.length)
  | .almieRead _ _ => (0x0E#8, 1)
  | .sqwRead _ => (0x0E#8, 1)
  | .controlWrite _ => (0x0E#8, 1)
  | .peekRead _ => (0x0F#8, 1)
  | .consumeRead _ => (0x0F#8, 1)
  | .clearRead _ => (0x0F#8, 1)
  | .oscRead _ => (0x0F#8, 1)
  | .statusWrite _ => (0x0F#8, 1)
  | .tempLsb => (0x12#8, 1)
  | .tempMsb _ => (0x11#8, 1)

/-- The transaction that comes next. -/
def resume : Pending → State → State
  | .rdtime => rdtimeRead
  | .getepoch => getepochRead
  | .timeWrite v => timeWrite v
  | .osfRead st => osfRead st
  | .osfWrite st b => osfWrite st b
  | .blockWrite addr data => blockWrite addr data
  | .blockRead addr n => blockRead addr n
  | .alarmWrite addr v => alarmWrite addr v
  | .almieRead k e => almieRead k e
  | .sqwRead f => sqwRead f
  | .controlWrite b => controlWrite b
  | .peekRead k => peekRead k
  | .consumeRead k => consumeRead k
  | .clearRead k => clearRead k
  | .oscRead c => oscRead c
  | .statusWrite b => statusWrite b
  | .tempLsb => tempLsb
  | .tempMsb lsb => tempMsb lsb

/-- The step of a busy Block. A transaction outside the chip stands in no run (log entry 20). -/
def stepBusy (p : Pending) (s : State) : Host.Outcome State Fault Refusal :=
  match runRefusal s.ramTop p.run.1 p.run.2 with
  | some _ => .fault .suspendedOutsideChip
  | none => .next (resume p s)

end Sys2Proof.Machine
end

