-- ==== Sys2Proof/Machine/Dispatch.lean ====
section
/-! DEFINITION. One arm per command (R75 step 4). -/

namespace Sys2Proof.Machine

open Sys2Proof

/-- Begin a command: its first transaction, or its whole pure computation (R12). Later transactions are the steps of the busy Block. -/
def exec (i : Instr) (s : State) : Host.Outcome State Fault Refusal :=
  match i with
  | .dec2bcd n => Sys2Proof.Machine.execDec2bcd n s
  | .bcd2dec b => Sys2Proof.Machine.execBcd2dec b s
  | .rdtime => Sys2Proof.Machine.execRdtime s
  | .wrtime t => Sys2Proof.Machine.execWrtime t s
  | .getepoch => Sys2Proof.Machine.execGetepoch s
  | .setepoch e => Sys2Proof.Machine.execSetepoch e s
  | .wrblk a d => Sys2Proof.Machine.execWrblk a d s
  | .rdblk a c => Sys2Proof.Machine.execRdblk a c s
  | .wrbyte a v => Sys2Proof.Machine.execWrbyte a v s
  | .rdbyte a => Sys2Proof.Machine.execRdbyte a s
  | .setalm ty sec m h d => Sys2Proof.Machine.execSetalm ty sec m h d s
  | .setalm3 ty m h d => Sys2Proof.Machine.execSetalm3 ty m h d s
  | .almie w e => Sys2Proof.Machine.execAlmie w e s
  | .almconsume w => Sys2Proof.Machine.execAlmconsume w s
  | .almpeek w => Sys2Proof.Machine.execAlmpeek w s
  | .almclear w => Sys2Proof.Machine.execAlmclear w s
  | .sqwset f => Sys2Proof.Machine.execSqwset f s
  | .oscstop c => Sys2Proof.Machine.execOscstop c s
  | .temp => Sys2Proof.Machine.execTemp s
  | .geterr => Sys2Proof.Machine.execGeterr s

end Sys2Proof.Machine
end

