-- ==== Sys2Proof/Machine/Step.lean ====
section
/-! DEFINITION. One step: the reset input, or the Chip's gap and then the busy Block or the Host's next packet (R12, R16, R36, R75, R156). -/

namespace Sys2Proof.Machine

/-- What the Block does in one step (R12): one transaction, or one pure computation. A busy Block accepts no packet (R16); an idle Block
without a whole packet waits (R157; log entry 9). -/
def stepBlock (s : State) : Host.Outcome State Fault Refusal :=
  match s.busy with
  | some p => stepBusy p s
  | none =>
    match decode s.inbox with
    | .incomplete => .next s
    | .illegalOpcode _ rest => answerIllegal (s.setInbox rest)
    | .packet i rest => exec i (s.setInbox rest)

/-- One step of the machine: the reset input, or the gap with the Chip's own steps and then the Block. So the Chip may step before every
transaction, between commands and while the Block waits (R36), and a reset may fall before every one of them (R173). -/
def step (s : State) : Host.Outcome State Fault Refusal :=
  if s.resetIn then .next s.blockReset else stepBlock s.afterGap

/-- `s` with the packet of an opcode-table word as the Host's next bytes, the Block idle and the reset input not asserted: this stands
for the Host sending that packet (log entry 9). -/
def State.withFetchWord (s : State) (nbits w : Nat) : State :=
  { s with inbox := tablePacket nbits w ++ s.inbox, busy := none, resetIn := false }

end Sys2Proof.Machine
end

