-- ==== Sys2Proof/Machine/Wire.lean ====
section
/-! DEFINITION. The byte sequence of a leg on the two-wire bus (R42, R45). The address byte is general knowledge of the spec's (G1, log
entry 19). -/

namespace Sys2Proof.Machine

/-- What stands on the wire: a start, a byte, a stop (R45). Acknowledge bits and levels are not modelled (R12). -/
inductive WireSymbol where
  | start
  | byte (b : Byte)
  | stop
  deriving DecidableEq, Repr

/-- The address byte: the device address in bits 7:1, the direction in bit 0, 0 for write and 1 for read (R42). -/
def addressByte (read : Bool) : Byte := BitVec.ofNat 8 (2 * Config.devAddr) ||| (if read then 0x01#8 else 0x00#8)

/-- The wire sequence of a leg that answered 0 (R45); what stands on the wire when a leg fails is not stated. -/
def Event.wire : Event → List WireSymbol
  | .write off data _ =>
    [.start, .byte (addressByte false), .byte off] ++ data.map WireSymbol.byte ++ [.stop]
  | .read _ data _ => [.start, .byte (addressByte true)] ++ data.map WireSymbol.byte ++ [.stop]

end Sys2Proof.Machine
end

