-- ==== Sys2Proof/Safety.lean ====
section
/-! DEFINITION. The terms claims are stated in: a transaction that succeeds, a command that completes, what a command may store and what
the Chip may change, and the invariants of the machine. -/

namespace Sys2Proof

/-- The draws of a transaction whose legs both succeed: "the transport never fails", for one transaction (R48). -/
def Answer.Succeeds (d : Answer) : Prop := d.writeLeg = 0x00#8 ∧ d.readLeg = 0x00#8

/-- The ranges of R93 a caller should keep to; nothing checks them. -/
def CalendarTime.Valid (t : CalendarTime) : Prop :=
  t.second.toNat ≤ 59 ∧ t.minute.toNat ≤ 59 ∧ t.hour.toNat ≤ 23 ∧ 1 ≤ t.weekday.toNat ∧ t.weekday.toNat ≤ 7 ∧
    1 ≤ t.day.toNat ∧ t.day.toNat ≤ 31 ∧ 1 ≤ t.month.toNat ∧ t.month.toNat ≤ 12 ∧ 2000 ≤ t.year.toNat ∧ t.year.toNat ≤ 2099

/-- Both nibbles are decimal digits (R11). -/
def ValidBcd (b : Byte) : Prop := b.toNat / 16 ≤ 9 ∧ b.toNat % 16 ≤ 9

/-- The Transport answered, with whatever status. -/
def Reply.answered : Reply → Bool
  | .answers _ => true
  | .silent => false

/-- A chip step that leaves the time registers alone. -/
def ChipStep.keepsTime : ChipStep → Bool
  | .time _ _ => false
  | .alarmMatch _ | .oscillatorStop | .temperature _ _ | .bsy _ | .conv _ => true

/-- A chip step that leaves STATUS alone. -/
def ChipStep.keepsStatus : ChipStep → Bool
  | .alarmMatch _ | .oscillatorStop | .bsy _ => false
  | .time _ _ | .temperature _ _ | .conv _ => true

/-- The commands that read or write offsets the Host gives (R40). -/
def Instr.rawRun : Instr → Option (Byte × Nat)
  | .wrblk addr data => some (addr, data.length)
  | .rdblk addr count => some (addr, count.toNat)
  | .wrbyte addr _ => some (addr, 1)
  | .rdbyte addr => some (addr, 1)
  | .dec2bcd _ | .bcd2dec _ | .rdtime | .wrtime _ | .getepoch | .setepoch _ | .setalm _ _ _ _ _ | .setalm3 _ _ _ _ | .almie _ _
  | .almconsume _ | .almpeek _ | .almclear _ | .sqwset _ | .oscstop _ | .temp | .geterr => none

/-- The commands that never answer `err` (R66, last column "no"; C4). -/
def Instr.neverErr : Instr → Bool
  | .dec2bcd _ | .bcd2dec _ | .getepoch | .setalm _ _ _ _ _ | .setalm3 _ _ _ _ | .almie _ _ | .almconsume _ | .almpeek _
  | .almclear _ | .sqwset _ | .oscstop _ | .temp | .geterr => true
  | .rdtime | .wrtime _ | .setepoch _ | .wrblk _ _ | .rdblk _ _ | .wrbyte _ _ | .rdbyte _ => false

/-- How many transactions a command starts at most (R60, R175). -/
def Instr.maxTransactions : Instr → Nat
  | .dec2bcd _ | .bcd2dec _ | .geterr => 0
  | .rdtime | .getepoch | .rdblk _ _ | .rdbyte _ | .almpeek _ | .wrblk _ _ | .wrbyte _ _ | .setalm _ _ _ _ _
  | .setalm3 _ _ _ _ => 1
  | .almie _ _ | .sqwset _ | .almconsume _ | .almclear _ | .oscstop _ | .temp => 2
  | .wrtime _ | .setepoch _ => 3

end Sys2Proof

namespace Sys2Proof.Machine

/-- The state `n` steps later, when each of them gives a next state. -/
def steps : Nat → State → Option State
  | 0, s => some s
  | n + 1, s =>
    match step s with
    | .next t => steps n t
    | .fault _ => none
    | .refused _ => none

/-- The command completes in `n` transactions: it runs the first one, the Block's next `n - 1` steps run the others, and then it has
answered `r`, having started exactly `legs` and left the register file as `m` and `lastError` as `e`. The Block is idle, `n` replies and
the gaps between the transactions are taken, and everything else but the unobservable pointer (R33) is as it was. -/
def Completes (i : Instr) (s : State) (r : Response) (legs : List Event) (m : Memory) (e : Byte) (n : Nat) : Prop :=
  ∃ u t, exec i s = .next u ∧ steps (n - 1) u = some t ∧ t.outbox = s.outbox ++ [r] ∧ t.busy = none ∧ t.trace = s.trace ++ legs ∧
    t.rf = m ∧ t.lastError = e ∧ t.replies = s.replies.drop n ∧ t.gaps = s.gaps.drop (n - 1) ∧ t.inbox = s.inbox ∧
    t.resetIn = s.resetIn ∧ t.ramTop = s.ramTop

/-- A one-byte read at `off` with the draws `d` returned `b` and recorded `legs`: the select leg alone when it failed, both legs when it
did not, and the register's byte when both answered 0 (R47, R48). -/
def ReadReturns (m : Memory) (off : Byte) (d : Answer) (b : Byte) (legs : List Event) : Prop :=
  (d.writeLeg ≠ 0x00#8 → legs = [.write off [] d.writeLeg]) ∧
    (d.writeLeg = 0x00#8 → legs = [.write off [] 0x00#8, .read 1 [b] d.readLeg]) ∧
    (d.Succeeds → b = Memory.read m off.toNat)

/-- The register file after a one-byte write with the draws `d`: stored on success, and possibly on a failure (R48, R144). -/
def storeByte (m : Memory) (a : Nat) (b : Byte) (d : Answer) : Memory :=
  if d.writeLeg = 0x00#8 ∨ 1 ≤ d.stored then Memory.write m a b else m

/-- The run lies inside what the chip implements (R50, R29, with RAM_TOP at least 0x14 as R6 has it). -/
def InChip (s : State) (addr : Byte) (n : Nat) : Prop := addr.toNat + n ≤ max s.ramTop.toNat 0x14 + 1

/-- The runs of bytes a command may store to, each with its start and its length, computed as its meaning computes them (R38). -/
def storedRuns : Instr → List (Nat × Nat)
  | .dec2bcd _ => []
  | .bcd2dec _ => []
  | .rdtime => []
  | .wrtime t => [(0x00, (packTime t).length), (0x0F, 1)]
  | .getepoch => []
  | .setepoch e => [(0x00, (packTime (Config.epochToCal e)).length), (0x0F, 1)]
  | .wrblk addr data => [(addr.toNat, data.length)]
  | .rdblk _ _ => []
  | .wrbyte addr _ => [(addr.toNat, 1)]
  | .rdbyte _ => []
  | .setalm ty s m h d =>
    match AlarmType.ofByte ty with
    | none => []
    | some t => [((packAlarm t s m h d).1.toNat, (packAlarm t s m h d).2.length)]
  | .setalm3 ty m h d =>
    match AlarmType.ofByte ty with
    | none => []
    | some t => [((packAlarm t 0x00#8 m h d).1.toNat, (packAlarm t 0x00#8 m h d).2.length)]
  | .almie _ _ => [(0x0E, 1)]
  | .almconsume _ => [(0x0F, 1)]
  | .almpeek _ => []
  | .almclear _ => [(0x0F, 1)]
  | .sqwset _ => [(0x0E, 1)]
  | .oscstop clear => if boolOfByte clear = some true then [(0x0F, 1)] else []
  | .temp => []
  | .geterr => []

/-- The offsets in which the Chip may change something on its own (R36). -/
def chipMayChange (a : Nat) : Bool := decide (a ≤ 0x06) || a == 0x0E || a == 0x0F || a == 0x11 || a == 0x12

/-- The machine's invariant: the register file is in canonical form, and a busy Block's next transaction lies inside the chip. -/
structure State.Inv (s : State) : Prop where
  canonical : s.rf.wf = true
  pendingInChip : ∀ p, s.busy = some p → runRefusal s.ramTop p.run.1 p.run.2 = none

/-- What every leg of a run satisfies: a write leg stays inside the space (R50), a leg that answered 0 carried no more than its limit
(R48; the limits are log entry 16's), a read leg returned as many bytes as it asked for (R44). -/
def Event.Lawful : Event → Prop
  | .write off data st => off.toNat + data.length ≤ 256 ∧ (st = 0x00#8 → data.length ≤ 31)
  | .read n data st => data.length = n ∧ (st = 0x00#8 → n ≤ 32)

/-- The legs of a trace keep the shape of R45 and R47: a read leg comes right after an address-select leg that answered 0. `selected`
says that the leg before was one. -/
def readsSelected : Bool → List Event → Bool
  | _, [] => true
  | _, .write _ data st :: es => readsSelected (data.isEmpty && st == 0x00#8) es
  | selected, .read _ _ _ :: es => selected && readsSelected false es

/-- The read legs of a trace stay inside the space (R50): each comes right after an address-select leg that answered 0, and the run from
the selected offset ends at 0xFF or before. `selected` is the offset selected by the leg before, if it was one. -/
def readsInSpace : Option Byte → List Event → Bool
  | _, [] => true
  | _, .write off data st :: es => readsInSpace (if data.isEmpty && st == 0x00#8 then some off else none) es
  | none, .read _ _ _ :: _ => false
  | some off, .read n _ _ :: es => decide (off.toNat + n ≤ 256) && readsInSpace none es

/-- The history's invariant: `err` carries a non-zero status (R65), and every leg is lawful and stays inside the space. -/
structure State.Lawful (s : State) : Prop where
  responses : ∀ st, Response.err st ∈ s.outbox → st ≠ 0x00#8
  legs : ∀ e ∈ s.trace, e.Lawful
  reads : readsInSpace none s.trace = true

end Sys2Proof.Machine
end

