-- ==== Sys2Proof/Certificates/Slice0/Obligations.lean ====
section
/-! DEFINITION. The statements about the machine, from the numbered rules of spec/. A step of the Block is one transaction (R12), so a
command of several transactions is `exec` and the `steps` after it. A statement that names gaps holds for every list of chip steps in
them; `Completes` fixes the response, the legs, the register file, `lastError` and all the rest. -/

open Sys2Proof Sys2Proof.Machine

/-! ### The codec -/

/-- R87 with R85: DEC2BCD answers the packed digits; no transaction, no state. Above 99 the formula is the spec's decision D4 (log
entry 17). -/
def Obligations.DecimalToBcdAnswersPackedDigits : Prop :=
  ∀ (n : Byte) (s : State), encode (.dec2bcd n) = [0x01#8, n] ∧
    ∃ b : Byte, Completes (.dec2bcd n) s (.ok [b]) [] s.rf s.lastError 0 ∧
      b.toNat = (16 * (n.toNat / 10) + n.toNat % 10) % 256 ∧
      (n.toNat ≤ 99 → n.toNat = 10 * (b.toNat / 16) + b.toNat % 16)

/-- R88 with R86: BCD2DEC answers ten times the high nibble plus the low nibble; no transaction, no state. For a byte that is not valid
BCD the formula is the spec's decision D5 (log entry 17). -/
def Obligations.BcdToDecimalAnswersDigitSum : Prop :=
  ∀ (b : Byte) (s : State), encode (.bcd2dec b) = [0x02#8, b] ∧
    ∃ n : Byte, Completes (.bcd2dec b) s (.ok [n]) [] s.rf s.lastError 0 ∧ n.toNat = 10 * (b.toNat / 16) + b.toNat % 16

/-- R89: the two functions are inverse bijections between 0 to 99 and the valid BCD bytes; the direction from the bytes is the spec's own
inference ("The other direction holds on valid BCD"). -/
def Obligations.CodecRoundTrips : Prop :=
  (∀ n : Byte, n.toNat ≤ 99 → ValidBcd (dec2bcd n) ∧ bcd2dec (dec2bcd n) = n) ∧
    (∀ b : Byte, ValidBcd b → (bcd2dec b).toNat ≤ 99 ∧ dec2bcd (bcd2dec b) = b)

/-! ### Time -/

/-- R94: the seven fields from the seven bytes; three bits are dropped, the weekday is raw. For digits that are not valid BCD the formula
is the spec's decision D5 (log entry 17). -/
def Obligations.UnpackTimeDropsThreeBits : Prop :=
  ∀ d0 d1 d2 d3 d4 d5 d6 : Byte, ∀ t : CalendarTime, unpackTime [d0, d1, d2, d3, d4, d5, d6] = t →
    t.second.toNat = 10 * (d0.toNat % 128 / 16) + d0.toNat % 16 ∧
    t.minute.toNat = 10 * (d1.toNat / 16) + d1.toNat % 16 ∧
    t.hour.toNat = 10 * (8 * (d2.toNat / 128) + d2.toNat % 64 / 16) + d2.toNat % 16 ∧
    t.weekday = d3 ∧
    t.day.toNat = 10 * (d4.toNat / 16) + d4.toNat % 16 ∧
    t.month.toNat = 10 * (d5.toNat % 128 / 16) + d5.toNat % 16 ∧
    t.year.toNat = 2000 + (10 * (d6.toNat / 16) + d6.toNat % 16) ∧ t.year.toNat ≤ 2165

/-- R95: the seven bytes of a calendar time; the same three bits are written as 0. Outside the valid ranges the formulas are the spec's
decisions D4 and D6 (log entry 17). -/
def Obligations.PackTimeForcesThreeBitsToZero : Prop :=
  ∀ t : CalendarTime, ∃ v0 v1 v2 v3 v4 v5 v6 : Byte, packTime t = [v0, v1, v2, v3, v4, v5, v6] ∧
    v0.toNat = (16 * (t.second.toNat / 10) + t.second.toNat % 10) % 128 ∧
    v1.toNat = (16 * (t.minute.toNat / 10) + t.minute.toNat % 10) % 256 ∧
    v2 = dec2bcd t.hour &&& 0xBF#8 ∧ v2.getLsbD 6 = false ∧
    v3.toNat = (16 * (t.weekday.toNat / 10) + t.weekday.toNat % 10) % 256 ∧
    v4.toNat = (16 * (t.day.toNat / 10) + t.day.toNat % 10) % 256 ∧
    v5.toNat = (16 * (t.month.toNat / 10) + t.month.toNat % 10) % 128 ∧
    v6.toNat = (16 * ((t.year.toNat + 63536) % 256 / 10) + (t.year.toNat + 63536) % 256 % 10) % 256

/-- R100: for a time with valid fields and a weekday of 0 to 9, unpacking the packed bytes gives the time back, and WRTIME then RDTIME, both
succeeding, with no chip step on the time registers between them, answers it. That the weekday is 0 to 9 is the spec's own inference. -/
def Obligations.WriteTimeThenReadTimeReturnsTheTime : Prop :=
  ∀ t : CalendarTime, CalendarTime.Valid { t with weekday := 0x01#8 } → t.weekday.toNat ≤ 9 →
    unpackTime (packTime t) = t ∧
    ∀ (s : State) (g2 g3 g4 : List ChipStep) (gs : List (List ChipStep)) (d1 d2 d3 d4 : Answer) (rs : List Reply),
      s.rf.wf = true →
      s.resetIn = false → s.gaps = g2 :: g3 :: g4 :: gs →
      s.replies = .answers d1 :: .answers d2 :: .answers d3 :: .answers d4 :: rs →
      d1.Succeeds → d2.Succeeds → d3.Succeeds → d4.Succeeds →
      g2.all ChipStep.keepsTime = true → g3.all ChipStep.keepsTime = true → g4.all ChipStep.keepsTime = true →
      ∃ u v w, exec (.wrtime t) s = .next u ∧ steps 2 u = some v ∧ exec .rdtime v.afterGap = .next w ∧
        w.outbox = s.outbox ++ [.ok [], .ok ([t.second, t.minute, t.hour, t.weekday, t.day, t.month] ++ le16 t.year)]

/-- R101, the spec's own inference ("In the other direction"): packing what was unpacked gives the bytes back with the three bits
cleared, for valid BCD digits and a weekday below 10. -/
def Obligations.PackTimeOfUnpackTime : Prop :=
  ∀ d0 d1 d2 d3 d4 d5 d6 : Byte,
    ValidBcd (d0 &&& 0x7F#8) → ValidBcd d1 → ValidBcd (d2 &&& 0xBF#8) → d3.toNat ≤ 9 → ValidBcd d4 →
    ValidBcd (d5 &&& 0x7F#8) → ValidBcd d6 →
    packTime (unpackTime [d0, d1, d2, d3, d4, d5, d6]) = [d0 &&& 0x7F#8, d1, d2 &&& 0xBF#8, d3, d4, d5 &&& 0x7F#8, d6]

/-- R96: RDTIME answers the decoded time, or the failing leg's status, which it also leaves in `lastError`; the read leg is not started
when the address-select leg failed. -/
def Obligations.ReadTimeAnswersDecodedTimeOrStatus : Prop :=
  ∀ (s : State) (d : Answer) (rs : List Reply), s.replies = .answers d :: rs →
    encode .rdtime = [0x10#8] ∧
    (d.writeLeg ≠ 0x00#8 →
      Completes .rdtime s (.err d.writeLeg) [.write 0x00#8 [] d.writeLeg] s.rf d.writeLeg 1) ∧
    (d.writeLeg = 0x00#8 → d.readLeg ≠ 0x00#8 → ∃ drawn : List Byte, drawn.length = 7 ∧
      Completes .rdtime s (.err d.readLeg) [.write 0x00#8 [] 0x00#8, .read 7 drawn d.readLeg] s.rf d.readLeg 1) ∧
    (d.Succeeds → ∃ (bytes : List Byte) (t : CalendarTime), bytes = (List.range 7).map (Memory.read s.rf) ∧
      t = unpackTime bytes ∧
      Completes .rdtime s (.ok ([t.second, t.minute, t.hour, t.weekday, t.day, t.month] ++ le16 t.year))
        [.write 0x00#8 [] 0x00#8, .read 7 bytes 0x00#8] s.rf s.lastError 1)

/-- R97: WRTIME writes the seven bytes, then reads STATUS and writes it back with bit 7 cleared, whatever the time write answered; it
reports the time write's status only. The status transactions succeed here. -/
def Obligations.WriteTimeWritesThenClearsOsf : Prop :=
  ∀ (t : CalendarTime) (s : State) (g2 g3 : List ChipStep) (gs : List (List ChipStep))
    (d1 d2 d3 : Answer) (rs : List Reply) (m1 m2 m3 : Memory) (b : Byte),
    s.resetIn = false → s.gaps = g2 :: g3 :: gs →
    s.replies = .answers d1 :: .answers d2 :: .answers d3 :: rs → d2.Succeeds → d3.Succeeds → s.rf.wf = true →
    m1 = Memory.writeRun s.rf 0x00
      (if d1.writeLeg = 0x00#8 then packTime t else (packTime t).take d1.stored) →
    m2 = chipSteps g2 m1 → b = Memory.read m2 0x0F → m3 = Memory.write (chipSteps g3 m2) 0x0F (b &&& 0x7F#8) →
    Completes (.wrtime t) s (if d1.writeLeg = 0x00#8 then .ok [] else .err d1.writeLeg)
      [.write 0x00#8 (packTime t) d1.writeLeg, .write 0x0F#8 [] 0x00#8, .read 1 [b] 0x00#8, .write 0x0F#8 [b &&& 0x7F#8] 0x00#8]
      m3 s.lastError 3 ∧
    (Memory.read m3 0x0F).getLsbD 7 = false ∧ (∀ i < 7, (Memory.read m3 0x0F).getLsbD i = b.getLsbD i) ∧
    encode (.wrtime t) = [0x11#8, t.second, t.minute, t.hour, t.weekday, t.day, t.month] ++ le16 t.year

/-- R97 with R104, whatever any of the three transactions answers: the 7-byte write, the read of STATUS and its write with bit 7 clear are
issued in this order, each with its effect, and only the first one's status is reported; `lastError` stays. -/
def Obligations.ClearOsfWritesWhateverItsReadAnswered : Prop :=
  ∀ (t : CalendarTime) (s : State) (g2 g3 : List ChipStep) (gs : List (List ChipStep))
    (d1 d2 d3 : Answer) (rs : List Reply) (m1 m2 : Memory),
    s.resetIn = false → s.gaps = g2 :: g3 :: gs → s.replies = .answers d1 :: .answers d2 :: .answers d3 :: rs →
    m1 = Memory.writeRun s.rf 0x00
      (if d1.writeLeg = 0x00#8 then packTime t else (packTime t).take d1.stored) →
    m2 = chipSteps g2 m1 →
    ∃ (b : Byte) (legs : List Event), ReadReturns m2 0x0F#8 d2 b legs ∧
      Completes (.wrtime t) s (if d1.writeLeg = 0x00#8 then .ok [] else .err d1.writeLeg)
        ([.write 0x00#8 (packTime t) d1.writeLeg] ++ legs ++ [.write 0x0F#8 [b &&& 0x7F#8] d3.writeLeg])
        (storeByte (chipSteps g3 m2) 0x0F (b &&& 0x7F#8) d3) s.lastError 3

/-- R98: GETEPOCH answers the converted time, and the sentinel 0 with `ok` on a failed read, leaving the failing leg's status in
`lastError`. -/
def Obligations.GetEpochAnswersConversionOrSentinel : Prop :=
  ∀ (s : State) (d : Answer) (rs : List Reply), s.replies = .answers d :: rs →
    encode .getepoch = [0x12#8] ∧
    (d.writeLeg ≠ 0x00#8 →
      Completes .getepoch s (.ok [0x00#8, 0x00#8, 0x00#8, 0x00#8]) [.write 0x00#8 [] d.writeLeg] s.rf d.writeLeg 1) ∧
    (d.writeLeg = 0x00#8 → d.readLeg ≠ 0x00#8 → ∃ drawn : List Byte, drawn.length = 7 ∧
      Completes .getepoch s (.ok [0x00#8, 0x00#8, 0x00#8, 0x00#8]) [.write 0x00#8 [] 0x00#8, .read 7 drawn d.readLeg]
        s.rf d.readLeg 1) ∧
    (d.Succeeds → ∃ bytes : List Byte, bytes = (List.range 7).map (Memory.read s.rf) ∧
      Completes .getepoch s (.ok (le32 (Config.calToEpoch (unpackTime bytes))))
        [.write 0x00#8 [] 0x00#8, .read 7 bytes 0x00#8] s.rf s.lastError 1)

/-- R99: SETEPOCH is WRTIME of the converted time, in every state: the same transactions, effects and response, whatever any of the three
transactions answers. -/
def Obligations.SetEpochWritesTheConvertedTime : Prop :=
  ∀ (e : Word) (s : State), exec (.setepoch e) s = exec (.wrtime (Config.epochToCal e)) s ∧ encode (.setepoch e) = 0x13#8 :: le32 e ∧
    ∀ (g2 g3 : List ChipStep) (gs : List (List ChipStep)) (d1 d2 d3 : Answer) (rs : List Reply) (v : List Byte) (m1 m2 : Memory),
      s.resetIn = false → s.gaps = g2 :: g3 :: gs → s.replies = .answers d1 :: .answers d2 :: .answers d3 :: rs →
      v = packTime (Config.epochToCal e) →
      m1 = Memory.writeRun s.rf 0x00 (if d1.writeLeg = 0x00#8 then v else v.take d1.stored) → m2 = chipSteps g2 m1 →
      ∃ (b : Byte) (legs : List Event), ReadReturns m2 0x0F#8 d2 b legs ∧
        Completes (.setepoch e) s (if d1.writeLeg = 0x00#8 then .ok [] else .err d1.writeLeg)
          ([.write 0x00#8 v d1.writeLeg] ++ legs ++ [.write 0x0F#8 [b &&& 0x7F#8] d3.writeLeg])
          (storeByte (chipSteps g3 m2) 0x0F (b &&& 0x7F#8) d3) s.lastError 3

/-! ### Raw access -/

/-- R105, R46, for 1 to 31 bytes inside the chip: one write leg; on success all bytes are stored and nothing else is changed, on failure
the first so many as the draw says. Opcode 0x20, with the length in byte 2 (R82). -/
def Obligations.WriteBlockStoresItsRun : Prop :=
  ∀ (addr : Byte) (data : List Byte) (s : State) (d : Answer) (rs : List Reply) (m' : Memory),
    s.replies = .answers d :: rs → 1 ≤ data.length → data.length ≤ 31 → InChip s addr data.length → s.rf.wf = true →
    m' = Memory.writeRun s.rf addr.toNat (if d.writeLeg = 0x00#8 then data else data.take d.stored) →
    encode (.wrblk addr data) = 0x20#8 :: addr :: BitVec.ofNat 8 data.length :: data ∧
    Completes (.wrblk addr data) s (if d.writeLeg = 0x00#8 then .ok [] else .err d.writeLeg) [.write addr data d.writeLeg] m'
      s.lastError 1 ∧
    (∀ x, x < addr.toNat ∨ addr.toNat + data.length ≤ x → Memory.read m' x = Memory.read s.rf x) ∧
    (d.writeLeg = 0x00#8 → ∀ (i : Nat) (b : Byte), data[i]? = some b → Memory.read m' (addr.toNat + i) = b) ∧
    (d.writeLeg ≠ 0x00#8 → ∀ (i : Nat) (b : Byte), data[i]? = some b →
      Memory.read m' (addr.toNat + i) = if i < d.stored then b else Memory.read s.rf (addr.toNat + i))

/-- R49, R48 constraint 1: a block beyond the transport's limit is still one transaction with all its bytes, and always fails: WRBLK of 32
to 255 bytes and RDBLK of 33 to 255 bytes answer `err` with a non-zero status, the select leg's and no read leg when that leg failed. The
limits are those of log entry 16. -/
def Obligations.OverLengthBlocksFail : Prop :=
  ∀ (addr : Byte) (s : State) (d : Answer) (rs : List Reply), s.replies = .answers d :: rs →
    (∀ data : List Byte, 32 ≤ data.length → data.length ≤ 255 → InChip s addr data.length → ∃ st : Byte, st ≠ 0x00#8 ∧
      Completes (.wrblk addr data) s (.err st) [.write addr data st]
        (Memory.writeRun s.rf addr.toNat (data.take d.stored)) s.lastError 1) ∧
    (∀ count : Byte, 33 ≤ count.toNat → InChip s addr count.toNat → d.writeLeg = 0x00#8 → ∃ (st : Byte) (drawn : List Byte),
      st ≠ 0x00#8 ∧ drawn.length = count.toNat ∧
      Completes (.rdblk addr count) s (.err st) [.write addr [] 0x00#8, .read count.toNat drawn st] s.rf s.lastError 1) ∧
    (∀ count : Byte, 33 ≤ count.toNat → InChip s addr count.toNat → d.writeLeg ≠ 0x00#8 →
      Completes (.rdblk addr count) s (.err d.writeLeg) [.write addr [] d.writeLeg] s.rf s.lastError 1)

/-- R106, for 1 to 32 bytes inside the chip: the bytes at ascending offsets, or the failing leg's status with no data and no read leg
after a failed address-select leg; `lastError` and the register file are not written. Opcode 0x21. -/
def Obligations.ReadBlockAnswersItsRun : Prop :=
  ∀ (addr count : Byte) (s : State) (d : Answer) (rs : List Reply),
    s.replies = .answers d :: rs → 1 ≤ count.toNat → count.toNat ≤ 32 → InChip s addr count.toNat →
    encode (.rdblk addr count) = [0x21#8, addr, count] ∧
    (d.writeLeg ≠ 0x00#8 →
      Completes (.rdblk addr count) s (.err d.writeLeg) [.write addr [] d.writeLeg] s.rf s.lastError 1) ∧
    (d.writeLeg = 0x00#8 → d.readLeg ≠ 0x00#8 → ∃ drawn : List Byte, drawn.length = count.toNat ∧
      Completes (.rdblk addr count) s (.err d.readLeg) [.write addr [] 0x00#8, .read count.toNat drawn d.readLeg]
        s.rf s.lastError 1) ∧
    (d.Succeeds → ∃ bytes : List Byte,
      bytes = (List.range count.toNat).map (fun i => Memory.read s.rf (addr.toNat + i)) ∧
      Completes (.rdblk addr count) s (.ok bytes) [.write addr [] 0x00#8, .read count.toNat bytes 0x00#8]
        s.rf s.lastError 1)

/-- R107: WRBYTE, opcode 0x22, is WRBLK of its one byte in every respect; it completes. -/
def Obligations.WriteByteStoresItsByte : Prop :=
  ∀ (addr value : Byte) (s : State), encode (.wrbyte addr value) = [0x22#8, addr, value] ∧
    exec (.wrbyte addr value) s = exec (.wrblk addr [value]) s ∧
    ∀ (d : Answer) (rs : List Reply), s.replies = .answers d :: rs → InChip s addr 1 →
      (d.writeLeg = 0x00#8 → Completes (.wrbyte addr value) s (.ok []) [.write addr [value] 0x00#8]
        (Memory.write s.rf addr.toNat value) s.lastError 1) ∧
      (d.writeLeg ≠ 0x00#8 → Completes (.wrbyte addr value) s (.err d.writeLeg) [.write addr [value] d.writeLeg]
        (if d.stored = 0 then s.rf else Memory.write s.rf addr.toNat value) s.lastError 1)

/-- R108: RDBYTE, opcode 0x23, is RDBLK of one byte in every respect; it completes, and reports a failed leg. -/
def Obligations.ReadByteAnswersItsByte : Prop :=
  ∀ (addr : Byte) (s : State), encode (.rdbyte addr) = [0x23#8, addr] ∧ exec (.rdbyte addr) s = exec (.rdblk addr 0x01#8) s ∧
    ∀ (d : Answer) (rs : List Reply), s.replies = .answers d :: rs → InChip s addr 1 →
      (d.writeLeg ≠ 0x00#8 →
        Completes (.rdbyte addr) s (.err d.writeLeg) [.write addr [] d.writeLeg] s.rf s.lastError 1) ∧
      (d.writeLeg = 0x00#8 → d.readLeg ≠ 0x00#8 → ∃ drawn : Byte,
        Completes (.rdbyte addr) s (.err d.readLeg) [.write addr [] 0x00#8, .read 1 [drawn] d.readLeg] s.rf
          s.lastError 1) ∧
      (d.Succeeds → ∃ b : Byte, b = Memory.read s.rf addr.toNat ∧
        Completes (.rdbyte addr) s (.ok [b]) [.write addr [] 0x00#8, .read 1 [b] 0x00#8] s.rf s.lastError 1)

/-- R50, R29, R168: a command is refused exactly when it is a legal raw access whose run passes 0xFF, or passes RAM_TOP. That RAM_TOP
below 0x14 counts as 0x14 is the model's reading of R6 (log entry 3). -/
def Obligations.RefusedExactlyOutsideTheChip : Prop :=
  ∀ (i : Instr) (s : State) (r : Refusal), exec i s = .refused r ↔
    i.wellFormed = true ∧ ∃ (addr : Byte) (n : Nat), i.rawRun = some (addr, n) ∧
      ((256 < addr.toNat + n ∧ r = .runPastTop) ∨ (addr.toNat + n ≤ 256 ∧ ¬ InChip s addr n ∧ r = .aboveRamTop))

/-- R110, the spec's own inference: in the general-purpose memory a block that was written is read back, whatever the Chip does between. -/
def Obligations.WriteBlockThenReadBlockReturnsTheData : Prop :=
  ∀ (addr : Byte) (data : List Byte) (s : State) (d1 d2 : Answer) (rs : List Reply),
    s.rf.wf = true → s.replies = .answers d1 :: .answers d2 :: rs → d1.Succeeds → d2.Succeeds →
    1 ≤ data.length → data.length ≤ 31 → 0x14 ≤ addr.toNat → InChip s addr data.length →
    ∃ u v, exec (.wrblk addr data) s = .next u ∧ exec (.rdblk addr (BitVec.ofNat 8 data.length)) u.afterGap = .next v ∧
      v.outbox = s.outbox ++ [.ok [], .ok data]

/-! ### Alarms -/

/-- R114, R113: SETALM of each of the eleven types writes its four or three packed bytes in one transaction and answers `ok` whatever the
write answered. The type codes are the spec's decision D8, in part its general knowledge (R70; log entry 18). -/
def Obligations.SetAlarmWritesPackedRegisters : Prop :=
  ∀ (ty sec m h d : Byte) (s : State) (a : Answer) (rs : List Reply) (bs bm bh bd : Byte)
    (off : Byte) (v : List Byte),
    ty ∈ [0x00#8, 0x01#8, 0x03#8, 0x07#8, 0x0F#8, 0x1F#8, 0x80#8, 0x82#8, 0x86#8, 0x8E#8, 0x9E#8] →
    s.replies = .answers a :: rs →
    bs = dec2bcd sec ||| (if ty.getLsbD 0 then 0x80#8 else 0x00#8) →
    bm = dec2bcd m ||| (if ty.getLsbD 1 then 0x80#8 else 0x00#8) →
    bh = dec2bcd h ||| (if ty.getLsbD 2 then 0x80#8 else 0x00#8) →
    bd = dec2bcd d ||| (if ty.getLsbD 3 then 0x80#8 else 0x00#8) ||| (if ty.getLsbD 4 then 0x40#8 else 0x00#8) →
    off = (if ty.getLsbD 7 then 0x0B#8 else 0x07#8) →
    v = (if ty.getLsbD 7 then [bm, bh, bd] else [bs, bm, bh, bd]) →
    encode (.setalm ty sec m h d) = [0x30#8, ty, sec, m, h, d] ∧
    Completes (.setalm ty sec m h d) s (.ok []) [.write off v a.writeLeg]
      (Memory.writeRun s.rf off.toNat (if a.writeLeg = 0x00#8 then v else v.take a.stored)) s.lastError 1

/-- R115: SETALM3 is SETALM with the seconds forced to zero: the same transaction, state and response, for each of the eleven types (R70;
log entry 18). -/
def Obligations.SetAlarmThreeWritesZeroSeconds : Prop :=
  ∀ (ty m h d : Byte) (s : State) (a : Answer) (rs : List Reply) (bs bm bh bd : Byte)
    (off : Byte) (v : List Byte),
    ty ∈ [0x00#8, 0x01#8, 0x03#8, 0x07#8, 0x0F#8, 0x1F#8, 0x80#8, 0x82#8, 0x86#8, 0x8E#8, 0x9E#8] →
    s.replies = .answers a :: rs →
    bs = (if ty.getLsbD 0 then 0x80#8 else 0x00#8) →
    bm = dec2bcd m ||| (if ty.getLsbD 1 then 0x80#8 else 0x00#8) →
    bh = dec2bcd h ||| (if ty.getLsbD 2 then 0x80#8 else 0x00#8) →
    bd = dec2bcd d ||| (if ty.getLsbD 3 then 0x80#8 else 0x00#8) ||| (if ty.getLsbD 4 then 0x40#8 else 0x00#8) →
    off = (if ty.getLsbD 7 then 0x0B#8 else 0x07#8) →
    v = (if ty.getLsbD 7 then [bm, bh, bd] else [bs, bm, bh, bd]) →
    encode (.setalm3 ty m h d) = [0x31#8, ty, m, h, d] ∧
    exec (.setalm3 ty m h d) s = exec (.setalm ty 0x00#8 m h d) s ∧
    Completes (.setalm3 ty m h d) s (.ok []) [.write off v a.writeLeg]
      (Memory.writeRun s.rf off.toNat (if a.writeLeg = 0x00#8 then v else v.take a.stored)) s.lastError 1

/-- R123: after a successful SETALM of ALM1_MATCH_SECONDS with valid operands, the raw alarm-1 registers have the seconds mask bit set
and the other mask bits and DY/DT clear. -/
def Obligations.MatchSecondsSetsOnlyTheSecondsMask : Prop :=
  ∀ (sec m h d : Byte) (s : State) (a : Answer) (rs : List Reply),
    s.rf.wf = true → s.replies = .answers a :: rs → a.Succeeds → sec.toNat ≤ 59 → m.toNat ≤ 59 → h.toNat ≤ 23 → d.toNat ≤ 31 →
    ∃ t, exec (.setalm 0x01#8 sec m h d) s = .next t ∧
      (Memory.read t.rf 0x07).getLsbD 7 = true ∧ (Memory.read t.rf 0x08).getLsbD 7 = false ∧
      (Memory.read t.rf 0x09).getLsbD 7 = false ∧ (Memory.read t.rf 0x0A).getLsbD 7 = false ∧
      (Memory.read t.rf 0x0A).getLsbD 6 = false

/-- R113 with R90, the spec's own inference from R90: for valid operands the mask and selector bits of the packed bytes are exactly the
type's. That the digits decode back is R90's, derived there from R85 and R86. -/
def Obligations.AlarmBytesCarryTypeAndDigits : Prop :=
  ∀ (ty : AlarmType) (sec m h d : Byte), sec.toNat ≤ 59 → m.toNat ≤ 59 → h.toNat ≤ 23 → d.toNat ≤ 31 →
    ∃ bm bh bd : Byte,
      ((ty.code.getLsbD 7 = true ∧ packAlarm ty sec m h d = (0x0B#8, [bm, bh, bd])) ∨
        (ty.code.getLsbD 7 = false ∧ ∃ bs : Byte, packAlarm ty sec m h d = (0x07#8, [bs, bm, bh, bd]) ∧
          bs.getLsbD 7 = ty.code.getLsbD 0 ∧ bcd2dec (bs &&& 0x7F#8) = sec)) ∧
      bm.getLsbD 7 = ty.code.getLsbD 1 ∧ bcd2dec (bm &&& 0x7F#8) = m ∧
      bh.getLsbD 7 = ty.code.getLsbD 2 ∧ bcd2dec (bh &&& 0x7F#8) = h ∧
      bd.getLsbD 7 = ty.code.getLsbD 3 ∧ bd.getLsbD 6 = ty.code.getLsbD 4 ∧ bcd2dec (bd &&& 0x3F#8) = d

/-- R116: ALMIE reads CONTROL and always writes it back with the selected enable bit as asked and the seven other bits as read. -/
def Obligations.AlarmInterruptEnableChangesOneBit : Prop :=
  ∀ (which enabled : Byte) (s : State) (g : List ChipStep) (gs : List (List ChipStep)) (d1 d2 : Answer) (rs : List Reply) (b : Byte),
    which = 0x01#8 ∨ which = 0x02#8 → enabled = 0x00#8 ∨ enabled = 0x01#8 →
    s.resetIn = false → s.gaps = g :: gs → s.replies = .answers d1 :: .answers d2 :: rs → d1.Succeeds → d2.Succeeds →
    b = Memory.read s.rf 0x0E →
    encode (.almie which enabled) = [0x32#8, which, enabled] ∧
    ∃ b' : Byte, Completes (.almie which enabled) s (.ok [])
        [.write 0x0E#8 [] 0x00#8, .read 1 [b] 0x00#8, .write 0x0E#8 [b'] 0x00#8]
        (Memory.write (chipSteps g s.rf) 0x0E b') s.lastError 2 ∧
      b'.getLsbD (which.toNat - 1) = (enabled == 0x01#8) ∧ ∀ i, i ≠ which.toNat - 1 → b'.getLsbD i = b.getLsbD i

/-- R118: ALMPEEK answers the selected flag of STATUS by one read and writes nothing. -/
def Obligations.AlarmPeekAnswersTheFlag : Prop :=
  ∀ (which : Byte) (s : State) (d : Answer) (rs : List Reply) (b : Byte),
    which = 0x01#8 ∨ which = 0x02#8 → s.replies = .answers d :: rs → d.Succeeds → b = Memory.read s.rf 0x0F →
    encode (.almpeek which) = [0x34#8, which] ∧
    Completes (.almpeek which) s (.ok [if b.getLsbD (which.toNat - 1) then 0x01#8 else 0x00#8])
      [.write 0x0F#8 [] 0x00#8, .read 1 [b] 0x00#8] s.rf s.lastError 1

/-- R119: ALMCONSUME with its flag clear answers false after the read alone; with its flag set it writes the byte just read back with
only that bit cleared, over whatever the Chip changed in between, and answers true. -/
def Obligations.AlarmConsumeClearsTheFlagItRead : Prop :=
  ∀ (which : Byte) (s : State) (g : List ChipStep) (gs : List (List ChipStep)) (d1 d2 : Answer) (rs : List Reply) (b : Byte),
    which = 0x01#8 ∨ which = 0x02#8 → s.resetIn = false → s.gaps = g :: gs →
    s.replies = .answers d1 :: .answers d2 :: rs → d1.Succeeds → d2.Succeeds →
    b = Memory.read s.rf 0x0F →
    encode (.almconsume which) = [0x33#8, which] ∧
    (b.getLsbD (which.toNat - 1) = false →
      Completes (.almconsume which) s (.ok [0x00#8]) [.write 0x0F#8 [] 0x00#8, .read 1 [b] 0x00#8] s.rf
        s.lastError 1) ∧
    (b.getLsbD (which.toNat - 1) = true → ∃ b' : Byte,
      Completes (.almconsume which) s (.ok [0x01#8])
        [.write 0x0F#8 [] 0x00#8, .read 1 [b] 0x00#8, .write 0x0F#8 [b'] 0x00#8]
        (Memory.write (chipSteps g s.rf) 0x0F b') s.lastError 2 ∧
      b'.getLsbD (which.toNat - 1) = false ∧ ∀ i, i ≠ which.toNat - 1 → b'.getLsbD i = b.getLsbD i)

/-- R120: ALMCLEAR has the same effects, transactions and result as ALMCONSUME, under its own opcode. -/
def Obligations.AlarmClearClearsTheFlagItRead : Prop :=
  ∀ (which : Byte) (s : State) (g : List ChipStep) (gs : List (List ChipStep)) (d1 d2 : Answer) (rs : List Reply) (b : Byte),
    which = 0x01#8 ∨ which = 0x02#8 → s.resetIn = false → s.gaps = g :: gs →
    s.replies = .answers d1 :: .answers d2 :: rs → d1.Succeeds → d2.Succeeds →
    b = Memory.read s.rf 0x0F →
    encode (.almclear which) = [0x35#8, which] ∧
    (b.getLsbD (which.toNat - 1) = false →
      Completes (.almclear which) s (.ok [0x00#8]) [.write 0x0F#8 [] 0x00#8, .read 1 [b] 0x00#8] s.rf
        s.lastError 1) ∧
    (b.getLsbD (which.toNat - 1) = true → ∃ b' : Byte,
      Completes (.almclear which) s (.ok [0x01#8])
        [.write 0x0F#8 [] 0x00#8, .read 1 [b] 0x00#8, .write 0x0F#8 [b'] 0x00#8]
        (Memory.write (chipSteps g s.rf) 0x0F b') s.lastError 2 ∧
      b'.getLsbD (which.toNat - 1) = false ∧ ∀ i, i ≠ which.toNat - 1 → b'.getLsbD i = b.getLsbD i)

/-- R121, the spec's own inference: of two ALMCONSUME commands with no chip step on STATUS after the first one's read, the first answers
true when the flag was set, and the second answers false and writes nothing. -/
def Obligations.ConsumeAnswersTrueOncePerMatch : Prop :=
  ∀ (which : Byte) (s : State) (g2 g3 : List ChipStep) (gs : List (List ChipStep)) (d1 d2 d3 : Answer) (rs : List Reply),
    which = 0x01#8 ∨ which = 0x02#8 → s.rf.wf = true →
    s.resetIn = false → s.gaps = g2 :: g3 :: gs → s.replies = .answers d1 :: .answers d2 :: .answers d3 :: rs →
    d1.Succeeds → d2.Succeeds → d3.Succeeds → g2.all ChipStep.keepsStatus = true → g3.all ChipStep.keepsStatus = true →
    (Memory.read s.rf 0x0F).getLsbD (which.toNat - 1) = true →
    ∃ u v w, exec (.almconsume which) s = .next u ∧ steps 1 u = some v ∧ exec (.almconsume which) v.afterGap = .next w ∧
      w.busy = none ∧ w.outbox = s.outbox ++ [.ok [0x01#8], .ok [0x00#8]] ∧
      w.trace.length = v.trace.length + 2 ∧ Memory.read w.rf 0x0F = Memory.read v.rf 0x0F

/-- R122, R124, R162, the spec's own inferences: a match the Chip signals between the read and the write of ALMCONSUME is overwritten, for
either alarm: the flags afterwards are those of the byte read with the consumed one cleared, whatever the Chip did in the gap. -/
def Obligations.MatchInTheConsumeWindowIsLost : Prop :=
  ∀ (which : Byte) (s : State) (g : List ChipStep) (gs : List (List ChipStep)) (d1 d2 : Answer) (rs : List Reply) (b : Byte),
    which = 0x01#8 ∨ which = 0x02#8 → s.rf.wf = true →
    s.resetIn = false → s.gaps = g :: gs → s.replies = .answers d1 :: .answers d2 :: rs → d1.Succeeds → d2.Succeeds →
    b = Memory.read s.rf 0x0F → b.getLsbD (which.toNat - 1) = true →
    ∃ u t, exec (.almconsume which) s = .next u ∧ steps 1 u = some t ∧ t.outbox = s.outbox ++ [.ok [0x01#8]] ∧
      (Memory.read t.rf 0x0F).getLsbD (which.toNat - 1) = false ∧
      ∀ i, i ≠ which.toNat - 1 → (Memory.read t.rf 0x0F).getLsbD i = b.getLsbD i

/-! ### Auxiliary controls -/

/-- R128: SQWSET with a frequency clears INTCN and writes the rate bits, SQW_DISABLED sets INTCN; every other bit of CONTROL is written
back as read, and the write is always issued. -/
def Obligations.SquareWaveSetsRateOrInterruptControl : Prop :=
  ∀ (freq : Byte) (s : State) (g : List ChipStep) (gs : List (List ChipStep)) (d1 d2 : Answer) (rs : List Reply) (b : Byte),
    freq.toNat ≤ 4 → s.resetIn = false → s.gaps = g :: gs → s.replies = .answers d1 :: .answers d2 :: rs → d1.Succeeds → d2.Succeeds →
    b = Memory.read s.rf 0x0E →
    encode (.sqwset freq) = [0x40#8, freq] ∧
    ∃ b' : Byte, Completes (.sqwset freq) s (.ok [])
        [.write 0x0E#8 [] 0x00#8, .read 1 [b] 0x00#8, .write 0x0E#8 [b'] 0x00#8]
        (Memory.write (chipSteps g s.rf) 0x0E b') s.lastError 2 ∧
      b'.getLsbD 2 = (freq == 0x04#8) ∧
      (freq ≠ 0x04#8 → b'.getLsbD 3 = freq.getLsbD 0 ∧ b'.getLsbD 4 = freq.getLsbD 1) ∧
      (freq = 0x04#8 → b'.getLsbD 3 = b.getLsbD 3 ∧ b'.getLsbD 4 = b.getLsbD 4) ∧
      ∀ i, i ≠ 2 → i ≠ 3 → i ≠ 4 → b'.getLsbD i = b.getLsbD i

/-- R133, the spec's own inference: SQWSET and ALMIE commute on CONTROL: with every transaction succeeding and no chip step, either order
leaves the same byte. -/
def Obligations.SquareWaveAndAlarmEnableCommute : Prop :=
  ∀ (freq which enabled : Byte) (s : State) (d1 d2 d3 d4 : Answer) (gs : List (List ChipStep)) (rs : List Reply),
    freq.toNat ≤ 4 → which = 0x01#8 ∨ which = 0x02#8 → enabled = 0x00#8 ∨ enabled = 0x01#8 → s.rf.wf = true →
    s.resetIn = false → s.gaps = [] :: [] :: [] :: gs → s.replies = .answers d1 :: .answers d2 :: .answers d3 :: .answers d4 :: rs →
    d1.Succeeds → d2.Succeeds → d3.Succeeds → d4.Succeeds →
    ∃ u v w x u' v' w' x', exec (.sqwset freq) s = .next u ∧ steps 1 u = some v ∧
      exec (.almie which enabled) v.afterGap = .next w ∧ steps 1 w = some x ∧
      exec (.almie which enabled) s = .next u' ∧ steps 1 u' = some v' ∧
      exec (.sqwset freq) v'.afterGap = .next w' ∧ steps 1 w' = some x' ∧
      x.busy = none ∧ x'.busy = none ∧ Memory.read x.rf 0x0E = Memory.read x'.rf 0x0E

/-- R129: OSCSTOP answers OSF as read; it writes STATUS back, with only bit 7 cleared, exactly when OSF was read as 1 and `clear` is
true. -/
def Obligations.OscillatorStoppedAnswersAndClears : Prop :=
  ∀ (clear : Byte) (s : State) (g : List ChipStep) (gs : List (List ChipStep)) (d1 d2 : Answer) (rs : List Reply) (b : Byte),
    clear = 0x00#8 ∨ clear = 0x01#8 → s.resetIn = false → s.gaps = g :: gs →
    s.replies = .answers d1 :: .answers d2 :: rs → d1.Succeeds → d2.Succeeds →
    b = Memory.read s.rf 0x0F →
    encode (.oscstop clear) = [0x41#8, clear] ∧
    (b.getLsbD 7 = false ∨ clear = 0x00#8 →
      Completes (.oscstop clear) s (.ok [if b.getLsbD 7 then 0x01#8 else 0x00#8]) [.write 0x0F#8 [] 0x00#8, .read 1 [b] 0x00#8]
        s.rf s.lastError 1) ∧
    (b.getLsbD 7 = true → clear = 0x01#8 → ∃ b' : Byte,
      Completes (.oscstop clear) s (.ok [0x01#8]) [.write 0x0F#8 [] 0x00#8, .read 1 [b] 0x00#8, .write 0x0F#8 [b'] 0x00#8]
        (Memory.write (chipSteps g s.rf) 0x0F b') s.lastError 2 ∧
      b'.getLsbD 7 = false ∧ ∀ i, i ≠ 7 → b'.getLsbD i = b.getLsbD i)

/-- R131, R130, R135: TEMP reads 0x12, then 0x11, and answers the quarter degrees, four times the signed upper byte plus the top two bits
of the lower byte, low byte first; the Chip may change the registers between the two reads. R135 is the spec's own inference from R130. -/
def Obligations.TemperatureAnswersQuarterDegrees : Prop :=
  ∀ (s : State) (g : List ChipStep) (gs : List (List ChipStep)) (d1 d2 : Answer) (rs : List Reply) (lsb msb : Byte),
    s.resetIn = false → s.gaps = g :: gs → s.replies = .answers d1 :: .answers d2 :: rs → d1.Succeeds → d2.Succeeds →
    lsb = Memory.read s.rf 0x12 → msb = Memory.read (chipSteps g s.rf) 0x11 →
    encode .temp = [0x42#8] ∧
    ∃ q : Half, Completes .temp s (.ok (le16 q))
        [.write 0x12#8 [] 0x00#8, .read 1 [lsb] 0x00#8, .write 0x11#8 [] 0x00#8, .read 1 [msb] 0x00#8]
        (chipSteps g s.rf) s.lastError 2 ∧
      q.toInt = 4 * msb.toInt + (lsb.toNat / 64 : Nat) ∧ -512 ≤ q.toInt ∧ q.toInt ≤ 511

/-- R144, R163: whatever the transactions answer, the commands that report no status go on with the byte `b` the read returned, the
register's when both its legs answered 0: it decides the result, whether a write follows, and what is written back. -/
def Obligations.UnreportedFailuresGoOnWithTheReturnedByte : Prop :=
  ∀ (s : State) (g : List ChipStep) (gs : List (List ChipStep)) (d1 d2 : Answer) (rs : List Reply) (m1 m2 : Memory),
    s.resetIn = false → s.gaps = g :: gs → s.replies = .answers d1 :: .answers d2 :: rs → m1 = s.rf → m2 = chipSteps g m1 →
    (∀ (f : Byte), f.toNat ≤ 4 → ∃ (b b' : Byte) (legs : List Event), ReadReturns m1 0x0E#8 d1 b legs ∧
      b' = (if f = 0x04#8 then b ||| 0x04#8 else (b &&& 0xE3#8) ||| (f <<< 3)) ∧
      Completes (.sqwset f) s (.ok []) (legs ++ [.write 0x0E#8 [b'] d2.writeLeg]) (storeByte m2 0x0E b' d2) s.lastError 2) ∧
    (∀ (which k : Byte), which = 0x01#8 ∧ k = 0x01#8 ∨ which = 0x02#8 ∧ k = 0x02#8 →
      (∀ e : Byte, e = 0x00#8 ∨ e = 0x01#8 → ∃ (b b' : Byte) (legs : List Event), ReadReturns m1 0x0E#8 d1 b legs ∧
        b' = (if e = 0x01#8 then b ||| k else b &&& ~~~k) ∧
        Completes (.almie which e) s (.ok []) (legs ++ [.write 0x0E#8 [b'] d2.writeLeg]) (storeByte m2 0x0E b' d2) s.lastError 2) ∧
      (∃ (b : Byte) (legs : List Event), ReadReturns m1 0x0F#8 d1 b legs ∧
        Completes (.almpeek which) s (.ok [if b &&& k = 0x00#8 then 0x00#8 else 0x01#8]) legs m1 s.lastError 1) ∧
      (∀ i : Instr, i = .almconsume which ∨ i = .almclear which → ∃ (b : Byte) (legs : List Event), ReadReturns m1 0x0F#8 d1 b legs ∧
        (b &&& k = 0x00#8 → Completes i s (.ok [0x00#8]) legs m1 s.lastError 1) ∧
        (b &&& k ≠ 0x00#8 → Completes i s (.ok [0x01#8]) (legs ++ [.write 0x0F#8 [b &&& ~~~k] d2.writeLeg])
          (storeByte m2 0x0F (b &&& ~~~k) d2) s.lastError 2))) ∧
    (∀ e : Byte, e = 0x00#8 ∨ e = 0x01#8 → ∃ (b : Byte) (legs : List Event), ReadReturns m1 0x0F#8 d1 b legs ∧
      (b &&& 0x80#8 = 0x00#8 → Completes (.oscstop e) s (.ok [0x00#8]) legs m1 s.lastError 1) ∧
      (b &&& 0x80#8 ≠ 0x00#8 → e = 0x00#8 → Completes (.oscstop e) s (.ok [0x01#8]) legs m1 s.lastError 1) ∧
      (b &&& 0x80#8 ≠ 0x00#8 → e = 0x01#8 → Completes (.oscstop e) s (.ok [0x01#8]) (legs ++ [.write 0x0F#8 [b &&& 0x7F#8] d2.writeLeg])
        (storeByte m2 0x0F (b &&& 0x7F#8) d2) s.lastError 2)) ∧
    (∃ (lsb msb : Byte) (legs1 legs2 : List Event), ReadReturns m1 0x12#8 d1 lsb legs1 ∧ ReadReturns m2 0x11#8 d2 msb legs2 ∧
      Completes .temp s (.ok (le16 (unpackTemp msb lsb))) (legs1 ++ legs2) m2 s.lastError 2)

/-- R132: GETERR answers `lastError` and changes nothing: after a failed RDTIME it answers that failure's status, and asking does not
clear it. -/
def Obligations.GetErrAnswersTheLastTimeReadFailure : Prop :=
  (∀ s : State, encode .geterr = [0x43#8] ∧ Completes .geterr s (.ok [s.lastError]) [] s.rf s.lastError 0) ∧
  ∀ (s : State) (d : Answer) (rs : List Reply), s.replies = .answers d :: rs → d.writeLeg ≠ 0x00#8 →
    ∃ u v w, exec .rdtime s = .next u ∧ exec .geterr u.afterGap = .next v ∧ exec .geterr v.afterGap = .next w ∧
      w.outbox = s.outbox ++ [.err d.writeLeg, .ok [d.writeLeg], .ok [d.writeLeg]]

/-! ### Illegal packets -/

/-- R68, cases 2 to 6, and R141: the answer is `illegal`, with no transaction and no change but the response. The eleven legal type codes
are the spec's decision D8, in part its general knowledge (R70; log entry 18). -/
def Obligations.IllegalOperandsAnswerIllegalOnly : Prop :=
  ∀ (i : Instr) (s : State),
    ((∃ w e, i = .almie w e ∧ (w ≠ 0x01#8 ∧ w ≠ 0x02#8 ∨ e ≠ 0x00#8 ∧ e ≠ 0x01#8)) ∨
      (∃ w, (i = .almconsume w ∨ i = .almpeek w ∨ i = .almclear w) ∧ w ≠ 0x01#8 ∧ w ≠ 0x02#8) ∨
      (∃ e, i = .oscstop e ∧ e ≠ 0x00#8 ∧ e ≠ 0x01#8) ∨
      (∃ ty sec m h d, (i = .setalm ty sec m h d ∨ i = .setalm3 ty m h d) ∧
        ty ∉ [0x00#8, 0x01#8, 0x03#8, 0x07#8, 0x0F#8, 0x1F#8, 0x80#8, 0x82#8, 0x86#8, 0x8E#8, 0x9E#8]) ∨
      (∃ f, i = .sqwset f ∧ 5 ≤ f.toNat) ∨ (∃ a, i = .wrblk a [] ∨ i = .rdblk a 0x00#8)) →
    exec i s = .next { s with outbox := s.outbox ++ [.illegal], busy := none }

/-- R68 case 1, R67, R66: an idle Block takes any of the 236 other opcode bytes alone and answers `illegal`, and nothing else; the Chip's
steps in the gap before it (R36) are `afterGap`. -/
def Obligations.UnknownOpcodesAnswerIllegalOnly : Prop :=
  ∀ (s : State) (op : Byte) (rest : List Byte), s.resetIn = false → s.busy = none → s.inbox = op :: rest →
    op ∉ [0x01#8, 0x02#8, 0x10#8, 0x11#8, 0x12#8, 0x13#8, 0x20#8, 0x21#8, 0x22#8, 0x23#8, 0x30#8, 0x31#8, 0x32#8, 0x33#8, 0x34#8,
      0x35#8, 0x40#8, 0x41#8, 0x42#8, 0x43#8] →
    step s = .next { s.afterGap with inbox := rest, outbox := s.outbox ++ [.illegal], busy := none }

/-! ### What a command leaves alone -/

/-- R38, R14: whatever a command does, in its first transaction and in every later one, the chip's capacity, the Host's bytes and the reset
input stay, and `lastError` stays but in RDTIME and GETEPOCH, which leave it or write a non-zero status. -/
def Obligations.CommandsKeepTheOtherRegisters : Prop :=
  (∀ (i : Instr) (s t : State), exec i s = .next t →
    t.ramTop = s.ramTop ∧ t.inbox = s.inbox ∧ t.resetIn = s.resetIn ∧
    (t.lastError = s.lastError ∨ (i = .rdtime ∨ i = .getepoch) ∧ t.lastError ≠ 0x00#8)) ∧
  ∀ (s t : State) (p : Pending), s.resetIn = false → s.busy = some p → step s = .next t →
    t.ramTop = s.ramTop ∧ t.inbox = s.inbox ∧ t.resetIn = s.resetIn ∧
    (t.lastError = s.lastError ∨ (p = .rdtime ∨ p = .getepoch) ∧ t.lastError ≠ 0x00#8)

/-- R38, R36: a transaction changes no byte outside the runs its command stores to; and over a whole command, whatever the Chip does in its
gaps, every byte outside those runs and outside what the Chip may change on its own reads as before. -/
def Obligations.CommandsKeepEveryOtherByte : Prop :=
  (∀ (i : Instr) (s t : State), s.rf.wf = true → exec i s = .next t →
    ∀ a : Nat, (∀ run ∈ storedRuns i, ¬ (run.1 ≤ a ∧ a < run.1 + run.2)) → Memory.read t.rf a = Memory.read s.rf a) ∧
  ∀ (i : Instr) (s u t : State) (n : Nat), s.rf.wf = true → s.inbox = [] → exec i s = .next u → steps n u = some t →
    ∀ a : Nat, (∀ run ∈ storedRuns i, ¬ (run.1 ≤ a ∧ a < run.1 + run.2)) → chipMayChange a = false →
      Memory.read t.rf a = Memory.read s.rf a

/-- R38: over a whole command, and while the Block waits after it, when the Chip takes no step every byte outside the runs the command
stores to reads as before; a command that stores nothing leaves all of them. -/
def Obligations.QuietChipKeepsEveryUnstoredByte : Prop :=
  ∀ (i : Instr) (s u t : State) (n : Nat), s.rf.wf = true → s.inbox = [] → (∀ k < n, s.gaps[k]? = some []) →
    exec i s = .next u → steps n u = some t →
    ∀ a : Nat, (∀ run ∈ storedRuns i, ¬ (run.1 ≤ a ∧ a < run.1 + run.2)) → Memory.read t.rf a = Memory.read s.rf a

/-- R65, R16: a command's step, its first one and every later one, gives one response and leaves the Block idle, or gives none and leaves it
busy. -/
def Obligations.CommandsGiveOneResponseOrStayBusy : Prop :=
  (∀ (i : Instr) (s t : State), exec i s = .next t →
    (∃ r, t.outbox = s.outbox ++ [r] ∧ t.busy = none) ∨ (t.outbox = s.outbox ∧ ∃ p, t.busy = some p)) ∧
  ∀ (s t : State) (p : Pending), s.resetIn = false → s.busy = some p → step s = .next t →
    (∃ r, t.outbox = s.outbox ++ [r] ∧ t.busy = none) ∨ (t.outbox = s.outbox ∧ ∃ q, t.busy = some q)

/-- R12, R60, R44 (R175 is the spec's own inference of the same numbers): a step takes at most one reply of the Transport, so it runs at most
one transaction, of at most two legs; and a whole command, however long it waits, takes at most its number of answers, in order, and only
adds legs to the trace, at most two for each of them. -/
def Obligations.CommandsTakeTheirTransactionsAtMost : Prop :=
  (∀ s t : State, step s = .next t → ∃ (k : Nat) (legs : List Event), k ≤ 1 ∧ t.replies = s.replies.drop k ∧
    t.trace = s.trace ++ legs ∧ legs.length ≤ 2 * k) ∧
  ∀ (i : Instr) (s u t : State) (n : Nat), s.inbox = [] → exec i s = .next u → steps n u = some t →
    ∃ (k : Nat) (legs : List Event), t.replies = s.replies.drop k ∧ (s.replies.take k).countP Reply.answered ≤ i.maxTransactions ∧
      t.trace = s.trace ++ legs ∧ legs.length ≤ 2 * i.maxTransactions

/-- R140, R144: when the Transport answers every transaction, with whatever statuses, the commands of the last rows of R140 answer `ok`, in
one step or two; a failed leg is never reported. -/
def Obligations.NonReportingCommandsAlwaysAnswerOk : Prop :=
  ∀ (i : Instr) (s : State) (g : List ChipStep) (gs : List (List ChipStep)) (d1 d2 : Answer) (rs : List Reply),
    i.wellFormed = true → i.neverErr = true →
    s.resetIn = false → s.gaps = g :: gs → s.replies = .answers d1 :: .answers d2 :: rs →
    ∃ (n : Nat) (u t : State) (payload : List Byte), n ≤ 1 ∧ exec i s = .next u ∧ steps n u = some t ∧
      t.outbox = s.outbox ++ [.ok payload] ∧ t.busy = none

/-! ### The step -/

/-- R75, R16, R36, R34: after the Chip's steps in the gap, an idle Block with a whole packet runs the command it decodes to, its bytes taken
from the Host's, and a busy Block runs the transaction that comes next. -/
def Obligations.StepRunsTheDecodedCommand : Prop :=
  (∀ (s : State) (i : Instr) (rest : List Byte), s.resetIn = false → s.busy = none → decode s.inbox = .packet i rest →
    step s = exec i { s.afterGap with inbox := rest }) ∧
  ∀ (s : State) (p : Pending), s.resetIn = false → s.busy = some p → InChip s p.run.1 p.run.2 → step s = .next (resume p s.afterGap)

/-- R16, D22: a busy Block accepts no packet: what the Host has sent changes nothing of what it does and stays. -/
def Obligations.BusyBlockAcceptsNoPacket : Prop :=
  ∀ (s : State) (p : Pending) (bytes : List Byte), s.resetIn = false → s.busy = some p →
    (∀ t, step s = .next t → t.inbox = s.inbox ∧ step { s with inbox := bytes } = .next { t with inbox := bytes }) ∧
    (∀ f, step s = .fault f → step { s with inbox := bytes } = .fault f)

/-- R34, R59: a transaction the Transport does not answer changes nothing and is the one that comes next again; a command whose first
transaction it was goes on to what the command would have done from there. The suspension is the model's choice (log entry 7). -/
def Obligations.SilentTransportSuspendsAndResumes : Prop :=
  (∀ (i : Instr) (s t : State) (rs : List Reply), s.resetIn = false → s.busy = none →
    s.replies = .silent :: rs → exec i s = .next t → t.replies ≠ s.replies →
    (∃ p, t = { s with busy := some p, replies := rs }) ∧ step t = exec i { s.afterGap with replies := rs }) ∧
  ∀ (s t : State) (p : Pending) (rs : List Reply), s.resetIn = false → s.busy = some p → s.replies = .silent :: rs →
    step s = .next t → t = { s.afterGap with replies := rs }

/-- R156: asserting reset sets `lastError` to 0, abandons the command in progress without a response and leaves the Block idle; it starts
no transaction and the Chip keeps what it held. When the input is sampled is the model's choice (log entry 8). -/
def Obligations.ResetInputAbandonsTheCommand : Prop :=
  ∀ s : State, s.resetIn = true → ∃ t, step s = .next t ∧ t.lastError = 0x00#8 ∧ t.busy = none ∧ t.outbox = s.outbox ∧
    t.trace = s.trace ∧ t.gaps = s.gaps ∧ t.replies = s.replies ∧ t.rf = s.rf ∧ t.ptr = s.ptr ∧ t.ramTop = s.ramTop

/-- R173: a reset between the first two transactions of WRTIME leaves the time written and STATUS as it was, one after the read of ALMCONSUME
has changed nothing; there is no response, and `lastError` is 0. -/
def Obligations.ResetDuringACommandKeepsItsFirstEffects : Prop :=
  ∀ (s : State) (d : Answer) (rs : List Reply), s.replies = .answers d :: rs → d.Succeeds → s.rf.wf = true →
    (∀ t : CalendarTime, ∃ u v, exec (.wrtime t) s = .next u ∧ step { u with resetIn := true } = .next v ∧ v.busy = none ∧
      v.outbox = s.outbox ∧ v.lastError = 0x00#8 ∧ v.rf = Memory.writeRun s.rf 0x00 (packTime t) ∧
      Memory.read v.rf 0x0F = Memory.read s.rf 0x0F) ∧
    (∀ which : Byte, which = 0x01#8 ∨ which = 0x02#8 → (Memory.read s.rf 0x0F).getLsbD (which.toNat - 1) = true →
      ∃ u v, exec (.almconsume which) s = .next u ∧ step { u with resetIn := true } = .next v ∧ v.busy = none ∧
        v.outbox = s.outbox ∧ v.lastError = 0x00#8 ∧ v.rf = s.rf)

/-- R37, R157, R36, for what the spec gives: after reset `lastError` is 0 and the Block is idle; an idle Block without a whole packet waits, and
only the Chip takes steps. That nothing is sent and nothing recorded at reset is the model's reading (log entries 9 and 21). -/
def Obligations.ResetLeavesTheBlockIdleAndWaiting : Prop :=
  State.reset.lastError = 0x00#8 ∧ State.reset.busy = none ∧ State.reset.outbox = [] ∧ State.reset.trace = [] ∧
    step State.reset = .next State.reset.afterGap ∧
    ∀ s : State, s.resetIn = false → s.busy = none → decode s.inbox = .incomplete → step s = .next s.afterGap

/-! ### Invariants -/

/-- The invariant holds at reset. -/
def Obligations.InvariantHoldsAtReset : Prop := State.reset.Inv

/-- Every step keeps the register file in canonical form and a busy Block's next transaction inside the chip. -/
def Obligations.StepKeepsTheInvariant : Prop :=
  ∀ s t : State, s.Inv → step s = .next t → t.Inv

/-- R139: "No operation is fatal": from a state of the invariant no step faults, whatever the Host has sent and the Transport answers. The
one fault there is to exclude is the model's own (log entry 20). -/
def Obligations.NoStepFaults : Prop :=
  ∀ (s : State) (f : Fault), s.Inv → step s ≠ .fault f

/-- R65, R48, R50: every step keeps the history lawful: `err` carries a non-zero status, every leg stays inside the space, a read leg from the
offset its address-select leg gave, and a leg that answered 0 carried no more than its limit (the limits are those of log entry 16). -/
def Obligations.StepKeepsTheHistoryLawful : Prop :=
  ∀ s t : State, s.Inv → s.Lawful → step s = .next t → t.Lawful

/-- R45, R47: every step keeps the trace's shape: a read leg comes right after an address-select leg that answered 0. -/
def Obligations.StepKeepsReadLegsSelected : Prop :=
  ∀ s t : State, readsSelected false s.trace = true → step s = .next t → readsSelected false t.trace = true

/-! ### The Chip and the wire -/

/-- R36: however many steps the Chip takes, it never clears A1F, A2F or OSF, and never changes STATUS bits 6:3, CONTROL bits other than
CONV, or any byte outside 0x00 to 0x06, 0x0E, 0x0F, 0x11 and 0x12. -/
def Obligations.ChipStepsNeverClearFlags : Prop :=
  ∀ (cs : List ChipStep) (m : Memory), m.wf = true →
    (∀ i, i = 0 ∨ i = 1 ∨ i = 7 → (Memory.read m 0x0F).getLsbD i = true → (Memory.read (chipSteps cs m) 0x0F).getLsbD i = true) ∧
    (∀ i, 3 ≤ i → i ≤ 6 → (Memory.read (chipSteps cs m) 0x0F).getLsbD i = (Memory.read m 0x0F).getLsbD i) ∧
    (∀ i, i ≠ 5 → (Memory.read (chipSteps cs m) 0x0E).getLsbD i = (Memory.read m 0x0E).getLsbD i) ∧
    (∀ a, 6 < a → a ≠ 0x0E → a ≠ 0x0F → a ≠ 0x11 → a ≠ 0x12 → Memory.read (chipSteps cs m) a = Memory.read m a)

/-- R45, R42: the bytes of a write leg and of a read leg on the wire. The address bytes are the spec's general knowledge (log entry 19). -/
def Obligations.LegsOnTheWire : Prop :=
  (∀ (off : Byte) (data : List Byte), (Event.write off data 0x00#8).wire =
    .start :: .byte 0xD0#8 :: .byte off :: (data.map WireSymbol.byte ++ [.stop])) ∧
  (∀ (n : Nat) (data : List Byte), (Event.read n data 0x00#8).wire =
    .start :: .byte 0xD1#8 :: (data.map WireSymbol.byte ++ [.stop]))

/-! ### The encoding -/

/-- Decoding the packet of a legal command gives the command and the bytes after it, with every operand at every value. -/
def Obligations.DecodeOfEncode : Prop :=
  ∀ (i : Instr) (rest : List Byte), i.wellFormed = true → decode (encode i ++ rest) = .packet i rest

/-- A packet the decoder takes is the encoding of the command it gives: every packet has one meaning and no bit is dropped. -/
def Obligations.EncodeOfDecode : Prop :=
  ∀ (bytes rest : List Byte) (i : Instr), decode bytes = .packet i rest → bytes = encode i ++ rest

/-- R67: the length of a packet by its opcode, and for WRBLK by byte 2. -/
def Obligations.PacketLengthByOpcode : Prop :=
  ∀ (op : Byte) (rest : List Byte), packetLength (op :: rest) =
    if op ∈ [0x10#8, 0x12#8, 0x42#8, 0x43#8] then some 1
    else if op ∈ [0x01#8, 0x02#8, 0x23#8, 0x33#8, 0x34#8, 0x35#8, 0x40#8, 0x41#8] then some 2
    else if op ∈ [0x21#8, 0x22#8, 0x32#8] then some 3
    else if op ∈ [0x13#8, 0x31#8] then some 5
    else if op = 0x30#8 then some 6
    else if op = 0x11#8 then some 9
    else if op = 0x20#8 then rest[1]?.map (fun len => 3 + len.toNat)
    else some 1

/-- Packets written out byte by byte from the formats R76 to R82, one for each opcode of R66, decode to the commands they stand for. -/
def Obligations.WrittenOutPacketsDecode : Prop :=
  decode [0x10#8] = .packet .rdtime [] ∧
  decode [0x12#8] = .packet .getepoch [] ∧
  decode [0x42#8] = .packet .temp [] ∧
  decode [0x43#8] = .packet .geterr [] ∧
  decode [0x01#8, 0x2D#8] = .packet (.dec2bcd 45#8) [] ∧
  decode [0x02#8, 0x45#8] = .packet (.bcd2dec 0x45#8) [] ∧
  decode [0x23#8, 0x0F#8] = .packet (.rdbyte 0x0F#8) [] ∧
  decode [0x33#8, 0x01#8] = .packet (.almconsume 0x01#8) [] ∧
  decode [0x34#8, 0x02#8] = .packet (.almpeek 0x02#8) [] ∧
  decode [0x35#8, 0x02#8] = .packet (.almclear 0x02#8) [] ∧
  decode [0x40#8, 0x02#8] = .packet (.sqwset 0x02#8) [] ∧
  decode [0x41#8, 0x01#8] = .packet (.oscstop 0x01#8) [] ∧
  decode [0x21#8, 0x14#8, 0x02#8] = .packet (.rdblk 0x14#8 0x02#8) [] ∧
  decode [0x22#8, 0x0E#8, 0x04#8] = .packet (.wrbyte 0x0E#8 0x04#8) [] ∧
  decode [0x32#8, 0x02#8, 0x01#8] = .packet (.almie 0x02#8 0x01#8) [] ∧
  decode [0x13#8, 0x00#8, 0x5E#8, 0x0B#8, 0x39#8] = .packet (.setepoch 0x390B5E00#32) [] ∧
  decode [0x31#8, 0x82#8, 0x1E#8, 0x0D#8, 0x09#8] = .packet (.setalm3 0x82#8 30#8 13#8 9#8) [] ∧
  decode [0x30#8, 0x01#8, 0x1E#8, 0x00#8, 0x00#8, 0x01#8] = .packet (.setalm 0x01#8 30#8 0#8 0#8 1#8) [] ∧
  decode [0x11#8, 0x1E#8, 0x30#8, 0x0D#8, 0x02#8, 0x09#8, 0x0B#8, 0xEA#8, 0x07#8] = .packet (.wrtime ⟨30, 48, 13, 2, 9, 11, 2026⟩) [] ∧
  decode [0x20#8, 0x14#8, 0x02#8, 0xDE#8, 0xAD#8, 0x43#8] = .packet (.wrblk 0x14#8 [0xDE#8, 0xAD#8]) [0x43#8]
end

