-- ==== Sys2Proof/Laws/State.lean ====
section
/-! SUPPORT. One lemma per field per update of State, so that no proof unfolds a record update. -/

namespace Sys2Proof.Machine

variable (s : State)

@[simp] theorem State.record_lastError (e : Event) : (State.record e s).lastError = s.lastError := rfl
@[simp] theorem State.record_busy (e : Event) : (State.record e s).busy = s.busy := rfl
@[simp] theorem State.record_inbox (e : Event) : (State.record e s).inbox = s.inbox := rfl
@[simp] theorem State.record_outbox (e : Event) : (State.record e s).outbox = s.outbox := rfl
@[simp] theorem State.record_resetIn (e : Event) : (State.record e s).resetIn = s.resetIn := rfl
@[simp] theorem State.record_rf (e : Event) : (State.record e s).rf = s.rf := rfl
@[simp] theorem State.record_ptr (e : Event) : (State.record e s).ptr = s.ptr := rfl
@[simp] theorem State.record_ramTop (e : Event) : (State.record e s).ramTop = s.ramTop := rfl
@[simp] theorem State.record_trace (e : Event) : (State.record e s).trace = s.trace ++ [e] := rfl
@[simp] theorem State.record_gaps (e : Event) : (State.record e s).gaps = s.gaps := rfl
@[simp] theorem State.record_replies (e : Event) : (State.record e s).replies = s.replies := rfl
@[simp] theorem State.record_tick (e : Event) : (State.record e s).tick = s.tick := rfl

@[simp] theorem State.respond_lastError (r : Response) : (State.respond r s).lastError = s.lastError := rfl
@[simp] theorem State.respond_busy (r : Response) : (State.respond r s).busy = none := rfl
@[simp] theorem State.respond_inbox (r : Response) : (State.respond r s).inbox = s.inbox := rfl
@[simp] theorem State.respond_outbox (r : Response) : (State.respond r s).outbox = s.outbox ++ [r] := rfl
@[simp] theorem State.respond_resetIn (r : Response) : (State.respond r s).resetIn = s.resetIn := rfl
@[simp] theorem State.respond_rf (r : Response) : (State.respond r s).rf = s.rf := rfl
@[simp] theorem State.respond_ptr (r : Response) : (State.respond r s).ptr = s.ptr := rfl
@[simp] theorem State.respond_ramTop (r : Response) : (State.respond r s).ramTop = s.ramTop := rfl
@[simp] theorem State.respond_trace (r : Response) : (State.respond r s).trace = s.trace := rfl
@[simp] theorem State.respond_gaps (r : Response) : (State.respond r s).gaps = s.gaps := rfl
@[simp] theorem State.respond_replies (r : Response) : (State.respond r s).replies = s.replies := rfl
@[simp] theorem State.respond_tick (r : Response) : (State.respond r s).tick = s.tick := rfl

@[simp] theorem State.suspend_lastError (p : Pending) : (State.suspend p s).lastError = s.lastError := rfl
@[simp] theorem State.suspend_busy (p : Pending) : (State.suspend p s).busy = some p := rfl
@[simp] theorem State.suspend_inbox (p : Pending) : (State.suspend p s).inbox = s.inbox := rfl
@[simp] theorem State.suspend_outbox (p : Pending) : (State.suspend p s).outbox = s.outbox := rfl
@[simp] theorem State.suspend_resetIn (p : Pending) : (State.suspend p s).resetIn = s.resetIn := rfl
@[simp] theorem State.suspend_rf (p : Pending) : (State.suspend p s).rf = s.rf := rfl
@[simp] theorem State.suspend_ptr (p : Pending) : (State.suspend p s).ptr = s.ptr := rfl
@[simp] theorem State.suspend_ramTop (p : Pending) : (State.suspend p s).ramTop = s.ramTop := rfl
@[simp] theorem State.suspend_trace (p : Pending) : (State.suspend p s).trace = s.trace := rfl
@[simp] theorem State.suspend_gaps (p : Pending) : (State.suspend p s).gaps = s.gaps := rfl
@[simp] theorem State.suspend_replies (p : Pending) : (State.suspend p s).replies = s.replies := rfl
@[simp] theorem State.suspend_tick (p : Pending) : (State.suspend p s).tick = s.tick := rfl

@[simp] theorem State.setLastError_lastError (st : Byte) : (State.setLastError st s).lastError = st := rfl
@[simp] theorem State.setLastError_busy (st : Byte) : (State.setLastError st s).busy = s.busy := rfl
@[simp] theorem State.setLastError_inbox (st : Byte) : (State.setLastError st s).inbox = s.inbox := rfl
@[simp] theorem State.setLastError_outbox (st : Byte) : (State.setLastError st s).outbox = s.outbox := rfl
@[simp] theorem State.setLastError_resetIn (st : Byte) : (State.setLastError st s).resetIn = s.resetIn := rfl
@[simp] theorem State.setLastError_rf (st : Byte) : (State.setLastError st s).rf = s.rf := rfl
@[simp] theorem State.setLastError_ptr (st : Byte) : (State.setLastError st s).ptr = s.ptr := rfl
@[simp] theorem State.setLastError_ramTop (st : Byte) : (State.setLastError st s).ramTop = s.ramTop := rfl
@[simp] theorem State.setLastError_trace (st : Byte) : (State.setLastError st s).trace = s.trace := rfl
@[simp] theorem State.setLastError_gaps (st : Byte) : (State.setLastError st s).gaps = s.gaps := rfl
@[simp] theorem State.setLastError_replies (st : Byte) : (State.setLastError st s).replies = s.replies := rfl
@[simp] theorem State.setLastError_tick (st : Byte) : (State.setLastError st s).tick = s.tick := rfl

@[simp] theorem State.setRf_lastError (m : Memory) : (State.setRf m s).lastError = s.lastError := rfl
@[simp] theorem State.setRf_busy (m : Memory) : (State.setRf m s).busy = s.busy := rfl
@[simp] theorem State.setRf_inbox (m : Memory) : (State.setRf m s).inbox = s.inbox := rfl
@[simp] theorem State.setRf_outbox (m : Memory) : (State.setRf m s).outbox = s.outbox := rfl
@[simp] theorem State.setRf_resetIn (m : Memory) : (State.setRf m s).resetIn = s.resetIn := rfl
@[simp] theorem State.setRf_rf (m : Memory) : (State.setRf m s).rf = m := rfl
@[simp] theorem State.setRf_ptr (m : Memory) : (State.setRf m s).ptr = s.ptr := rfl
@[simp] theorem State.setRf_ramTop (m : Memory) : (State.setRf m s).ramTop = s.ramTop := rfl
@[simp] theorem State.setRf_trace (m : Memory) : (State.setRf m s).trace = s.trace := rfl
@[simp] theorem State.setRf_gaps (m : Memory) : (State.setRf m s).gaps = s.gaps := rfl
@[simp] theorem State.setRf_replies (m : Memory) : (State.setRf m s).replies = s.replies := rfl
@[simp] theorem State.setRf_tick (m : Memory) : (State.setRf m s).tick = s.tick := rfl

@[simp] theorem State.setPtr_lastError (p : Byte) : (State.setPtr p s).lastError = s.lastError := rfl
@[simp] theorem State.setPtr_busy (p : Byte) : (State.setPtr p s).busy = s.busy := rfl
@[simp] theorem State.setPtr_inbox (p : Byte) : (State.setPtr p s).inbox = s.inbox := rfl
@[simp] theorem State.setPtr_outbox (p : Byte) : (State.setPtr p s).outbox = s.outbox := rfl
@[simp] theorem State.setPtr_resetIn (p : Byte) : (State.setPtr p s).resetIn = s.resetIn := rfl
@[simp] theorem State.setPtr_rf (p : Byte) : (State.setPtr p s).rf = s.rf := rfl
@[simp] theorem State.setPtr_ptr (p : Byte) : (State.setPtr p s).ptr = p := rfl
@[simp] theorem State.setPtr_ramTop (p : Byte) : (State.setPtr p s).ramTop = s.ramTop := rfl
@[simp] theorem State.setPtr_trace (p : Byte) : (State.setPtr p s).trace = s.trace := rfl
@[simp] theorem State.setPtr_gaps (p : Byte) : (State.setPtr p s).gaps = s.gaps := rfl
@[simp] theorem State.setPtr_replies (p : Byte) : (State.setPtr p s).replies = s.replies := rfl
@[simp] theorem State.setPtr_tick (p : Byte) : (State.setPtr p s).tick = s.tick := rfl

@[simp] theorem State.setInbox_lastError (bs : List Byte) : (State.setInbox bs s).lastError = s.lastError := rfl
@[simp] theorem State.setInbox_busy (bs : List Byte) : (State.setInbox bs s).busy = s.busy := rfl
@[simp] theorem State.setInbox_inbox (bs : List Byte) : (State.setInbox bs s).inbox = bs := rfl
@[simp] theorem State.setInbox_outbox (bs : List Byte) : (State.setInbox bs s).outbox = s.outbox := rfl
@[simp] theorem State.setInbox_resetIn (bs : List Byte) : (State.setInbox bs s).resetIn = s.resetIn := rfl
@[simp] theorem State.setInbox_rf (bs : List Byte) : (State.setInbox bs s).rf = s.rf := rfl
@[simp] theorem State.setInbox_ptr (bs : List Byte) : (State.setInbox bs s).ptr = s.ptr := rfl
@[simp] theorem State.setInbox_ramTop (bs : List Byte) : (State.setInbox bs s).ramTop = s.ramTop := rfl
@[simp] theorem State.setInbox_trace (bs : List Byte) : (State.setInbox bs s).trace = s.trace := rfl
@[simp] theorem State.setInbox_gaps (bs : List Byte) : (State.setInbox bs s).gaps = s.gaps := rfl
@[simp] theorem State.setInbox_replies (bs : List Byte) : (State.setInbox bs s).replies = s.replies := rfl
@[simp] theorem State.setInbox_tick (bs : List Byte) : (State.setInbox bs s).tick = s.tick := rfl

@[simp] theorem State.blockReset_lastError : (State.blockReset s).lastError = 0x00#8 := rfl
@[simp] theorem State.blockReset_busy : (State.blockReset s).busy = none := rfl
@[simp] theorem State.blockReset_inbox : (State.blockReset s).inbox = s.inbox := rfl
@[simp] theorem State.blockReset_outbox : (State.blockReset s).outbox = s.outbox := rfl
@[simp] theorem State.blockReset_resetIn : (State.blockReset s).resetIn = false := rfl
@[simp] theorem State.blockReset_rf : (State.blockReset s).rf = s.rf := rfl
@[simp] theorem State.blockReset_ptr : (State.blockReset s).ptr = s.ptr := rfl
@[simp] theorem State.blockReset_ramTop : (State.blockReset s).ramTop = s.ramTop := rfl
@[simp] theorem State.blockReset_trace : (State.blockReset s).trace = s.trace := rfl
@[simp] theorem State.blockReset_gaps : (State.blockReset s).gaps = s.gaps := rfl
@[simp] theorem State.blockReset_replies : (State.blockReset s).replies = s.replies := rfl
@[simp] theorem State.blockReset_tick : (State.blockReset s).tick = s.tick := rfl

@[simp] theorem State.afterGap_lastError : (State.afterGap s).lastError = s.lastError := rfl
@[simp] theorem State.afterGap_busy : (State.afterGap s).busy = s.busy := rfl
@[simp] theorem State.afterGap_inbox : (State.afterGap s).inbox = s.inbox := rfl
@[simp] theorem State.afterGap_outbox : (State.afterGap s).outbox = s.outbox := rfl
@[simp] theorem State.afterGap_resetIn : (State.afterGap s).resetIn = s.resetIn := rfl
@[simp] theorem State.afterGap_rf : (State.afterGap s).rf = chipSteps s.gap s.rf := rfl
@[simp] theorem State.afterGap_ptr : (State.afterGap s).ptr = s.ptr := rfl
@[simp] theorem State.afterGap_ramTop : (State.afterGap s).ramTop = s.ramTop := rfl
@[simp] theorem State.afterGap_trace : (State.afterGap s).trace = s.trace := rfl
@[simp] theorem State.afterGap_gaps : (State.afterGap s).gaps = s.gaps.tail := rfl
@[simp] theorem State.afterGap_replies : (State.afterGap s).replies = s.replies := rfl
@[simp] theorem State.afterGap_tick : (State.afterGap s).tick = s.tick + 1 := rfl

@[simp] theorem State.replied_lastError : (State.replied s).lastError = s.lastError := rfl
@[simp] theorem State.replied_busy : (State.replied s).busy = s.busy := rfl
@[simp] theorem State.replied_inbox : (State.replied s).inbox = s.inbox := rfl
@[simp] theorem State.replied_outbox : (State.replied s).outbox = s.outbox := rfl
@[simp] theorem State.replied_resetIn : (State.replied s).resetIn = s.resetIn := rfl
@[simp] theorem State.replied_rf : (State.replied s).rf = s.rf := rfl
@[simp] theorem State.replied_ptr : (State.replied s).ptr = s.ptr := rfl
@[simp] theorem State.replied_ramTop : (State.replied s).ramTop = s.ramTop := rfl
@[simp] theorem State.replied_trace : (State.replied s).trace = s.trace := rfl
@[simp] theorem State.replied_gaps : (State.replied s).gaps = s.gaps := rfl
@[simp] theorem State.replied_replies : (State.replied s).replies = s.replies.tail := rfl
@[simp] theorem State.replied_tick : (State.replied s).tick = s.tick := rfl

/-- The next gap is the first one listed. -/
theorem State.gap_of_gaps {s : State} {g : List ChipStep} {gs : List (List ChipStep)} (h : s.gaps = g :: gs) : s.gap = g := by
  simp [State.gap, h]

/-- The next reply is the first one listed. -/
theorem State.reply_of_replies {s : State} {r : Reply} {rs : List Reply} (h : s.replies = r :: rs) : s.reply = r := by
  simp [State.reply, h]

end Sys2Proof.Machine
end

