-- ==== Sys2Proof/Laws/Memory.lean ====
section
/-! SUPPORT. The register file: read after write, what a write leaves alone, and that every operation keeps the canonical form. -/

namespace Sys2Proof.Machine

/-- Nothing is listed below the first offset. -/
theorem Memory.read_below (m : Memory) : ∀ (lo x : Nat), Memory.wfFrom lo m = true → x < lo →
    Memory.read m x = Config.unlistedByte := by
  induction m with
  | nil => intros; rfl
  | cons c m ih =>
    obtain ⟨k, v⟩ := c
    intro lo x h hx
    simp only [Memory.wfFrom, Bool.and_eq_true, decide_eq_true_eq] at h
    simp only [Memory.read]
    rw [if_neg (by omega)]
    exact ih (k + 1) x h.2 (by omega)

/-- The canonical form from an offset on is one from any lower offset on. -/
theorem Memory.wfFrom_mono (m : Memory) (lo lo' : Nat) (h : Memory.wfFrom lo m = true) (hl : lo' ≤ lo) :
    Memory.wfFrom lo' m = true := by
  cases m with
  | nil => rfl
  | cons c m =>
    simp only [Memory.wfFrom, Bool.and_eq_true, decide_eq_true_eq] at h ⊢
    exact ⟨⟨⟨by omega, h.1.1.2⟩, h.1.2⟩, h.2⟩

/-- A write changes the byte at its offset and no other, on a canonical file. -/
theorem Memory.read_write_from (m : Memory) : ∀ (lo a : Nat) (b : Byte) (x : Nat), Memory.wfFrom lo m = true → lo ≤ a →
    Memory.read (Memory.write m a b) x = if x = a then b else Memory.read m x := by
  induction m with
  | nil =>
    intro lo a b x _ _
    by_cases hb : b = Config.unlistedByte <;> by_cases hx : x = a <;> simp [Memory.write, Memory.read, hb, hx, eq_comm]
    intro h; exact absurd h.symm hx
  | cons c m ih =>
    obtain ⟨k, v⟩ := c
    intro lo a b x hwf hlo
    simp only [Memory.wfFrom, Bool.and_eq_true, decide_eq_true_eq] at hwf
    obtain ⟨⟨⟨hk, _⟩, _⟩, hm⟩ := hwf
    unfold Memory.write
    by_cases h1 : a < k
    · rw [if_pos h1]
      by_cases hb : b = Config.unlistedByte
      · rw [if_pos hb]
        by_cases hx : x = a
        · subst hx
          rw [if_pos rfl]
          simp only [Memory.read]
          rw [if_neg (by omega), Memory.read_below m (k + 1) x hm (by omega), hb]
        · rw [if_neg hx]
      · rw [if_neg hb]
        by_cases hx : x = a
        · subst hx; simp [Memory.read]
        · rw [if_neg hx]
          simp only [Memory.read]
          rw [if_neg (fun h => hx h.symm)]
    · rw [if_neg h1]
      by_cases h2 : a = k
      · subst h2
        rw [if_pos rfl]
        by_cases hb : b = Config.unlistedByte
        · rw [if_pos hb]
          by_cases hx : x = a
          · subst hx
            rw [if_pos rfl, Memory.read_below m (x + 1) x hm (by omega), hb]
          · rw [if_neg hx]
            simp only [Memory.read]
            rw [if_neg (fun h => hx h.symm)]
        · rw [if_neg hb]
          by_cases hx : x = a
          · subst hx; simp [Memory.read]
          · rw [if_neg hx]
            simp only [Memory.read]
            rw [if_neg (fun h => hx h.symm), if_neg (fun h => hx h.symm)]
      · rw [if_neg h2]
        simp only [Memory.read]
        by_cases hx : k = x
        · subst hx
          rw [if_pos rfl, if_pos rfl, if_neg (fun h => h2 h.symm)]
        · rw [if_neg hx, if_neg hx]
          exact ih (k + 1) a b x hm (by omega)

/-- Read after write (R15, R54). -/
theorem Memory.read_write {m : Memory} (h : m.wf = true) (a : Nat) (b : Byte) (x : Nat) :
    Memory.read (Memory.write m a b) x = if x = a then b else Memory.read m x :=
  Memory.read_write_from m 0 a b x h (Nat.zero_le a)

/-- A write keeps the canonical form. -/
theorem Memory.wfFrom_write (m : Memory) : ∀ (lo a : Nat) (b : Byte), Memory.wfFrom lo m = true → lo ≤ a → a < 256 →
    Memory.wfFrom lo (Memory.write m a b) = true := by
  induction m with
  | nil =>
    intro lo a b _ hlo ha
    by_cases hb : b = Config.unlistedByte <;> simp [Memory.write, Memory.wfFrom, hb, hlo, Config.regFileSize, ha]
  | cons c m ih =>
    obtain ⟨k, v⟩ := c
    intro lo a b hwf hlo ha
    simp only [Memory.wfFrom, Bool.and_eq_true, decide_eq_true_eq] at hwf
    obtain ⟨⟨⟨hk, hk2⟩, hv⟩, hm⟩ := hwf
    unfold Memory.write
    by_cases h1 : a < k
    · rw [if_pos h1]
      by_cases hb : b = Config.unlistedByte
      · rw [if_pos hb]; simp only [Memory.wfFrom, Bool.and_eq_true, decide_eq_true_eq]; exact ⟨⟨⟨hk, hk2⟩, hv⟩, hm⟩
      · rw [if_neg hb]
        simp only [Memory.wfFrom, Bool.and_eq_true, decide_eq_true_eq, bne_iff_ne]
        exact ⟨⟨⟨hlo, ha⟩, hb⟩, ⟨⟨by omega, hk2⟩, by simpa using hv⟩, hm⟩
    · rw [if_neg h1]
      by_cases h2 : a = k
      · subst h2
        rw [if_pos rfl]
        by_cases hb : b = Config.unlistedByte
        · rw [if_pos hb]; exact Memory.wfFrom_mono m (a + 1) lo hm (by omega)
        · rw [if_neg hb]
          simp only [Memory.wfFrom, Bool.and_eq_true, decide_eq_true_eq, bne_iff_ne]
          exact ⟨⟨⟨hlo, ha⟩, hb⟩, hm⟩
      · rw [if_neg h2]
        simp only [Memory.wfFrom, Bool.and_eq_true, decide_eq_true_eq]
        exact ⟨⟨⟨hk, hk2⟩, hv⟩, ih (k + 1) a b hm (by omega) ha⟩

/-- A write inside the space keeps the canonical form. -/
theorem Memory.wf_write {m : Memory} (h : m.wf = true) {a : Nat} (ha : a < 256) (b : Byte) : (Memory.write m a b).wf = true :=
  Memory.wfFrom_write m 0 a b h (Nat.zero_le a) ha

/-- A run inside the space keeps the canonical form. -/
theorem Memory.wf_writeRun (v : List Byte) : ∀ {m : Memory} {a : Nat}, m.wf = true → a + v.length ≤ 256 →
    (Memory.writeRun m a v).wf = true := by
  induction v with
  | nil => intro m a h _; exact h
  | cons b bs ih =>
    intro m a h ha
    simp only [List.length_cons] at ha
    exact ih (Memory.wf_write h (by omega) b) (by omega)

/-- What a run stores and what it leaves alone (R43, R46). -/
theorem Memory.read_writeRun (v : List Byte) : ∀ {m : Memory} {a : Nat} (x : Nat), m.wf = true → a + v.length ≤ 256 →
    Memory.read (Memory.writeRun m a v) x = if a ≤ x ∧ x < a + v.length then v.getD (x - a) 0x00#8 else Memory.read m x := by
  induction v with
  | nil =>
    intro m a x _ _
    have : ¬(a ≤ x ∧ x < a) := by omega
    simp [Memory.writeRun, this]
  | cons b bs ih =>
    intro m a x h ha
    simp only [List.length_cons] at ha
    simp only [Memory.writeRun, List.length_cons]
    rw [ih x (Memory.wf_write h (by omega) b) (by omega), Memory.read_write h]
    by_cases h1 : a + 1 ≤ x ∧ x < a + 1 + bs.length
    · rw [if_pos h1, if_pos (by omega)]
      have : x - a = (x - (a + 1)) + 1 := by omega
      rw [this, List.getD_cons_succ]
    · rw [if_neg h1]
      by_cases h2 : x = a
      · subst h2; simp
      · rw [if_neg h2, if_neg (by omega)]

/-- A run reads as many bytes as it asks for (R43). -/
@[simp] theorem Memory.readRun_length (m : Memory) (a n : Nat) : (Memory.readRun m a n).length = n := by
  induction n generalizing a with
  | zero => rfl
  | succ n ih => simp [Memory.readRun, ih]

/-- Byte `i` of a run is the byte at offset `a + i` (R43, R47). -/
theorem Memory.readRun_getD (m : Memory) (a n i : Nat) (hi : i < n) (d : Byte) :
    (Memory.readRun m a n).getD i d = Memory.read m (a + i) := by
  induction n generalizing a i with
  | zero => omega
  | succ n ih =>
    cases i with
    | zero => rfl
    | succ i =>
      rw [Memory.readRun, List.getD_cons_succ, ih (a + 1) i (by omega)]
      congr 1; omega

/-- One byte read as a run. -/
@[simp] theorem Memory.readRun_one (m : Memory) (a : Nat) : Memory.readRun m a 1 = [Memory.read m a] := rfl

/-- One byte stored as a run. -/
@[simp] theorem Memory.writeRun_one (m : Memory) (a : Nat) (b : Byte) : Memory.writeRun m a [b] = Memory.write m a b := rfl

/-- The register file at reset has the canonical form. -/
theorem reset_rf_wf : State.reset.rf.wf = true := rfl

end Sys2Proof.Machine
end

