-- ==== Sys2Proof/Laws/Bus.lean ====
section
/-! SUPPORT. What the Chip's steps, the two transactions and the two bus operations do, once each. -/

namespace Sys2Proof.Machine

/-! ### The Chip (R36) -/

/-- A chip step keeps the canonical form. -/
theorem wf_chipStep (c : ChipStep) {m : Memory} (h : m.wf = true) : (chipStep c m).wf = true := by
  cases c with
  | alarmMatch k => exact Memory.wf_write h (by omega) _
  | oscillatorStop => exact Memory.wf_write h (by omega) _
  | time r v => exact Memory.wf_write h (by have := r.isLt; omega) _
  | temperature r v => exact Memory.wf_write h (by have := r.isLt; omega) _
  | bsy v => exact Memory.wf_write h (by omega) _
  | conv v => exact Memory.wf_write h (by omega) _

/-- The steps of a gap keep the canonical form. -/
theorem wf_chipSteps (cs : List ChipStep) : ∀ {m : Memory}, m.wf = true → (chipSteps cs m).wf = true := by
  induction cs with
  | nil => intro m h; exact h
  | cons c cs ih => intro m h; exact ih (wf_chipStep c h)

/-- A chip step changes nothing outside the offsets R36 names. -/
theorem read_chipStep (c : ChipStep) {m : Memory} (h : m.wf = true) {a : Nat} (ha : chipMayChange a = false) :
    Memory.read (chipStep c m) a = Memory.read m a := by
  simp only [chipMayChange, Bool.or_eq_false_iff, decide_eq_false_iff_not, beq_eq_false_iff_ne] at ha
  cases c with
  | alarmMatch k => simp only [chipStep]; rw [Memory.read_write h, if_neg (by omega)]
  | oscillatorStop => simp only [chipStep]; rw [Memory.read_write h, if_neg (by omega)]
  | time r v => simp only [chipStep]; have := r.isLt; rw [Memory.read_write h, if_neg (by omega)]
  | temperature r v => simp only [chipStep]; have := r.isLt; rw [Memory.read_write h, if_neg (by omega)]
  | bsy v => simp only [chipStep]; rw [Memory.read_write h, if_neg (by omega)]
  | conv v => simp only [chipStep]; rw [Memory.read_write h, if_neg (by omega)]

/-- The steps of a gap change nothing outside the offsets R36 names. -/
theorem read_chipSteps (cs : List ChipStep) : ∀ {m : Memory} {a : Nat}, m.wf = true → chipMayChange a = false →
    Memory.read (chipSteps cs m) a = Memory.read m a := by
  induction cs with
  | nil => intros; rfl
  | cons c cs ih => intro m a h ha; rw [chipSteps, ih (wf_chipStep c h) ha, read_chipStep c h ha]

/-- No step in a gap: nothing changes. -/
@[simp] theorem chipSteps_nil (m : Memory) : chipSteps [] m = m := rfl

/-! ### Leg statuses and drawn bytes (R48) -/

/-- A leg within its limit gets its draw. -/
theorem legStatus_within {limit n : Nat} (h : n ≤ limit) (draw : Byte) (tick : Nat) : legStatus limit n draw tick = draw := by
  simp [legStatus, Nat.not_lt.mpr h]

/-- The status the model gives an over-length leg is not 0. -/
theorem overLengthStatus_ne_zero (tick : Nat) : Config.overLengthStatus tick ≠ 0x00#8 := by
  have h := (Config.freeFailure tick).isLt
  intro h0
  have := congrArg BitVec.toNat h0
  simp only [Config.overLengthStatus, BitVec.toNat_ofNat] at this
  omega

/-- A leg over its limit never answers 0 (R48 constraint 1). -/
theorem legStatus_over {limit n : Nat} (h : limit < n) (draw : Byte) (tick : Nat) : legStatus limit n draw tick ≠ 0x00#8 := by
  unfold legStatus
  split
  · exact overLengthStatus_ne_zero tick
  · rename_i h'
    exact fun h0 => h' ⟨h, h0⟩

/-- A leg that answered 0 is within its limit. -/
theorem le_of_legStatus_eq_zero {limit n : Nat} {draw : Byte} {tick : Nat} (h : legStatus limit n draw tick = 0x00#8) : n ≤ limit := by
  by_contra hn
  exact legStatus_over (by omega) draw tick h

/-- A failed read returns as many bytes as it was asked for. -/
@[simp] theorem drawnBytes_length (n : Nat) (bytes : List Byte) (tick : Nat) : (drawnBytes n bytes tick).length = n := by
  simp [drawnBytes]

/-! ### The two transactions (R46, R47) -/

/-- A write transaction within the limit. -/
theorem memWrite_within {addr : Byte} {v : List Byte} (hn : v.length ≤ 31) (d : Answer) (s : State) :
    memWrite addr v d s =
      (d.writeLeg, ((s.record (.write addr v d.writeLeg)).setRf
        (Memory.writeRun s.rf addr.toNat (if d.writeLeg = 0x00#8 then v else v.take d.stored))).setPtr
        (pointerAfter addr v.length d.writeLeg s.tick)) := by
  have h : v.length ≤ Config.txMaxWrite := hn
  simp only [memWrite, legStatus_within h]

/-- A read transaction whose legs succeed. -/
theorem memRead_succeeds {addr : Byte} {n : Nat} (hn : n ≤ 32) {d : Answer} (hd : d.Succeeds) (s : State) :
    memRead addr n d s =
      (0x00#8, Memory.readRun s.rf addr.toNat n,
        (((s.record (.write addr [] 0x00#8)).setPtr addr).record (.read n (Memory.readRun s.rf addr.toNat n) 0x00#8)).setPtr
          (pointerAfter addr n 0x00#8 s.tick)) := by
  have h : n ≤ Config.txMaxRead := hn
  simp [memRead, legStatus_within h, hd.1, hd.2]

/-- A read transaction whose address-select leg fails: no read leg (R47). -/
theorem memRead_select_fails {addr : Byte} {n : Nat} {d : Answer} (hd : d.writeLeg ≠ 0x00#8) (s : State) :
    memRead addr n d s =
      (d.writeLeg, drawnBytes n d.bytes s.tick, (s.record (.write addr [] d.writeLeg)).setPtr (Config.freePointer s.tick)) := by
  simp [memRead, hd]

/-- A read transaction whose address-select leg succeeds: two legs, the register file as it was. -/
theorem memRead_selected {addr : Byte} {n : Nat} {d : Answer} (hd : d.writeLeg = 0x00#8) (s : State) :
    memRead addr n d s =
      (legStatus 32 n d.readLeg s.tick,
        if legStatus 32 n d.readLeg s.tick = 0x00#8 then Memory.readRun s.rf addr.toNat n else drawnBytes n d.bytes s.tick,
        (((s.record (.write addr [] 0x00#8)).setPtr addr).record
          (.read n (if legStatus 32 n d.readLeg s.tick = 0x00#8 then Memory.readRun s.rf addr.toNat n
            else drawnBytes n d.bytes s.tick) (legStatus 32 n d.readLeg s.tick))).setPtr
          (pointerAfter addr n (legStatus 32 n d.readLeg s.tick) s.tick)) := by
  rw [memRead, if_pos hd]
  rfl

/-- A read transaction returns as many bytes as it was asked for. -/
theorem memRead_bytes_length (addr : Byte) (n : Nat) (d : Answer) (s : State) : (memRead addr n d s).2.1.length = n := by
  unfold memRead
  split
  · dsimp only
    split <;> simp
  · simp

/-- A write transaction stores its bytes or the first so many of them, and nothing else (R46, R48). -/
theorem memWrite_rf (addr : Byte) (v : List Byte) (d : Answer) (s : State) :
    ∃ w, (w = v ∨ w = v.take d.stored) ∧ (memWrite addr v d s).2.rf = Memory.writeRun s.rf addr.toNat w := by
  unfold memWrite
  dsimp only
  split
  · exact ⟨v, .inl rfl, rfl⟩
  · exact ⟨_, .inr rfl, rfl⟩

/-- A write transaction records its one leg and changes nothing but the register file, the trace and the pointer. -/
theorem memWrite_rest (addr : Byte) (v : List Byte) (d : Answer) (s : State) :
    let u := (memWrite addr v d s).2
    u.lastError = s.lastError ∧ u.busy = s.busy ∧ u.inbox = s.inbox ∧ u.outbox = s.outbox ∧ u.resetIn = s.resetIn ∧
      u.ramTop = s.ramTop ∧ u.gaps = s.gaps ∧ u.replies = s.replies ∧ u.tick = s.tick ∧
      u.trace = s.trace ++ [.write addr v (legStatus 31 v.length d.writeLeg s.tick)] :=
  ⟨rfl, rfl, rfl, rfl, rfl, rfl, rfl, rfl, rfl, rfl⟩

/-- A read transaction changes nothing but the trace and the pointer (R47). -/
theorem memRead_rest (addr : Byte) (n : Nat) (d : Answer) (s : State) :
    let u := (memRead addr n d s).2.2
    u.lastError = s.lastError ∧ u.busy = s.busy ∧ u.inbox = s.inbox ∧ u.outbox = s.outbox ∧ u.resetIn = s.resetIn ∧
      u.ramTop = s.ramTop ∧ u.gaps = s.gaps ∧ u.replies = s.replies ∧ u.tick = s.tick ∧ u.rf = s.rf := by
  unfold memRead
  dsimp only
  split <;> exact ⟨rfl, rfl, rfl, rfl, rfl, rfl, rfl, rfl, rfl, rfl⟩

/-! ### The two bus operations -/

/-- A write transaction the Transport answers, with the reply listed. -/
theorem busWrite_answers {s : State} {d : Answer} {rs : List Reply} (h : s.replies = .answers d :: rs)
    (addr : Byte) (v : List Byte) (p : Pending) (k : Byte → State → State) :
    busWrite addr v p k s = k (memWrite addr v d s.replied).1 (memWrite addr v d s.replied).2 := by
  simp [busWrite, State.reply_of_replies h]

/-- A write transaction the Transport does not answer. -/
theorem busWrite_silent {s : State} {rs : List Reply} (h : s.replies = .silent :: rs)
    (addr : Byte) (v : List Byte) (p : Pending) (k : Byte → State → State) : busWrite addr v p k s = s.replied.suspend p := by
  simp [busWrite, State.reply_of_replies h]

/-- A read transaction the Transport answers, with the reply listed. -/
theorem busRead_answers {s : State} {d : Answer} {rs : List Reply} (h : s.replies = .answers d :: rs)
    (addr : Byte) (n : Nat) (p : Pending) (k : Byte → List Byte → State → State) :
    busRead addr n p k s =
      k (memRead addr n d s.replied).1 (memRead addr n d s.replied).2.1 (memRead addr n d s.replied).2.2 := by
  simp [busRead, State.reply_of_replies h]

/-- A read transaction the Transport does not answer. -/
theorem busRead_silent {s : State} {rs : List Reply} (h : s.replies = .silent :: rs)
    (addr : Byte) (n : Nat) (p : Pending) (k : Byte → List Byte → State → State) : busRead addr n p k s = s.replied.suspend p := by
  simp [busRead, State.reply_of_replies h]

/-- A write transaction the Transport answers, field by field: the rest of the command runs with the leg's status `st` from a state `u`
that differs from `s` in the register file, the trace, the pointer and the reply taken (R46, R48). -/
theorem busWrite_run {s : State} {d : Answer} {rs : List Reply} (h : s.replies = .answers d :: rs)
    (addr : Byte) (v : List Byte) (p : Pending) (k : Byte → State → State) :
    ∃ (st : Byte) (u : State), busWrite addr v p k s = k st u ∧
      u.lastError = s.lastError ∧ u.busy = s.busy ∧ u.inbox = s.inbox ∧ u.outbox = s.outbox ∧ u.resetIn = s.resetIn ∧
      u.ramTop = s.ramTop ∧ u.gaps = s.gaps ∧ u.replies = rs ∧ u.tick = s.tick ∧
      u.trace = s.trace ++ [.write addr v st] ∧
      u.rf = Memory.writeRun (s.rf) addr.toNat (if st = 0x00#8 then v else v.take d.stored) ∧
      (v.length ≤ 31 → st = d.writeLeg) ∧ (31 < v.length → st ≠ 0x00#8) := by
  refine ⟨_, _, busWrite_answers h addr v p k, ?_⟩
  simp only [memWrite, State.replied, h, List.tail_cons]
  exact ⟨rfl, rfl, rfl, rfl, rfl, rfl, rfl, rfl, rfl, rfl, rfl, fun hl => legStatus_within hl _ _, fun hl => legStatus_over hl _ _⟩

/-- A read transaction the Transport answers, field by field: the rest of the command runs with the status `st` and the bytes `bytes` from a
state `u` that differs from `s` in the trace, the pointer and the reply taken (R47, R48). -/
theorem busRead_run {s : State} {d : Answer} {rs : List Reply} (h : s.replies = .answers d :: rs)
    (addr : Byte) (n : Nat) (p : Pending) (k : Byte → List Byte → State → State) :
    ∃ (st : Byte) (bytes : List Byte) (u : State), busRead addr n p k s = k st bytes u ∧ bytes.length = n ∧
      u.lastError = s.lastError ∧ u.busy = s.busy ∧ u.inbox = s.inbox ∧ u.outbox = s.outbox ∧ u.resetIn = s.resetIn ∧
      u.ramTop = s.ramTop ∧ u.gaps = s.gaps ∧ u.replies = rs ∧ u.tick = s.tick ∧ u.rf = s.rf ∧
      (d.writeLeg ≠ 0x00#8 → st = d.writeLeg ∧ u.trace = s.trace ++ [.write addr [] d.writeLeg]) ∧
      (d.writeLeg = 0x00#8 → u.trace = s.trace ++ [.write addr [] 0x00#8, .read n bytes st] ∧
        (st = 0x00#8 → bytes = Memory.readRun (s.rf) addr.toNat n) ∧ (n ≤ 32 → st = d.readLeg) ∧
        (32 < n → st ≠ 0x00#8)) := by
  refine ⟨_, _, _, busRead_answers h addr n p k, memRead_bytes_length addr n d _, ?_⟩
  by_cases hw : d.writeLeg = 0x00#8
  · simp only [memRead_selected hw, State.replied, h, List.tail_cons]
    refine ⟨rfl, rfl, rfl, rfl, rfl, rfl, rfl, rfl, rfl, rfl, fun hn => absurd hw hn, fun _ => ⟨?_, fun h0 => if_pos h0, ?_, ?_⟩⟩
    · simp
    · exact fun hl => legStatus_within hl _ _
    · exact fun hl => legStatus_over hl _ _
  · simp only [memRead_select_fails hw, State.replied, h, List.tail_cons]
    exact ⟨rfl, rfl, rfl, rfl, rfl, rfl, rfl, rfl, rfl, rfl, fun _ => ⟨trivial, rfl⟩, fun h0 => absurd h0 hw⟩

/-- A one-byte read the Transport answers with success: the byte at the offset. -/
theorem busRead_one {s : State} {d : Answer} {rs : List Reply} (h : s.replies = .answers d :: rs)
    (hd : d.Succeeds) (addr : Byte) (p : Pending) (k : Byte → List Byte → State → State) :
    ∃ u : State, busRead addr 1 p k s = k 0x00#8 [Memory.read (s.rf) addr.toNat] u ∧
      u.lastError = s.lastError ∧ u.busy = s.busy ∧ u.inbox = s.inbox ∧ u.outbox = s.outbox ∧ u.resetIn = s.resetIn ∧
      u.ramTop = s.ramTop ∧ u.gaps = s.gaps ∧ u.replies = rs ∧ u.tick = s.tick ∧ u.rf = s.rf ∧
      u.trace = s.trace ++ [.write addr [] 0x00#8, .read 1 [Memory.read (s.rf) addr.toNat] 0x00#8] := by
  obtain ⟨st, bytes, u, e, -, h1, h2, h3, h4, h5, h6, h7, h8, h9, h10, -, hs⟩ := busRead_run h addr 1 p k
  obtain ⟨ht, hb, hst, -⟩ := hs hd.1
  have hst : st = 0x00#8 := (hst (by omega)).trans hd.2
  subst hst
  rw [hb rfl] at e ht
  exact ⟨u, e, h1, h2, h3, h4, h5, h6, h7, h8, h9, h10, ht⟩

/-- A one-byte write the Transport answers with success. -/
theorem busWrite_one {s : State} {d : Answer} {rs : List Reply} (h : s.replies = .answers d :: rs)
    (hd : d.Succeeds) (addr b : Byte) (p : Pending) (k : Byte → State → State) :
    ∃ u : State, busWrite addr [b] p k s = k 0x00#8 u ∧
      u.lastError = s.lastError ∧ u.busy = s.busy ∧ u.inbox = s.inbox ∧ u.outbox = s.outbox ∧ u.resetIn = s.resetIn ∧
      u.ramTop = s.ramTop ∧ u.gaps = s.gaps ∧ u.replies = rs ∧ u.tick = s.tick ∧ u.trace = s.trace ++ [.write addr [b] 0x00#8] ∧
      u.rf = Memory.write (s.rf) addr.toNat b := by
  obtain ⟨st, u, e, h1, h2, h3, h4, h5, h6, h7, h8, h9, ht, hr, hst, -⟩ := busWrite_run h addr [b] p k
  have hst : st = 0x00#8 := (hst (by simp)).trans hd.1
  subst hst
  exact ⟨u, e, h1, h2, h3, h4, h5, h6, h7, h8, h9, ht, by simpa using hr⟩

/-- Everything a write transaction of a command can do: what the reply, the leg, the store and the pointer keep, and what the rest of the
command keeps, it keeps. -/
theorem busWrite_keeps {P : State → Prop} {addr : Byte} {v : List Byte} {p : Pending} {k : Byte → State → State} {s : State}
    (hreply : P s.replied) (hsuspend : ∀ t, P t → P (t.suspend p))
    (hleg : ∀ t d, P t → P (memWrite addr v d t).2) (hk : ∀ st t, P t → P (k st t)) : P (busWrite addr v p k s) := by
  unfold busWrite
  split
  · exact hsuspend _ hreply
  · exact hk _ _ (hleg _ _ hreply)

/-- Everything a read transaction of a command can do, in the same form; the rest of the command gets exactly `n` bytes. -/
theorem busRead_keeps {P : State → Prop} {addr : Byte} {n : Nat} {p : Pending} {k : Byte → List Byte → State → State} {s : State}
    (hreply : P s.replied) (hsuspend : ∀ t, P t → P (t.suspend p))
    (hleg : ∀ t d, P t → P (memRead addr n d t).2.2)
    (hk : ∀ st bytes t, bytes.length = n → P t → P (k st bytes t)) : P (busRead addr n p k s) := by
  unfold busRead
  split
  · exact hsuspend _ hreply
  · exact hk _ _ _ (memRead_bytes_length addr n _ _) (hleg _ _ hreply)

end Sys2Proof.Machine
end

