-- ==== Sys2Proof/Laws/Commands.lean ====
section
/-! SUPPORT. What a command can do, once for all of them: where it starts, and what it keeps. -/

namespace Sys2Proof.Machine

/-- The runs a busy Block's command may still store to (R38, R46). -/
def Pending.storedRuns : Pending → List (Nat × Nat)
  | .timeWrite v => [(0x00, v.length), (0x0F, 1)]
  | .blockWrite addr data => [(addr.toNat, data.length)]
  | .alarmWrite addr v => [(addr.toNat, v.length)]
  | .almieRead _ _ => [(0x0E, 1)]
  | .sqwRead _ => [(0x0E, 1)]
  | .controlWrite _ => [(0x0E, 1)]
  | .osfRead _ => [(0x0F, 1)]
  | .osfWrite _ _ => [(0x0F, 1)]
  | .consumeRead _ => [(0x0F, 1)]
  | .clearRead _ => [(0x0F, 1)]
  | .oscRead clear => if clear then [(0x0F, 1)] else []
  | .statusWrite _ => [(0x0F, 1)]
  | .rdtime => []
  | .getepoch => []
  | .blockRead _ _ => []
  | .peekRead _ => []
  | .tempLsb => []
  | .tempMsb _ => []

/-- A run the model starts is inside the space (R50). -/
theorem le_of_runRefusal {ramTop addr : Byte} {n : Nat} (h : runRefusal ramTop addr n = none) : addr.toNat + n ≤ 256 := by
  unfold runRefusal at h
  split at h
  · cases h
  · rename_i hn; exact Nat.le_of_not_lt hn

/-- The run is one the model starts exactly when it lies in the chip (R29, R50). -/
theorem runRefusal_none_iff (s : State) (addr : Byte) (n : Nat) : runRefusal s.ramTop addr n = none ↔ InChip s addr n := by
  have := s.ramTop.isLt
  unfold runRefusal InChip Config.regFileSize Config.ramBase
  split_ifs <;> simp only [false_iff, true_iff] <;> omega

/-- Every run a command may still store to is inside the space when the transaction that comes next is. -/
theorem Pending.storedRuns_le {p : Pending} {ramTop : Byte} (h : runRefusal ramTop p.run.1 p.run.2 = none) :
    ∀ run ∈ p.storedRuns, run.1 + run.2 ≤ 256 := by
  have h := le_of_runRefusal h
  cases p
  case oscRead clear => (cases clear; all_goals simp [Pending.storedRuns])
  all_goals simp_all [Pending.storedRuns, Pending.run]

/-- How many transactions a busy Block's command still has, at most, the next one included (R60). -/
def Pending.transactionsLeft : Pending → Nat
  | .timeWrite _ => 3
  | .osfRead _ => 2
  | .osfWrite _ _ => 1
  | .blockWrite _ _ => 1
  | .alarmWrite _ _ => 1
  | .almieRead _ _ => 2
  | .sqwRead _ => 2
  | .controlWrite _ => 1
  | .consumeRead _ => 2
  | .clearRead _ => 2
  | .oscRead _ => 2
  | .statusWrite _ => 1
  | .rdtime => 1
  | .getepoch => 1
  | .blockRead _ _ => 1
  | .peekRead _ => 1
  | .tempLsb => 2
  | .tempMsb _ => 1

/-- The transaction `p` with the answer `d` takes `s` to `u`: a write of one of the runs `p` may store to, or a read (R46, R47). -/
def Pending.Transacts (p : Pending) (s : State) (d : Answer) (u : State) : Prop :=
  (∃ (addr : Byte) (v : List Byte), p.run = (addr, v.length) ∧ (addr.toNat, v.length) ∈ p.storedRuns ∧
    u = (memWrite addr v d s.replied).2) ∨
  u = (memRead p.run.1 p.run.2 d s.replied).2.2

/-- The command `p` is in may go on with the transaction `q`: it lies inside every chip, stores to no other runs and comes later. -/
def Pending.GoesOnWith (p q : Pending) : Prop :=
  q.run.1.toNat + q.run.2 ≤ 21 ∧ (∀ run ∈ q.storedRuns, run ∈ p.storedRuns) ∧ q.transactionsLeft < p.transactionsLeft ∧
    q ≠ .rdtime ∧ q ≠ .getepoch

/-- Everything a step of a busy Block can do: nothing, when the Transport is silent; else its transaction, and then either another one
comes next, or the command ends with its response, a failed time read having left its status in `lastError`. -/
theorem resume_cases (p : Pending) (s : State) :
    (s.reply = .silent ∧ resume p s = s.replied.suspend p) ∨
      ∃ (d : Answer) (u : State), s.reply = .answers d ∧ p.Transacts s d u ∧
        ((∃ q, p.GoesOnWith q ∧ resume p s = u.suspend q) ∨
          (∃ r, (∀ st, r = .err st → st ≠ 0x00#8) ∧ resume p s = u.respond r) ∨
          ∃ (st : Byte) (r : Response), (p = .rdtime ∨ p = .getepoch) ∧ st ≠ 0x00#8 ∧ (∀ st', r = .err st' → st' ≠ 0x00#8) ∧
            resume p s = (u.setLastError st).respond r) := by
  have S : ∀ st st', statusResponse st = .err st' → st' ≠ 0x00#8 := by
    intro st st' e
    unfold statusResponse at e
    split at e
    · cases e
    · rename_i hne; cases e; exact hne
  have W : ∀ (addr : Byte) (v : List Byte) (q : Pending) (k : Byte → State → State) (d : Answer), s.reply = .answers d →
      busWrite addr v q k s = k (memWrite addr v d s.replied).1 (memWrite addr v d s.replied).2 := by
    intro addr v q k d e; simp only [busWrite, e]
  have R : ∀ (addr : Byte) (n : Nat) (q : Pending) (k : Byte → List Byte → State → State) (d : Answer), s.reply = .answers d →
      busRead addr n q k s = k (memRead addr n d s.replied).1 (memRead addr n d s.replied).2.1 (memRead addr n d s.replied).2.2 := by
    intro addr n q k d e; simp only [busRead, e]
  rcases e : s.reply with d | _
  case silent =>
    refine .inl ⟨rfl, ?_⟩
    cases p <;> simp only [resume, rdtimeRead, getepochRead, timeWrite, osfRead, osfWrite, blockWrite, blockRead, alarmWrite, almieRead,
      sqwRead, controlWrite, peekRead, consumeRead, clearRead, oscRead, statusWrite, tempLsb, tempMsb, busRead, busWrite, e]
  replace W := fun addr v q k => W addr v q k d e
  replace R := fun addr n q k => R addr n q k d e
  cases p <;> simp only [resume, rdtimeRead, getepochRead, timeWrite, osfRead, osfWrite, blockWrite, blockRead, alarmWrite, almieRead,
    sqwRead, controlWrite, peekRead, consumeRead, clearRead, oscRead, statusWrite, tempLsb, tempMsb, consumeStatus, clearStatus, oscStatus,
    W, R]
  case rdtime =>
    refine .inr ⟨d, _, rfl, .inr rfl, .inr ?_⟩
    dsimp only [Pending.run]
    split
    · exact .inl ⟨_, by simp, rfl⟩
    · rename_i hne; exact .inr ⟨_, _, by simp, hne, fun _ h => by cases h; exact hne, rfl⟩
  case getepoch =>
    refine .inr ⟨d, _, rfl, .inr rfl, .inr ?_⟩
    dsimp only [Pending.run]
    split
    · exact .inl ⟨_, by simp, rfl⟩
    · rename_i hne; exact .inr ⟨_, _, by simp, hne, by simp, rfl⟩
  case timeWrite v => exact .inr ⟨d, _, rfl, .inl ⟨_, _, rfl, by simp [Pending.storedRuns], rfl⟩, .inl ⟨_, by simp [Pending.GoesOnWith, Pending.run, Pending.storedRuns, Pending.transactionsLeft], rfl⟩⟩
  case osfRead => exact .inr ⟨d, _, rfl, .inr rfl, .inl ⟨_, by simp [Pending.GoesOnWith, Pending.run, Pending.storedRuns, Pending.transactionsLeft], rfl⟩⟩
  case osfWrite => exact .inr ⟨d, _, rfl, .inl ⟨_, _, rfl, by simp [Pending.storedRuns], rfl⟩, .inr (.inl ⟨_, S _, rfl⟩)⟩
  case blockWrite => exact .inr ⟨d, _, rfl, .inl ⟨_, _, rfl, by simp [Pending.storedRuns], rfl⟩, .inr (.inl ⟨_, S _, rfl⟩)⟩
  case blockRead =>
    refine .inr ⟨d, _, rfl, .inr rfl, .inr (.inl ?_)⟩
    dsimp only [Pending.run]
    split
    · exact ⟨_, by simp, rfl⟩
    · rename_i hne; exact ⟨_, fun _ h => by cases h; exact hne, rfl⟩
  case alarmWrite => exact .inr ⟨d, _, rfl, .inl ⟨_, _, rfl, by simp [Pending.storedRuns], rfl⟩, .inr (.inl ⟨_, by simp, rfl⟩)⟩
  case almieRead => exact .inr ⟨d, _, rfl, .inr rfl, .inl ⟨_, by simp [Pending.GoesOnWith, Pending.run, Pending.storedRuns, Pending.transactionsLeft], rfl⟩⟩
  case sqwRead => exact .inr ⟨d, _, rfl, .inr rfl, .inl ⟨_, by simp [Pending.GoesOnWith, Pending.run, Pending.storedRuns, Pending.transactionsLeft], rfl⟩⟩
  case controlWrite => exact .inr ⟨d, _, rfl, .inl ⟨_, _, rfl, by simp [Pending.storedRuns], rfl⟩, .inr (.inl ⟨_, by simp, rfl⟩)⟩
  case peekRead => exact .inr ⟨d, _, rfl, .inr rfl, .inr (.inl ⟨_, by simp, rfl⟩)⟩
  case consumeRead =>
    refine .inr ⟨d, _, rfl, .inr rfl, ?_⟩
    dsimp only [Pending.run]
    split
    · exact .inl ⟨_, by simp [Pending.GoesOnWith, Pending.run, Pending.storedRuns, Pending.transactionsLeft], rfl⟩
    · exact .inr (.inl ⟨_, by simp, rfl⟩)
  case clearRead =>
    refine .inr ⟨d, _, rfl, .inr rfl, ?_⟩
    dsimp only [Pending.run]
    split
    · exact .inl ⟨_, by simp [Pending.GoesOnWith, Pending.run, Pending.storedRuns, Pending.transactionsLeft], rfl⟩
    · exact .inr (.inl ⟨_, by simp, rfl⟩)
  case oscRead c =>
    refine .inr ⟨d, _, rfl, .inr rfl, ?_⟩
    dsimp only [Pending.run]
    split
    · rename_i h
      exact .inl ⟨_, by simp [Pending.GoesOnWith, Pending.run, Pending.storedRuns, Pending.transactionsLeft, (Bool.and_eq_true _ _ ▸ h).2], rfl⟩
    · exact .inr (.inl ⟨_, by simp, rfl⟩)
  case statusWrite => exact .inr ⟨d, _, rfl, .inl ⟨_, _, rfl, by simp [Pending.storedRuns], rfl⟩, .inr (.inl ⟨_, by simp, rfl⟩)⟩
  case tempLsb => exact .inr ⟨d, _, rfl, .inr rfl, .inl ⟨_, by simp [Pending.GoesOnWith, Pending.run, Pending.storedRuns, Pending.transactionsLeft], rfl⟩⟩
  case tempMsb => exact .inr ⟨d, _, rfl, .inr rfl, .inr (.inl ⟨_, by simp, rfl⟩)⟩

/-- Everything a step of a busy Block can do, as a rule: what the reply taken, the legs, the stores to the command's own runs, a response,
the next transaction and a non-zero `lastError` keep, the step keeps. -/
theorem resume_keeps {P : State → Prop} (p : Pending) {s : State} (hs : P s.replied) (hsuspend : ∀ q t, q = p ∨ p.GoesOnWith q → P t → P (t.suspend q))
    (hstore : ∀ (a : Byte) (v : List Byte) (t : State) (d : Answer), p.run = (a, v.length) → (a.toNat, v.length) ∈ p.storedRuns → P t →
      P (memWrite a v d t).2)
    (hread : ∀ t d, P t → P (memRead p.run.1 p.run.2 d t).2.2)
    (hrespond : ∀ r t, P t → (∀ st, r = .err st → st ≠ 0x00#8) → P (t.respond r))
    (herror : ∀ st t, p = .rdtime ∨ p = .getepoch → st ≠ 0x00#8 → P t → P (t.setLastError st)) : P (resume p s) := by
  rcases resume_cases p s with ⟨-, e⟩ | ⟨d, u, -, hu, h⟩
  · exact e ▸ hsuspend p _ (.inl rfl) hs
  · have hu : P u := by
      rcases hu with ⟨a, v, hr, hm, rfl⟩ | rfl
      · exact hstore a v _ d hr hm hs
      · exact hread _ d hs
    rcases h with ⟨q, hq, e⟩ | ⟨r, hr, e⟩ | ⟨st, r, hp, hst, hr, e⟩
    · exact e ▸ hsuspend q _ (.inr hq) hu
    · exact e ▸ hrespond r _ hu hr
    · exact e ▸ hrespond r _ (herror st _ hp hst hu) hr

/-- What a command that gives a next state does: it answers at once, or it runs its first transaction, inside the chip. The runs it may
store to are those of `storedRuns`, its transactions no more than `maxTransactions`. -/
theorem exec_next {i : Instr} {s t : State} (h : exec i s = .next t) :
    (∃ r, (∀ st, r ≠ .err st) ∧ t = s.respond r) ∨
      ∃ p : Pending, runRefusal s.ramTop p.run.1 p.run.2 = none ∧ p.storedRuns = Sys2Proof.Machine.storedRuns i ∧
        (p = .rdtime ∨ p = .getepoch → i = .rdtime ∨ i = .getepoch) ∧ p.transactionsLeft ≤ i.maxTransactions ∧ t = resume p s ∧
        ∀ u : State, u.ramTop = s.ramTop → exec i u = .next (resume p u) := by
  have low : ∀ (a : Byte) (n : Nat), a.toNat + n ≤ 21 → runRefusal s.ramTop a n = none := by
    intro a n ha
    rw [runRefusal_none_iff]
    unfold InChip
    omega
  cases i <;> simp only [exec] at h
  case dec2bcd n => cases h; exact .inl ⟨_, by simp, rfl⟩
  case bcd2dec b => cases h; exact .inl ⟨_, by simp, rfl⟩
  case geterr => cases h; exact .inl ⟨_, by simp, rfl⟩
  case rdtime => cases h; exact .inr ⟨.rdtime, low _ _ (by simp [Pending.run]), rfl, by simp, Nat.le_refl _, rfl, fun _ _ => rfl⟩
  case getepoch => cases h; exact .inr ⟨.getepoch, low _ _ (by simp [Pending.run]), rfl, by simp, Nat.le_refl _, rfl, fun _ _ => rfl⟩
  case wrtime c => cases h; exact .inr ⟨.timeWrite (packTime c), low _ _ (by simp [Pending.run, packTime]), rfl, by simp, Nat.le_refl _, rfl, fun _ _ => rfl⟩
  case setepoch e => cases h; exact .inr ⟨.timeWrite (packTime (Config.epochToCal e)), low _ _ (by simp [Pending.run, packTime]), rfl, by simp, Nat.le_refl _, rfl, fun _ _ => rfl⟩
  case temp => cases h; exact .inr ⟨.tempLsb, low _ _ (by simp [Pending.run]), rfl, by simp, Nat.le_refl _, rfl, fun _ _ => rfl⟩
  case wrblk a d =>
    simp only [execWrblk, ifInChip] at h
    split at h
    · cases h; exact .inl ⟨.illegal, by simp, rfl⟩
    · rename_i hl
      split at h
      · cases h
      · rename_i hn; cases h; exact .inr ⟨.blockWrite a d, hn, rfl, by simp, Nat.le_refl _, rfl, fun u hu => by
          simp only [exec, execWrblk, ifInChip, if_neg hl, hu, hn, resume]⟩
  case rdblk a c =>
    simp only [execRdblk, ifInChip] at h
    split at h
    · cases h; exact .inl ⟨.illegal, by simp, rfl⟩
    · rename_i hl
      split at h
      · cases h
      · rename_i hn; cases h; exact .inr ⟨.blockRead a c.toNat, hn, rfl, by simp, Nat.le_refl _, rfl, fun u hu => by simp [exec, execRdblk, ifInChip, hl, hu, hn, resume]⟩
  case wrbyte a v =>
    simp only [execWrbyte, ifInChip] at h
    split at h
    · cases h
    · rename_i hn; cases h; exact .inr ⟨.blockWrite a [v], hn, rfl, by simp, Nat.le_refl _, rfl, fun u hu => by simp [exec, execWrbyte, ifInChip, hu, hn, resume]⟩
  case rdbyte a =>
    simp only [execRdbyte, ifInChip] at h
    split at h
    · cases h
    · rename_i hn; cases h; exact .inr ⟨.blockRead a 1, hn, rfl, by simp, Nat.le_refl _, rfl, fun u hu => by simp [exec, execRdbyte, ifInChip, hu, hn, resume]⟩
  case setalm ty sec m hr d =>
    simp only [execSetalm] at h
    split at h
    · cases h; exact .inl ⟨.illegal, by simp, rfl⟩
    · rename_i k hk
      cases h
      exact .inr ⟨.alarmWrite (packAlarm k sec m hr d).1 (packAlarm k sec m hr d).2, low _ _ (by cases k <;> simp [Pending.run, packAlarm, AlarmType.code]),
        by simp [Pending.storedRuns, Sys2Proof.Machine.storedRuns, hk], by simp, Nat.le_refl _, rfl, fun u _ => by simp [exec, execSetalm, hk, resume]⟩
  case setalm3 ty m hr d =>
    simp only [execSetalm3] at h
    split at h
    · cases h; exact .inl ⟨.illegal, by simp, rfl⟩
    · rename_i k hk
      cases h
      exact .inr ⟨.alarmWrite (packAlarm k 0x00#8 m hr d).1 (packAlarm k 0x00#8 m hr d).2, low _ _ (by cases k <;> simp [Pending.run, packAlarm, AlarmType.code]),
        by simp [Pending.storedRuns, Sys2Proof.Machine.storedRuns, hk], by simp, Nat.le_refl _, rfl, fun u _ => by simp [exec, execSetalm3, hk, resume]⟩
  case almie w e =>
    simp only [execAlmie] at h
    split at h
    · rename_i k b hk hb
      cases h
      exact .inr ⟨.almieRead k b, low _ _ (by simp [Pending.run]), rfl, by simp, Nat.le_refl _, rfl, fun u _ => by simp [exec, execAlmie, hk, hb, resume]⟩
    · cases h; exact .inl ⟨.illegal, by simp, rfl⟩
  case almconsume w =>
    simp only [execAlmconsume] at h
    split at h
    · cases h; exact .inl ⟨.illegal, by simp, rfl⟩
    · rename_i k hk
      cases h
      exact .inr ⟨.consumeRead k, low _ _ (by simp [Pending.run]), rfl, by simp, Nat.le_refl _, rfl, fun u _ => by simp [exec, execAlmconsume, hk, resume]⟩
  case almpeek w =>
    simp only [execAlmpeek] at h
    split at h
    · cases h; exact .inl ⟨.illegal, by simp, rfl⟩
    · rename_i k hk
      cases h
      exact .inr ⟨.peekRead k, low _ _ (by simp [Pending.run]), rfl, by simp, Nat.le_refl _, rfl, fun u _ => by simp [exec, execAlmpeek, hk, resume]⟩
  case almclear w =>
    simp only [execAlmclear] at h
    split at h
    · cases h; exact .inl ⟨.illegal, by simp, rfl⟩
    · rename_i k hk
      cases h
      exact .inr ⟨.clearRead k, low _ _ (by simp [Pending.run]), rfl, by simp, Nat.le_refl _, rfl, fun u _ => by simp [exec, execAlmclear, hk, resume]⟩
  case sqwset f =>
    simp only [execSqwset] at h
    split at h
    · cases h; exact .inl ⟨.illegal, by simp, rfl⟩
    · rename_i k hk
      cases h
      exact .inr ⟨.sqwRead k, low _ _ (by simp [Pending.run]), rfl, by simp, Nat.le_refl _, rfl, fun u _ => by simp [exec, execSqwset, hk, resume]⟩
  case oscstop c =>
    simp only [execOscstop] at h
    split at h
    · cases h; exact .inl ⟨.illegal, by simp, rfl⟩
    · rename_i b hb
      cases h
      exact .inr ⟨.oscRead b, low _ _ (by simp [Pending.run]),
        by cases b <;> simp [Pending.storedRuns, Sys2Proof.Machine.storedRuns, hb], by simp, Nat.le_refl _, rfl, fun u _ => by simp [exec, execOscstop, hb, resume]⟩

/-- Everything a step that gives a next state does: the reset; or, after the gap, the transaction that comes next, the wait, a response at
once, or a command's first transaction. -/
theorem step_next {s t : State} (h : step s = .next t) :
    (s.resetIn = true ∧ t = s.blockReset) ∨
      (s.resetIn = false ∧ ∃ p, s.busy = some p ∧ runRefusal s.ramTop p.run.1 p.run.2 = none ∧ t = resume p s.afterGap) ∨
      (s.resetIn = false ∧ s.busy = none ∧
        (t = s.afterGap ∨ (∃ bs r, (∀ st, r ≠ .err st) ∧ t = (s.afterGap.setInbox bs).respond r) ∨
          ∃ bs p, runRefusal s.ramTop p.run.1 p.run.2 = none ∧ t = resume p (s.afterGap.setInbox bs))) := by
  unfold step at h
  split at h
  · rename_i hr; cases h; exact .inl ⟨hr, rfl⟩
  · rename_i hr
    have hr : s.resetIn = false := by simpa using hr
    simp only [stepBlock, State.afterGap_busy, State.afterGap_inbox] at h
    split at h
    · rename_i p hp
      unfold stepBusy at h
      split at h
      · cases h
      · rename_i hn; cases h; exact .inr (.inl ⟨hr, p, hp, hn, rfl⟩)
    · rename_i hb
      refine .inr (.inr ⟨hr, hb, ?_⟩)
      split at h
      · cases h; exact .inl rfl
      · cases h; exact .inr (.inl ⟨_, .illegal, by simp, rfl⟩)
      · rcases exec_next h with ⟨r, hr', rfl⟩ | ⟨p, hp, -, -, -, rfl, -⟩
        · exact .inr (.inl ⟨_, r, hr', rfl⟩)
        · exact .inr (.inr ⟨_, p, hp, rfl⟩)

/-- A step of a busy Block, when it is not reset and its next transaction lies inside the chip. -/
theorem step_busy {s : State} {p : Pending} (hr : s.resetIn = false) (hb : s.busy = some p)
    (hp : runRefusal s.ramTop p.run.1 p.run.2 = none) : step s = .next (resume p s.afterGap) := by
  simp [step, hr, stepBlock, hb, stepBusy, hp]

/-- A transaction on the registers below 0x15 lies inside every chip (R6). -/
theorem runRefusal_low (ramTop addr : Byte) (n : Nat) (h : addr.toNat + n ≤ 21) : runRefusal ramTop addr n = none := by
  unfold runRefusal Config.regFileSize Config.ramBase
  rw [if_neg (by omega), if_pos (by omega)]

end Sys2Proof.Machine
end

