-- ==== Sys2Proof/Laws/Decode.lean ====
section
/-! SUPPORT. The byte order of the multi-byte operands (R64) and the opcode map (R66), once each. -/

namespace Sys2Proof

/-- The 16-bit operand as a number: the first byte is the low one (R64). -/
theorem half_toNat (lo hi : Byte) : (half lo hi).toNat = 256 * hi.toNat + lo.toNat := by
  have h := BitVec.toNat_append hi lo
  rw [Nat.shiftLeft_eq, Nat.mul_comm, Nat.mul_comm, ← Nat.shiftLeft_eq, ← Nat.shiftLeft_add_eq_or_of_lt lo.isLt,
    Nat.shiftLeft_eq, Nat.mul_comm] at h
  exact h

/-- The 32-bit operand as a number: the first byte is the lowest (R64, R79). -/
theorem word_toNat (e0 e1 e2 e3 : Byte) :
    (word e0 e1 e2 e3).toNat = 256 * (256 * (256 * e3.toNat + e2.toNat) + e1.toNat) + e0.toNat := by
  have step : ∀ (n : Nat) (x : BitVec n) (b : Byte), (x ++ b).toNat = 256 * x.toNat + b.toNat := by
    intro n x b
    rw [BitVec.toNat_append, ← Nat.shiftLeft_add_eq_or_of_lt b.isLt, Nat.shiftLeft_eq, Nat.mul_comm]
  have h := step _ (e3 ++ e2 ++ e1) e0
  rw [step _ (e3 ++ e2) e1, step _ e3 e2] at h
  exact h

/-- Sending a 16-bit operand's bytes and reading them back. -/
@[simp] theorem half_le16 (h : Half) : half (h.extractLsb' 0 8) (h.extractLsb' 8 8) = h := by
  apply BitVec.eq_of_toNat_eq
  rw [half_toNat]
  have := h.isLt
  simp only [BitVec.extractLsb'_toNat, Nat.shiftRight_eq_div_pow]
  omega

/-- Reading a 16-bit operand's bytes and sending them again. -/
@[simp] theorem le16_half (lo hi : Byte) : le16 (half lo hi) = [lo, hi] := by
  have := lo.isLt
  have := hi.isLt
  simp only [le16, List.cons.injEq, and_true]
  constructor <;> apply BitVec.eq_of_toNat_eq <;>
    simp only [BitVec.extractLsb'_toNat, half_toNat, Nat.shiftRight_eq_div_pow] <;> omega

/-- Sending a 32-bit operand's bytes and reading them back. -/
@[simp] theorem word_le32 (w : Word) :
    word (w.extractLsb' 0 8) (w.extractLsb' 8 8) (w.extractLsb' 16 8) (w.extractLsb' 24 8) = w := by
  apply BitVec.eq_of_toNat_eq
  rw [word_toNat]
  have := w.isLt
  simp only [BitVec.extractLsb'_toNat, Nat.shiftRight_eq_div_pow]
  omega

/-- Reading a 32-bit operand's bytes and sending them again. -/
@[simp] theorem le32_word (e0 e1 e2 e3 : Byte) : le32 (word e0 e1 e2 e3) = [e0, e1, e2, e3] := by
  have := e0.isLt
  have := e1.isLt
  have := e2.isLt
  have := e3.isLt
  simp only [le32, List.cons.injEq, and_true]
  refine ⟨?_, ?_, ?_, ?_⟩ <;> apply BitVec.eq_of_toNat_eq <;>
    simp only [BitVec.extractLsb'_toNat, word_toNat, Nat.shiftRight_eq_div_pow] <;> omega

/-- The opcode byte stands for its opcode (R66). -/
@[simp] theorem Opcode.ofByte_code (o : Opcode) : Opcode.ofByte o.code = some o := by
  cases o <;> decide

/-- Only the opcode byte does: no two rows of R66 share one. -/
theorem Opcode.code_of_ofByte {b : Byte} {o : Opcode} (h : Opcode.ofByte b = some o) : o.code = b := by
  simpa using List.find?_some h

end Sys2Proof
end

