-- ==== Sys2Proof/Laws/PerInstr.lean ====
section
/-! SUPPORT. The per-instruction family: the packet of a legal command is as long as its opcode (and for WRBLK byte 2) says, R67. -/

namespace Sys2Proof

/-- What follows a legal command's packet does not change its length. -/
def Laws.EncodedLength.Statement (i : Instr) : Prop :=
  i.wellFormed = true → ∀ rest : List Byte, packetLength (encode i ++ rest) = some (encode i).length

/-- The length for every opcode but WRBLK's: one byte, and the operand bytes of the format. -/
theorem Laws.EncodedLength.fixed {i : Instr} (hw : i.opcode ≠ .wrblk) (ho : i.operands.length = i.opcode.operandBytes) :
    Laws.EncodedLength.Statement i := by
  intro _ rest
  simp [encode, packetLength, ho, Nat.add_comm]

theorem Laws.EncodedLength.dec2bcd (n : Byte) : Laws.EncodedLength.Statement (.dec2bcd n) :=
  Laws.EncodedLength.fixed (by simp [Instr.opcode]) rfl

theorem Laws.EncodedLength.bcd2dec (b : Byte) : Laws.EncodedLength.Statement (.bcd2dec b) :=
  Laws.EncodedLength.fixed (by simp [Instr.opcode]) rfl

theorem Laws.EncodedLength.rdtime : Laws.EncodedLength.Statement (.rdtime) :=
  Laws.EncodedLength.fixed (by simp [Instr.opcode]) rfl

theorem Laws.EncodedLength.wrtime (t : CalendarTime) : Laws.EncodedLength.Statement (.wrtime t) :=
  Laws.EncodedLength.fixed (by simp [Instr.opcode]) rfl

theorem Laws.EncodedLength.getepoch : Laws.EncodedLength.Statement (.getepoch) :=
  Laws.EncodedLength.fixed (by simp [Instr.opcode]) rfl

theorem Laws.EncodedLength.setepoch (e : Word) : Laws.EncodedLength.Statement (.setepoch e) :=
  Laws.EncodedLength.fixed (by simp [Instr.opcode]) rfl

theorem Laws.EncodedLength.rdblk (a c : Byte) : Laws.EncodedLength.Statement (.rdblk a c) :=
  Laws.EncodedLength.fixed (by simp [Instr.opcode]) rfl

theorem Laws.EncodedLength.wrbyte (a v : Byte) : Laws.EncodedLength.Statement (.wrbyte a v) :=
  Laws.EncodedLength.fixed (by simp [Instr.opcode]) rfl

theorem Laws.EncodedLength.rdbyte (a : Byte) : Laws.EncodedLength.Statement (.rdbyte a) :=
  Laws.EncodedLength.fixed (by simp [Instr.opcode]) rfl

theorem Laws.EncodedLength.setalm (ty s m h d : Byte) : Laws.EncodedLength.Statement (.setalm ty s m h d) :=
  Laws.EncodedLength.fixed (by simp [Instr.opcode]) rfl

theorem Laws.EncodedLength.setalm3 (ty m h d : Byte) : Laws.EncodedLength.Statement (.setalm3 ty m h d) :=
  Laws.EncodedLength.fixed (by simp [Instr.opcode]) rfl

theorem Laws.EncodedLength.almie (w e : Byte) : Laws.EncodedLength.Statement (.almie w e) :=
  Laws.EncodedLength.fixed (by simp [Instr.opcode]) rfl

theorem Laws.EncodedLength.almconsume (w : Byte) : Laws.EncodedLength.Statement (.almconsume w) :=
  Laws.EncodedLength.fixed (by simp [Instr.opcode]) rfl

theorem Laws.EncodedLength.almpeek (w : Byte) : Laws.EncodedLength.Statement (.almpeek w) :=
  Laws.EncodedLength.fixed (by simp [Instr.opcode]) rfl

theorem Laws.EncodedLength.almclear (w : Byte) : Laws.EncodedLength.Statement (.almclear w) :=
  Laws.EncodedLength.fixed (by simp [Instr.opcode]) rfl

theorem Laws.EncodedLength.sqwset (f : Byte) : Laws.EncodedLength.Statement (.sqwset f) :=
  Laws.EncodedLength.fixed (by simp [Instr.opcode]) rfl

theorem Laws.EncodedLength.oscstop (c : Byte) : Laws.EncodedLength.Statement (.oscstop c) :=
  Laws.EncodedLength.fixed (by simp [Instr.opcode]) rfl

theorem Laws.EncodedLength.temp : Laws.EncodedLength.Statement (.temp) :=
  Laws.EncodedLength.fixed (by simp [Instr.opcode]) rfl

theorem Laws.EncodedLength.geterr : Laws.EncodedLength.Statement (.geterr) :=
  Laws.EncodedLength.fixed (by simp [Instr.opcode]) rfl

/-- WRBLK: three bytes and as many as byte 2 says (R82). -/
theorem Laws.EncodedLength.wrblk (a : Byte) (d : List Byte) : Laws.EncodedLength.Statement (.wrblk a d) := by
  intro h rest
  have hd : d.length ≤ 255 := by
    by_contra hn
    have : ¬ d.length = 0 := by omega
    simp [Instr.wellFormed, Instr.illegalOperand, this, show 255 < d.length by omega] at h
  have ho : Opcode.ofByte Opcode.wrblk.code = some .wrblk := Opcode.ofByte_code .wrblk
  simp [encode, Instr.opcode, Instr.operands, packetLength, ho, Nat.mod_eq_of_lt (show d.length < 256 by omega)]
  omega

end Sys2Proof
end

