-- ==== Sys2Proof/Tests/Slice0.lean ====
section
/-! SUPPORT. Tests: ill-formed commands, packets written out from the formats, one step per command with the results of
spec/95_test_vectors.md, and for every obligation with hypotheses a witness that meets them. -/

namespace Sys2Proof.Tests

open Sys2Proof Sys2Proof.Machine

/-! ### Helpers -/

/-- Both legs succeed. -/
def good : Answer := ⟨0x00#8, 0x00#8, 0, []⟩

/-- A write leg, or the address-select leg of a read, fails with 3; a write has stored one byte. -/
def badWrite : Answer := ⟨0x03#8, 0x00#8, 1, []⟩

/-- The read leg fails with 4 and returned 0x81 first. -/
def badRead : Answer := ⟨0x00#8, 0x04#8, 0, [0x81#8]⟩

/-- A machine with a full-size chip, the given register file and the given replies, whose Chip takes no step in the next four gaps. -/
def board (rf : Memory) (replies : List Reply) : State :=
  { State.reset with rf := rf, ramTop := 0xFF#8, gaps := [[], [], [], []], replies := replies }

/-- The same machine with a packet sent. -/
def sent (packet : List Byte) (rf : Memory) (replies : List Reply) : State := { board rf replies with inbox := packet }

/-- The same machine busy, with the transaction `p` next. -/
def busyAt (p : Pending) (rf : Memory) (replies : List Reply) : State := { board rf replies with busy := some p }

/-- The step gives a next state of which `p` holds. -/
def after (s : State) (p : State → Bool) : Bool :=
  match step s with
  | .next t => p t
  | .fault _ => false
  | .refused _ => false

/-- The command gives a next state of which `p` holds. -/
def ran (i : Instr) (s : State) (p : State → Bool) : Bool :=
  match exec i s with
  | .next t => p t
  | .fault _ => false
  | .refused _ => false


/-- The bytes of the time registers of vector 2.2, row 3: 30, 48, 13, weekday 2, 9, 11, 2026. -/
def clock : Memory := [(0, 0x30#8), (1, 0x48#8), (2, 0x13#8), (3, 0x02#8), (4, 0x09#8), (5, 0x11#8), (6, 0x26#8)]

/-! ### WellFormed: one ill-formed command for each check -/

theorem test_illformed_which : (Instr.almpeek 0x00#8).illegalOperand = some .which := by decide
theorem test_illformed_boolean : (Instr.oscstop 0x02#8).illegalOperand = some .boolean := by decide
theorem test_illformed_alarmType : (Instr.setalm 0x02#8 0#8 0#8 0#8 0#8).illegalOperand = some .alarmType := by decide
theorem test_illformed_frequency : (Instr.sqwset 0x05#8).illegalOperand = some .frequency := by decide
theorem test_illformed_zeroLength : (Instr.wrblk 0x14#8 []).illegalOperand = some .zeroLength := by decide
theorem test_illformed_tooLong : (Instr.wrblk 0x00#8 (List.replicate 256 0#8)).illegalOperand = some .tooLong := by
  simp only [Instr.illegalOperand, List.length_replicate]; decide
theorem test_illformed_refused : (Instr.rdblk 0x14#8 0x00#8).wellFormed = false ∧ (Instr.almie 0x01#8 0x02#8).wellFormed = false ∧
    (Instr.almie 0x03#8 0x01#8).wellFormed = false ∧ (Instr.setalm3 0xFF#8 0#8 0#8 0#8).wellFormed = false := by decide

/-! ### Decoding: packets written out from the formats (R76 to R82, 95 §2.6) -/

theorem test_decode_dec2bcd : decode [0x01#8, 0x2D#8] = .packet (.dec2bcd 45#8) [] := by decide
theorem test_decode_bcd2dec : decode [0x02#8, 0x59#8] = .packet (.bcd2dec 0x59#8) [] := by decide
theorem test_decode_rdtime_geterr : decode [0x10#8, 0x43#8] = .packet .rdtime [0x43#8] ∧ decode [0x43#8] = .packet .geterr [] := by decide
theorem test_decode_getepoch_temp : decode [0x12#8] = .packet .getepoch [] ∧ decode [0x42#8] = .packet .temp [] := by decide
theorem test_decode_wrtime : decode [0x11#8, 0x1E#8, 0x30#8, 0x0D#8, 0x02#8, 0x09#8, 0x0B#8, 0xEA#8, 0x07#8] =
    .packet (.wrtime ⟨30#8, 48#8, 13#8, 2#8, 9#8, 11#8, 2026#16⟩) [] := by decide
theorem test_decode_setepoch : decode [0x13#8, 0x00#8, 0x5E#8, 0x0B#8, 0x39#8] = .packet (.setepoch 0x390B5E00#32) [] := by decide
theorem test_decode_wrblk : decode [0x20#8, 0x14#8, 0x02#8, 0xDE#8, 0xAD#8] = .packet (.wrblk 0x14#8 [0xDE#8, 0xAD#8]) [] := by decide
theorem test_decode_rdblk_wrbyte : decode [0x21#8, 0x14#8, 0x02#8] = .packet (.rdblk 0x14#8 0x02#8) [] ∧
    decode [0x22#8, 0x0E#8, 0x04#8] = .packet (.wrbyte 0x0E#8 0x04#8) [] := by decide
theorem test_decode_rdbyte : decode [0x23#8, 0x0F#8] = .packet (.rdbyte 0x0F#8) [] := by decide
theorem test_decode_setalm : decode [0x30#8, 0x01#8, 0x1E#8, 0x00#8, 0x00#8, 0x01#8] =
    .packet (.setalm 0x01#8 30#8 0#8 0#8 1#8) [] := by decide
theorem test_decode_setalm3 : decode [0x31#8, 0x86#8, 0x0F#8, 0x07#8, 0x01#8] = .packet (.setalm3 0x86#8 15#8 7#8 1#8) [] := by decide
theorem test_decode_alarm_commands : decode [0x32#8, 0x01#8, 0x00#8] = .packet (.almie 0x01#8 0x00#8) [] ∧
    decode [0x33#8, 0x01#8] = .packet (.almconsume 0x01#8) [] ∧ decode [0x34#8, 0x02#8] = .packet (.almpeek 0x02#8) [] ∧
    decode [0x35#8, 0x02#8] = .packet (.almclear 0x02#8) [] := by decide
theorem test_decode_auxiliary : decode [0x40#8, 0x04#8] = .packet (.sqwset 0x04#8) [] ∧
    decode [0x41#8, 0x01#8] = .packet (.oscstop 0x01#8) [] := by decide
theorem test_decode_illegal_opcodes : [0x00#8, 0x03#8, 0x14#8, 0x36#8, 0x44#8, 0xFF#8].map (fun b => decode [b, 0x10#8]) =
    [.illegalOpcode 0x00#8 [0x10#8], .illegalOpcode 0x03#8 [0x10#8], .illegalOpcode 0x14#8 [0x10#8],
      .illegalOpcode 0x36#8 [0x10#8], .illegalOpcode 0x44#8 [0x10#8], .illegalOpcode 0xFF#8 [0x10#8]] := by decide
theorem test_decode_waits : decode [] = .incomplete ∧ decode [0x20#8, 0x14#8, 0x02#8, 0xDE#8] = .incomplete ∧
    decode [0x11#8, 0x1E#8] = .incomplete := by decide
theorem test_decode_table_word : decodeTableWord 8 0x44 = none ∧ decodeTableWord 24 0x021421 = some (.rdblk 0x14#8 0x02#8) ∧
    decodeTableWord 8 0x10 = some .rdtime := by decide

/-! ### One step per command (95 §2.1 to 2.5) -/

/-- 2.1: 99 gives 0x99; 160 gives 0x00 (decision D4). -/
theorem test_dec2bcd : after (sent [0x01#8, 0x63#8] [] []) (fun t => t.outbox == [.ok [0x99#8]]) = true ∧
    after (sent [0x01#8, 0xA0#8] [] []) (fun t => t.outbox == [.ok [0x00#8]]) = true := by decide
/-- 2.1: 0x59 gives 59; 0xFF gives 165 (decision D5). -/
theorem test_bcd2dec : after (sent [0x02#8, 0x59#8] [] []) (fun t => t.outbox == [.ok [0x3B#8]]) = true ∧
    after (sent [0x02#8, 0xFF#8] [] []) (fun t => t.outbox == [.ok [0xA5#8]]) = true := by decide
/-- 2.2, row 4 of UnpackTime. -/
theorem test_rdtime : after (sent [0x10#8] clock [.answers good])
    (fun t => t.outbox == [.ok [0x1E#8, 0x30#8, 0x0D#8, 0x02#8, 0x09#8, 0x0B#8, 0xEA#8, 0x07#8]] && t.lastError == 0x00#8) = true := by
  decide
/-- 2.2, failure vectors: the read leg fails with 4. -/
theorem test_rdtime_read_leg_fails : after (sent [0x10#8] clock [.answers badRead])
    (fun t => t.outbox == [.err 0x04#8] && t.lastError == 0x04#8 && t.rf == clock) = true := by decide
/-- P1, step 2: the first transaction. -/
theorem test_wrtime : after (sent [0x11#8, 0x1E#8, 0x30#8, 0x0D#8, 0x02#8, 0x09#8, 0x0B#8, 0xEA#8, 0x07#8] [(0x0F, 0x88#8)] [.answers good])
    (fun t => t.busy == some (.osfRead 0x00#8) && t.outbox == [] && t.rf == clock ++ [(0x0F, 0x88#8)] &&
      t.trace == [.write 0x00#8 [0x30#8, 0x48#8, 0x13#8, 0x02#8, 0x09#8, 0x11#8, 0x26#8] 0x00#8]) = true := by decide
/-- P1, step 2: the second and the third transaction; and the third after a failed time write (2.2, failure vectors; R172). -/
theorem test_wrtime_clears_osf : after (busyAt (.osfRead 0x00#8) [(0x0F, 0x88#8)] [.answers good])
      (fun t => t.busy == some (.osfWrite 0x00#8 0x08#8) && t.trace == [.write 0x0F#8 [] 0x00#8, .read 1 [0x88#8] 0x00#8]) = true ∧
    after (busyAt (.osfWrite 0x00#8 0x08#8) [(0x0F, 0x88#8)] [.answers good])
      (fun t => t.busy == none && t.outbox == [.ok []] && t.rf == [(0x0F, 0x08#8)]) = true ∧
    after (busyAt (.osfWrite 0x03#8 0x00#8) [(0x0F, 0x80#8)] [.answers good])
      (fun t => t.outbox == [.err 0x03#8] && t.rf == [] && t.lastError == 0x00#8) = true := by decide
/-- 2.2, failure vectors: the sentinel. -/
theorem test_getepoch_sentinel : after (sent [0x12#8] clock [.answers badWrite])
    (fun t => t.outbox == [.ok [0x00#8, 0x00#8, 0x00#8, 0x00#8]] && t.lastError == 0x03#8 &&
      t.trace == [.write 0x00#8 [] 0x03#8]) = true := by decide
/-- R98: a successful read answers the conversion. -/
theorem test_getepoch : exec .getepoch (board clock [.answers good]) =
    .next { board clock [] with
      outbox := [.ok (le32 (Config.calToEpoch ⟨30#8, 48#8, 13#8, 2#8, 9#8, 11#8, 2026#16⟩))]
      trace := [.write 0x00#8 [] 0x00#8, .read 7 [0x30#8, 0x48#8, 0x13#8, 0x02#8, 0x09#8, 0x11#8, 0x26#8] 0x00#8]
      ptr := 0x07#8 } := by rfl
/-- R99: the first transaction writes the packed conversion. -/
theorem test_setepoch : exec (.setepoch 0x390B5E00#32) (board [] [.answers badWrite]) =
    .next (busyAt (.osfRead 0x03#8) [] []|> fun s => { s with
      rf := Memory.writeRun [] 0 ((packTime (Config.epochToCal 0x390B5E00#32)).take 1)
      trace := [.write 0x00#8 (packTime (Config.epochToCal 0x390B5E00#32)) 0x03#8]
      ptr := Config.freePointer 0 }) := by rfl
/-- 2.3. -/
theorem test_wrblk : after (sent [0x20#8, 0x14#8, 0x02#8, 0xDE#8, 0xAD#8] [] [.answers good])
    (fun t => t.outbox == [.ok []] && t.rf == [(0x14, 0xDE#8), (0x15, 0xAD#8)] &&
      t.trace == [.write 0x14#8 [0xDE#8, 0xAD#8] 0x00#8]) = true := by decide
/-- 2.3: `addr + len` is 257. -/
theorem test_wrblk_past_top : exec (.wrblk 0xFF#8 [1#8, 2#8]) (board [] [.answers good]) = .refused .runPastTop := by rfl
/-- 2.3: the temperature is stored with the upper byte at the lower offset. -/
theorem test_rdblk : after (sent [0x21#8, 0x11#8, 0x02#8] [(0x11, 0x19#8), (0x12, 0x40#8)] [.answers good])
    (fun t => t.outbox == [.ok [0x19#8, 0x40#8]]) = true := by decide
/-- 2.3: no read leg after a failed select leg. -/
theorem test_rdblk_select_fails : after (sent [0x21#8, 0x14#8, 0x02#8] [] [.answers badWrite])
    (fun t => t.outbox == [.err 0x03#8] && t.trace == [.write 0x14#8 [] 0x03#8] && t.lastError == 0x00#8) = true := by decide
/-- 2.3. -/
theorem test_wrbyte : after (sent [0x22#8, 0x0E#8, 0x04#8] [(0x0E, 0x1C#8)] [.answers good])
    (fun t => t.outbox == [.ok []] && t.rf == [(0x0E, 0x04#8)]) = true := by decide
/-- 2.3. -/
theorem test_rdbyte : after (sent [0x23#8, 0x0F#8] [(0x0F, 0x88#8)] [.answers good])
    (fun t => t.outbox == [.ok [0x88#8]] && t.rf == [(0x0F, 0x88#8)]) = true := by decide
/-- 2.4: the largest valid operands. -/
theorem test_setalm : after (sent [0x30#8, 0x0F#8, 0x3B#8, 0x3B#8, 0x17#8, 0x1F#8] [] [.answers good])
    (fun t => t.outbox == [.ok []] && t.trace == [.write 0x07#8 [0xD9#8, 0xD9#8, 0xA3#8, 0xB1#8] 0x00#8]) = true := by decide
/-- 2.4: alarm 2 drops the seconds. -/
theorem test_setalm_alarm2 : after (sent [0x30#8, 0x9E#8, 0x05#8, 0x3B#8, 0x17#8, 0x07#8] [] [.answers good])
    (fun t => t.trace == [.write 0x0B#8 [0xD9#8, 0xA3#8, 0xC7#8] 0x00#8]) = true := by decide
/-- 2.4: the seconds are forced to 0. -/
theorem test_setalm3 : after (sent [0x31#8, 0x01#8, 0x05#8, 0x06#8, 0x07#8] [] [.answers good])
    (fun t => t.trace == [.write 0x07#8 [0x80#8, 0x05#8, 0x06#8, 0x07#8] 0x00#8]) = true := by decide
/-- 2.4: 0x1C with ALMIE 1, true; 0x03 with ALMIE 2, false: the byte to write. -/
theorem test_almie : after (sent [0x32#8, 0x01#8, 0x01#8] [(0x0E, 0x1C#8)] [.answers good])
      (fun t => t.busy == some (.controlWrite 0x1D#8)) = true ∧
    after (sent [0x32#8, 0x02#8, 0x00#8] [(0x0E, 0x03#8)] [.answers good]) (fun t => t.busy == some (.controlWrite 0x01#8)) = true := by
  decide
/-- 2.4, 2.5: the write of CONTROL; a chip step in the gap (CONV) is overwritten. -/
theorem test_control_write : after { busyAt (.controlWrite 0x1D#8) [(0x0E, 0x1C#8)] [.answers good] with gaps := [[.conv true]] }
    (fun t => t.busy == none && t.outbox == [.ok []] && t.rf == [(0x0E, 0x1D#8)]) = true := by decide
/-- 2.4. -/
theorem test_almconsume : after (sent [0x33#8, 0x01#8] [(0x0F, 0x89#8)] [.answers good])
    (fun t => t.busy == some (.statusWrite 0x88#8) && t.outbox == [] && t.rf == [(0x0F, 0x89#8)] &&
      t.trace == [.write 0x0F#8 [] 0x00#8, .read 1 [0x89#8] 0x00#8]) = true := by decide
/-- P5: an alarm-2 match in the window of ALMCONSUME 1 is lost. -/
theorem test_almconsume_window : after { busyAt (.statusWrite 0x00#8) [(0x0F, 0x01#8)] [.answers good] with gaps := [[.alarmMatch .two]] }
    (fun t => t.outbox == [.ok [0x01#8]] && t.rf == []) = true := by decide
/-- 2.4. -/
theorem test_almpeek : after (sent [0x34#8, 0x02#8] [(0x0F, 0x03#8)] [.answers good])
    (fun t => t.outbox == [.ok [0x01#8]] && t.rf == [(0x0F, 0x03#8)]) = true := by decide
/-- 2.4. -/
theorem test_almclear : after (sent [0x35#8, 0x01#8] [(0x0F, 0xFF#8)] [.answers good])
    (fun t => t.busy == some (.statusWrite 0xFE#8)) = true := by decide
/-- 2.5: from 0x1F, 1024 Hz gives 0x0B; from 0x18, disabled gives 0x1C. -/
theorem test_sqwset : after (sent [0x40#8, 0x01#8] [(0x0E, 0x1F#8)] [.answers good])
      (fun t => t.busy == some (.controlWrite 0x0B#8)) = true ∧
    after (sent [0x40#8, 0x04#8] [(0x0E, 0x18#8)] [.answers good]) (fun t => t.busy == some (.controlWrite 0x1C#8)) = true := by decide
/-- 2.5. -/
theorem test_oscstop : after (sent [0x41#8, 0x01#8] [(0x0F, 0x8B#8)] [.answers good])
      (fun t => t.busy == some (.statusWrite 0x0B#8)) = true ∧
    after (sent [0x41#8, 0x00#8] [(0x0F, 0x80#8)] [.answers good])
      (fun t => t.busy == none && t.outbox == [.ok [0x01#8]] && t.rf == [(0x0F, 0x80#8)]) = true := by decide
/-- 2.5: the first read is of 0x12; 25.25 degrees; the floor of decision D21. -/
theorem test_temp : after (sent [0x42#8] [(0x11, 0x19#8), (0x12, 0x40#8)] [.answers good]) (fun t => t.busy == some (.tempMsb 0x40#8)) = true ∧
    after (busyAt (.tempMsb 0x40#8) [(0x11, 0x19#8), (0x12, 0x40#8)] [.answers good]) (fun t => t.outbox == [.ok [0x65#8, 0x00#8]]) = true ∧
    after (busyAt (.tempMsb 0xC1#8) [(0x11, 0xFF#8)] [.answers good]) (fun t => t.outbox == [.ok [0xFF#8, 0xFF#8]]) = true := by decide
/-- P4, step 2. -/
theorem test_geterr : after { sent [0x43#8] [] [] with lastError := 0x02#8 }
    (fun t => t.outbox == [.ok [0x02#8]] && t.lastError == 0x02#8) = true := by decide
/-- 2.6: an unknown opcode. -/
theorem test_illegal : after (sent [0x44#8, 0x10#8] [] []) (fun t => t.outbox == [.illegal] && t.inbox == [0x10#8]) = true := by decide
/-- R36: a waiting Block lets the Chip step; a match after the last command is in the final register file. -/
theorem test_idle_gap : after { board [] [] with gaps := [[.alarmMatch .one]] } (fun t => t.rf == [(0x0F, 0x01#8)] && t.busy == none) = true := by
  decide
/-- R65: the response packets. -/
theorem test_response_packets : (Response.ok [0x59#8]).packet = [0x00#8, 0x59#8] ∧ (Response.err 0x02#8).packet = [0x01#8, 0x02#8] ∧
    Response.illegal.packet = [0x02#8] := by decide

/-! ### Witnesses: for every obligation with hypotheses, concrete values that meet them, at the ends of their ranges -/

/-- A chip step on STATUS, and one on the temperature. -/
def match2 : List ChipStep := [.alarmMatch .two]
def warmer : List ChipStep := [.temperature 0 0x1A#8]

/-- A write leg that fails without storing. -/
def lostWrite : Answer := ⟨0x03#8, 0x00#8, 0, []⟩

/-- Two, three and four transactions that succeed. -/
def good2 : List Reply := [.answers good, .answers good]
def good3 : List Reply := .answers good :: good2
def good4 : List Reply := .answers good :: good3

/-- A machine with the given register file, gaps and replies. -/
def gapped (rf : Memory) (gaps : List (List ChipStep)) (replies : List Reply) : State := { board rf replies with gaps := gaps }

/-- A chip whose last offset is 0x14. -/
def smallest (replies : List Reply) : State := { board [] replies with ramTop := 0x14#8 }

theorem witness_DecimalToBcdAnswersPackedDigits : (0x00#8).toNat ≤ 99 ∧ (99#8).toNat ≤ 99 := by decide
theorem witness_CodecRoundTrips : (0x00#8).toNat ≤ 99 ∧ (99#8).toNat ≤ 99 ∧ ValidBcd 0x00#8 ∧ ValidBcd 0x99#8 := by
  unfold ValidBcd; decide
theorem witness_UnpackTimeDropsThreeBits : unpackTime [0xD9#8, 0x59#8, 0x63#8, 0x07#8, 0x31#8, 0x92#8, 0x99#8] =
    ⟨59#8, 59#8, 23#8, 7#8, 31#8, 12#8, 2099#16⟩ := by decide
theorem witness_WriteTimeThenReadTimeReturnsTheTime :
    CalendarTime.Valid { (⟨59#8, 59#8, 23#8, 9#8, 31#8, 12#8, 2099#16⟩ : CalendarTime) with weekday := 0x01#8 } ∧
    CalendarTime.Valid { (⟨0#8, 0#8, 0#8, 0#8, 1#8, 1#8, 2000#16⟩ : CalendarTime) with weekday := 0x01#8 } ∧ (9#8).toNat ≤ 9 ∧
    (gapped clock [match2, warmer, match2] [.answers good, .answers good, .answers good, .answers good]).resetIn = false ∧
    (gapped clock [match2, warmer, match2] [.answers good, .answers good, .answers good, .answers good]).gaps = match2 :: warmer :: match2 :: [] ∧
    (gapped clock [match2, warmer, match2] [.answers good, .answers good, .answers good, .answers good]).replies = .answers good :: .answers good :: .answers good :: .answers good :: [] ∧
    (gapped clock [match2, warmer, match2] [.answers good, .answers good, .answers good, .answers good]).rf.wf = true ∧ good.Succeeds ∧
    match2.all ChipStep.keepsTime = true ∧ warmer.all ChipStep.keepsTime = true := by
  unfold CalendarTime.Valid Answer.Succeeds; decide
theorem witness_PackTimeOfUnpackTime : ValidBcd (0xD9#8 &&& 0x7F#8) ∧ ValidBcd 0x59#8 ∧ ValidBcd (0x63#8 &&& 0xBF#8) ∧ (0x09#8).toNat ≤ 9 ∧
    ValidBcd 0x31#8 ∧ ValidBcd (0x92#8 &&& 0x7F#8) ∧ ValidBcd 0x99#8 := by
  unfold ValidBcd; decide
theorem witness_ReadTimeAnswersDecodedTimeOrStatus :
    (board clock [.answers badWrite]).replies = .answers badWrite :: [] ∧ badWrite.writeLeg ≠ 0x00#8 ∧
    (board clock [.answers badRead]).replies = .answers badRead :: [] ∧ badRead.writeLeg = 0x00#8 ∧ badRead.readLeg ≠ 0x00#8 ∧
    (board clock good2).replies = .answers good :: [.answers good] ∧ good.Succeeds := by
  unfold Answer.Succeeds; decide
theorem witness_WriteTimeWritesThenClearsOsf :
    (gapped [(0x0F, 0x88#8)] [match2, match2] [.answers badWrite, .answers good, .answers good]).resetIn = false ∧
    (gapped [(0x0F, 0x88#8)] [match2, match2] [.answers badWrite, .answers good, .answers good]).gaps = match2 :: match2 :: [] ∧
    (gapped [(0x0F, 0x88#8)] [match2, match2] [.answers badWrite, .answers good, .answers good]).replies = .answers badWrite :: .answers good :: .answers good :: [] ∧
    (gapped [(0x0F, 0x88#8)] [match2, match2] [.answers badWrite, .answers good, .answers good]).rf.wf = true ∧ good.Succeeds ∧ badWrite.writeLeg ≠ 0x00#8 ∧ good.writeLeg = 0x00#8 := by
  unfold Answer.Succeeds; decide
theorem witness_ClearOsfWritesWhateverItsReadAnswered :
    (gapped [(0x0F, 0x88#8)] [match2, match2] [.answers badWrite, .answers badRead, .answers lostWrite]).resetIn = false ∧
    (gapped [(0x0F, 0x88#8)] [match2, match2] [.answers badWrite, .answers badRead, .answers lostWrite]).gaps = match2 :: match2 :: [] ∧
    (gapped [(0x0F, 0x88#8)] [match2, match2] [.answers badWrite, .answers badRead, .answers lostWrite]).replies = .answers badWrite :: .answers badRead :: .answers lostWrite :: [] ∧
    (gapped [(0x0F, 0x88#8)] [match2, match2] [.answers badWrite, .answers badRead, .answers lostWrite]).rf.wf = true ∧ badRead.writeLeg = 0x00#8 := by decide
theorem witness_GetEpochAnswersConversionOrSentinel :
    (board clock [.answers badWrite]).replies = .answers badWrite :: [] ∧ badWrite.writeLeg ≠ 0x00#8 ∧
    (board clock [.answers badRead]).replies = .answers badRead :: [] ∧ badRead.writeLeg = 0x00#8 ∧ badRead.readLeg ≠ 0x00#8 ∧
    (board clock good2).replies = .answers good :: [.answers good] ∧ good.Succeeds := by
  unfold Answer.Succeeds; decide
theorem witness_SetEpochWritesTheConvertedTime :
    (gapped [(0x0F, 0x88#8)] [match2, match2] [.answers badWrite, .answers badRead, .answers lostWrite]).resetIn = false ∧
    (gapped [(0x0F, 0x88#8)] [match2, match2] [.answers badWrite, .answers badRead, .answers lostWrite]).gaps = match2 :: match2 :: [] ∧
    (gapped [(0x0F, 0x88#8)] [match2, match2] [.answers badWrite, .answers badRead, .answers lostWrite]).replies = .answers badWrite :: .answers badRead :: .answers lostWrite :: [] ∧
    (gapped [(0x0F, 0x88#8)] [match2, match2] [.answers badWrite, .answers badRead, .answers lostWrite]).rf.wf = true ∧ badRead.writeLeg = 0x00#8 := by decide
/-- 31 bytes up to the last offset; one byte at the last offset of the smallest chip. -/
theorem witness_WriteBlockStoresItsRun :
    (board [] [.answers badWrite]).replies = .answers badWrite :: [] ∧ badWrite.writeLeg ≠ 0x00#8 ∧ good.writeLeg = 0x00#8 ∧
    1 ≤ (List.replicate 31 0xA5#8).length ∧ (List.replicate 31 0xA5#8).length ≤ 31 ∧ InChip (board [] [.answers badWrite]) 0xE1#8 31 ∧
    InChip (smallest [.answers good]) 0x14#8 [0x07#8].length ∧ (board [] [.answers badWrite]).rf.wf = true ∧
    (List.replicate 31 0xA5#8)[30]? = some 0xA5#8 := by
  unfold InChip; decide
/-- 32 and 255 bytes; 33 and 255 of them read. -/
theorem witness_OverLengthBlocksFail :
    (board [] [.answers good]).replies = .answers good :: [] ∧ 32 ≤ (List.replicate 32 0xA5#8).length ∧
    InChip (board [] [.answers good]) 0xE0#8 (List.replicate 32 0xA5#8).length ∧ (List.replicate 255 0xA5#8).length ≤ 255 ∧
    InChip (board [] [.answers good]) 0x01#8 (List.replicate 255 0xA5#8).length ∧ 33 ≤ (33#8).toNat ∧ 33 ≤ (0xFF#8).toNat ∧
    InChip (board [] [.answers badWrite]) 0xDF#8 (33#8).toNat ∧ badWrite.writeLeg ≠ 0x00#8 ∧
    InChip (board [] [.answers good]) 0xDF#8 (33#8).toNat ∧ InChip (board [] [.answers good]) 0x01#8 (0xFF#8).toNat ∧
    good.writeLeg = 0x00#8 := by
  unfold InChip; simp only [List.length_replicate]; decide
theorem witness_ReadBlockAnswersItsRun :
    (board [] [.answers badRead]).replies = .answers badRead :: [] ∧ badRead.writeLeg = 0x00#8 ∧ badRead.readLeg ≠ 0x00#8 ∧
    badWrite.writeLeg ≠ 0x00#8 ∧ good.Succeeds ∧ 1 ≤ (0x01#8).toNat ∧ (32#8).toNat ≤ 32 ∧
    InChip (board [] [.answers badRead]) 0xE0#8 (32#8).toNat ∧ InChip (smallest [.answers good]) 0x14#8 (0x01#8).toNat := by
  unfold InChip Answer.Succeeds; decide
theorem witness_WriteByteStoresItsByte :
    (board [] [.answers badWrite]).replies = .answers badWrite :: [] ∧ badWrite.writeLeg ≠ 0x00#8 ∧ lostWrite.writeLeg ≠ 0x00#8 ∧
    lostWrite.stored = 0 ∧ good.writeLeg = 0x00#8 ∧ InChip (board [] [.answers badWrite]) 0xFF#8 1 ∧
    InChip (smallest [.answers good]) 0x14#8 1 := by
  unfold InChip; decide
theorem witness_ReadByteAnswersItsByte :
    (board [] [.answers badRead]).replies = .answers badRead :: [] ∧ badRead.writeLeg = 0x00#8 ∧ badRead.readLeg ≠ 0x00#8 ∧
    badWrite.writeLeg ≠ 0x00#8 ∧ good.Succeeds ∧ InChip (board [] [.answers badRead]) 0xFF#8 1 ∧
    InChip (smallest [.answers good]) 0x14#8 1 := by
  unfold InChip Answer.Succeeds; decide
/-- Both refusals, where they begin: 257 offsets; one byte above the smallest chip. -/
theorem witness_RefusedExactlyOutsideTheChip :
    exec (.rdblk 0xFE#8 0x03#8) (board [] []) = .refused .runPastTop ∧ (Instr.rdblk 0xFE#8 0x03#8).wellFormed = true ∧
    256 < (0xFE#8).toNat + 3 ∧ exec (.rdbyte 0x15#8) (smallest []) = .refused .aboveRamTop ∧ ¬ InChip (smallest []) 0x15#8 1 ∧
    exec (.wrbyte 0x15#8 0x00#8) (smallest []) = .refused .aboveRamTop ∧ InChip (smallest []) 0x14#8 1 := by
  unfold InChip; refine ⟨rfl, ?_, ?_, rfl, ?_, rfl, ?_⟩ <;> decide
theorem witness_WriteBlockThenReadBlockReturnsTheData :
    (board [] good2).rf.wf = true ∧ (board [] good2).replies = .answers good :: .answers good :: [] ∧ good.Succeeds ∧
    1 ≤ (List.replicate 31 0xA5#8).length ∧ (List.replicate 31 0xA5#8).length ≤ 31 ∧ 0x14 ≤ (0xE1#8).toNat ∧ 0x14 ≤ (0x14#8).toNat ∧
    InChip (board [] good2) 0xE1#8 (List.replicate 31 0xA5#8).length ∧ InChip (smallest good2) 0x14#8 [0xA5#8].length := by
  unfold InChip Answer.Succeeds; decide
theorem witness_SetAlarmWritesPackedRegisters :
    (board [] [.answers badWrite]).replies = .answers badWrite :: [] ∧ badWrite.writeLeg ≠ 0x00#8 ∧
    (board [] [.answers good]).replies = .answers good :: [] ∧ good.writeLeg = 0x00#8 ∧
    0x80#8 ∈ [0x00#8, 0x01#8, 0x03#8, 0x07#8, 0x0F#8, 0x1F#8, 0x80#8, 0x82#8, 0x86#8, 0x8E#8, 0x9E#8] ∧
    0x1F#8 ∈ [0x00#8, 0x01#8, 0x03#8, 0x07#8, 0x0F#8, 0x1F#8, 0x80#8, 0x82#8, 0x86#8, 0x8E#8, 0x9E#8] ∧
    (0x80#8).getLsbD 7 = true ∧ (0x1F#8).getLsbD 7 = false := by decide
theorem witness_SetAlarmThreeWritesZeroSeconds :
    (board [] [.answers badWrite]).replies = .answers badWrite :: [] ∧ badWrite.writeLeg ≠ 0x00#8 ∧
    (board [] [.answers good]).replies = .answers good :: [] ∧ good.writeLeg = 0x00#8 ∧
    0x9E#8 ∈ [0x00#8, 0x01#8, 0x03#8, 0x07#8, 0x0F#8, 0x1F#8, 0x80#8, 0x82#8, 0x86#8, 0x8E#8, 0x9E#8] ∧
    0x00#8 ∈ [0x00#8, 0x01#8, 0x03#8, 0x07#8, 0x0F#8, 0x1F#8, 0x80#8, 0x82#8, 0x86#8, 0x8E#8, 0x9E#8] ∧
    (0x9E#8).getLsbD 7 = true ∧ (0x00#8).getLsbD 7 = false := by decide
theorem witness_MatchSecondsSetsOnlyTheSecondsMask :
    (board [] [.answers good]).rf.wf = true ∧ (board [] [.answers good]).replies = .answers good :: [] ∧ good.Succeeds ∧
    (59#8).toNat ≤ 59 ∧ (59#8).toNat ≤ 59 ∧ (23#8).toNat ≤ 23 ∧ (31#8).toNat ≤ 31 := by
  unfold Answer.Succeeds; decide
theorem witness_AlarmBytesCarryTypeAndDigits :
    (59#8).toNat ≤ 59 ∧ (23#8).toNat ≤ 23 ∧ (31#8).toNat ≤ 31 ∧ (AlarmType.code .alm2MatchDay).getLsbD 7 = true ∧
    (AlarmType.code .alm1MatchDay).getLsbD 7 = false := by decide
theorem witness_AlarmInterruptEnableChangesOneBit :
    (gapped [(0x0E, 0x1C#8)] [[.conv true]] [.answers good, .answers good]).resetIn = false ∧
    (gapped [(0x0E, 0x1C#8)] [[.conv true]] [.answers good, .answers good]).gaps = [.conv true] :: [] ∧
    (gapped [(0x0E, 0x1C#8)] [[.conv true]] [.answers good, .answers good]).replies = .answers good :: .answers good :: [] ∧
    (gapped [(0x0E, 0x1C#8)] [[.conv true]] [.answers good, .answers good]).rf.wf = true ∧ good.Succeeds ∧
    ((0x02#8 = 0x01#8 ∨ 0x02#8 = 0x02#8) ∧ (0x00#8 = 0x00#8 ∨ 0x00#8 = 0x01#8)) ∧
    Memory.read (gapped [(0x0E, 0x1C#8)] [[.conv true]] [.answers good, .answers good]).rf 0x0E = 0x1C#8 := by
  unfold Answer.Succeeds; decide
theorem witness_AlarmPeekAnswersTheFlag :
    (board [(0x0F, 0x02#8)] [.answers good]).replies = .answers good :: [] ∧ good.Succeeds ∧
    (0x02#8 = 0x01#8 ∨ 0x02#8 = 0x02#8) ∧ Memory.read (board [(0x0F, 0x02#8)] [.answers good]).rf 0x0F = 0x02#8 := by
  unfold Answer.Succeeds; decide
/-- The flag of alarm 2 set; the flag of alarm 1 clear. -/
theorem witness_AlarmConsumeClearsTheFlagItRead :
    (gapped [(0x0F, 0x8A#8)] [match2] [.answers good, .answers good]).resetIn = false ∧
    (gapped [(0x0F, 0x8A#8)] [match2] [.answers good, .answers good]).gaps = match2 :: [] ∧
    (gapped [(0x0F, 0x8A#8)] [match2] [.answers good, .answers good]).replies = .answers good :: .answers good :: [] ∧
    (gapped [(0x0F, 0x8A#8)] [match2] [.answers good, .answers good]).rf.wf = true ∧ good.Succeeds ∧
    Memory.read (gapped [(0x0F, 0x8A#8)] [match2] [.answers good, .answers good]).rf 0x0F = 0x8A#8 ∧
    (0x8A#8).getLsbD ((0x02#8).toNat - 1) = true ∧ (0x8A#8).getLsbD ((0x01#8).toNat - 1) = false := by
  unfold Answer.Succeeds; decide
/-- The flag of alarm 2 set; the flag of alarm 1 clear. -/
theorem witness_AlarmClearClearsTheFlagItRead :
    (gapped [(0x0F, 0x8A#8)] [match2] [.answers good, .answers good]).resetIn = false ∧
    (gapped [(0x0F, 0x8A#8)] [match2] [.answers good, .answers good]).gaps = match2 :: [] ∧
    (gapped [(0x0F, 0x8A#8)] [match2] [.answers good, .answers good]).replies = .answers good :: .answers good :: [] ∧
    (gapped [(0x0F, 0x8A#8)] [match2] [.answers good, .answers good]).rf.wf = true ∧ good.Succeeds ∧
    Memory.read (gapped [(0x0F, 0x8A#8)] [match2] [.answers good, .answers good]).rf 0x0F = 0x8A#8 ∧
    (0x8A#8).getLsbD ((0x02#8).toNat - 1) = true ∧ (0x8A#8).getLsbD ((0x01#8).toNat - 1) = false := by
  unfold Answer.Succeeds; decide
theorem witness_ConsumeAnswersTrueOncePerMatch :
    (gapped [(0x0F, 0x02#8)] [warmer, warmer] [.answers good, .answers good, .answers good]).resetIn = false ∧
    (gapped [(0x0F, 0x02#8)] [warmer, warmer] [.answers good, .answers good, .answers good]).gaps = warmer :: warmer :: [] ∧
    (gapped [(0x0F, 0x02#8)] [warmer, warmer] [.answers good, .answers good, .answers good]).replies = .answers good :: .answers good :: .answers good :: [] ∧
    (gapped [(0x0F, 0x02#8)] [warmer, warmer] [.answers good, .answers good, .answers good]).rf.wf = true ∧ good.Succeeds ∧
    warmer.all ChipStep.keepsStatus = true ∧
    (Memory.read (gapped [(0x0F, 0x02#8)] [warmer, warmer] [.answers good, .answers good, .answers good]).rf 0x0F).getLsbD ((0x02#8).toNat - 1) = true := by
  unfold Answer.Succeeds; decide
theorem witness_MatchInTheConsumeWindowIsLost :
    (gapped [(0x0F, 0x01#8)] [match2] [.answers good, .answers good]).resetIn = false ∧
    (gapped [(0x0F, 0x01#8)] [match2] [.answers good, .answers good]).gaps = match2 :: [] ∧
    (gapped [(0x0F, 0x01#8)] [match2] [.answers good, .answers good]).replies = .answers good :: .answers good :: [] ∧
    (gapped [(0x0F, 0x01#8)] [match2] [.answers good, .answers good]).rf.wf = true ∧ good.Succeeds ∧
    (Memory.read (gapped [(0x0F, 0x01#8)] [match2] [.answers good, .answers good]).rf 0x0F).getLsbD ((0x01#8).toNat - 1) = true ∧
    (Memory.read (chipSteps match2 (gapped [(0x0F, 0x01#8)] [match2] [.answers good, .answers good]).rf) 0x0F).getLsbD 1 = true := by
  unfold Answer.Succeeds; decide
theorem witness_SquareWaveSetsRateOrInterruptControl :
    (gapped [(0x0E, 0x1F#8)] [[.conv true]] [.answers good, .answers good]).resetIn = false ∧
    (gapped [(0x0E, 0x1F#8)] [[.conv true]] [.answers good, .answers good]).gaps = [.conv true] :: [] ∧
    (gapped [(0x0E, 0x1F#8)] [[.conv true]] [.answers good, .answers good]).replies = .answers good :: .answers good :: [] ∧
    (gapped [(0x0E, 0x1F#8)] [[.conv true]] [.answers good, .answers good]).rf.wf = true ∧ good.Succeeds ∧
    (0x04#8).toNat ≤ 4 ∧ (0x03#8).toNat ≤ 4 ∧ 0x03#8 ≠ 0x04#8 ∧
    Memory.read (gapped [(0x0E, 0x1F#8)] [[.conv true]] [.answers good, .answers good]).rf 0x0E = 0x1F#8 := by
  unfold Answer.Succeeds; decide
theorem witness_SquareWaveAndAlarmEnableCommute :
    (gapped [(0x0E, 0x1C#8)] [[], [], []] [.answers good, .answers good, .answers good, .answers good]).resetIn = false ∧
    (gapped [(0x0E, 0x1C#8)] [[], [], []] [.answers good, .answers good, .answers good, .answers good]).gaps = [] :: [] :: [] :: [] ∧
    (gapped [(0x0E, 0x1C#8)] [[], [], []] [.answers good, .answers good, .answers good, .answers good]).replies = .answers good :: .answers good :: .answers good :: .answers good :: [] ∧
    (gapped [(0x0E, 0x1C#8)] [[], [], []] [.answers good, .answers good, .answers good, .answers good]).rf.wf = true ∧ good.Succeeds ∧
    (0x04#8).toNat ≤ 4 ∧ (0x02#8 = 0x01#8 ∨ 0x02#8 = 0x02#8) ∧ (0x01#8 = 0x00#8 ∨ 0x01#8 = 0x01#8) := by
  unfold Answer.Succeeds; decide
/-- OSF set with `clear` 1 and 0; OSF clear. -/
theorem witness_OscillatorStoppedAnswersAndClears :
    (gapped [(0x0F, 0x8B#8)] [match2] [.answers good, .answers good]).resetIn = false ∧
    (gapped [(0x0F, 0x8B#8)] [match2] [.answers good, .answers good]).gaps = match2 :: [] ∧
    (gapped [(0x0F, 0x8B#8)] [match2] [.answers good, .answers good]).replies = .answers good :: .answers good :: [] ∧
    (gapped [(0x0F, 0x8B#8)] [match2] [.answers good, .answers good]).rf.wf = true ∧ good.Succeeds ∧
    Memory.read (gapped [(0x0F, 0x8B#8)] [match2] [.answers good, .answers good]).rf 0x0F = 0x8B#8 ∧ (0x8B#8).getLsbD 7 = true ∧
    Memory.read (board [] good2).rf 0x0F = 0x00#8 ∧ (0x00#8).getLsbD 7 = false ∧
    (0x01#8 = 0x00#8 ∨ 0x01#8 = 0x01#8) ∧ (0x00#8 = 0x00#8 ∨ 0x00#8 = 0x01#8) := by
  unfold Answer.Succeeds; decide
theorem witness_TemperatureAnswersQuarterDegrees :
    (gapped [(0x11, 0x19#8), (0x12, 0x40#8)] [warmer] [.answers good, .answers good]).resetIn = false ∧
    (gapped [(0x11, 0x19#8), (0x12, 0x40#8)] [warmer] [.answers good, .answers good]).gaps = warmer :: [] ∧
    (gapped [(0x11, 0x19#8), (0x12, 0x40#8)] [warmer] [.answers good, .answers good]).replies = .answers good :: .answers good :: [] ∧
    (gapped [(0x11, 0x19#8), (0x12, 0x40#8)] [warmer] [.answers good, .answers good]).rf.wf = true ∧ good.Succeeds ∧
    Memory.read (chipSteps warmer (gapped [(0x11, 0x19#8), (0x12, 0x40#8)] [warmer] [.answers good, .answers good]).rf) 0x11 = 0x1A#8 := by
  unfold Answer.Succeeds; decide
/-- The last frequency; both alarms; both Booleans; a read that fails, whose byte is the drawn one, with its bits set and clear. -/
theorem witness_UnreportedFailuresGoOnWithTheReturnedByte :
    (gapped [] [match2] [.answers badRead, .answers lostWrite]).resetIn = false ∧
    (gapped [] [match2] [.answers badRead, .answers lostWrite]).gaps = match2 :: [] ∧
    (gapped [] [match2] [.answers badRead, .answers lostWrite]).replies = .answers badRead :: .answers lostWrite :: [] ∧
    (gapped [] [match2] [.answers badRead, .answers lostWrite]).rf.wf = true ∧ (0x04#8).toNat ≤ 4 ∧
    (0x02#8 = 0x01#8 ∧ 0x02#8 = 0x01#8 ∨ 0x02#8 = 0x02#8 ∧ 0x02#8 = 0x02#8) ∧
    (0x01#8 = 0x00#8 ∨ 0x01#8 = 0x01#8) ∧ (0x81#8 &&& 0x01#8 ≠ 0x00#8 ∧ 0x81#8 &&& 0x02#8 = 0x00#8) ∧
    (0x81#8 &&& 0x80#8 ≠ 0x00#8 ∧ 0x01#8 &&& 0x80#8 = 0x00#8) ∧
    ran (.almconsume 0x01#8) (board [] [.answers badRead]) (fun t => t.busy == some (.statusWrite 0x80#8) &&
      t.trace == [.write 0x0F#8 [] 0x00#8, .read 1 [0x81#8] 0x04#8]) = true := by decide
theorem witness_GetErrAnswersTheLastTimeReadFailure :
    (board [] [.answers badWrite]).replies = .answers badWrite :: [] ∧ badWrite.writeLeg ≠ 0x00#8 := by decide
/-- One operand next to each legal range. -/
theorem witness_IllegalOperandsAnswerIllegalOnly :
    (0x00#8 ≠ 0x01#8 ∧ 0x00#8 ≠ 0x02#8) ∧ (0x03#8 ≠ 0x01#8 ∧ 0x03#8 ≠ 0x02#8) ∧ (0x02#8 ≠ 0x00#8 ∧ 0x02#8 ≠ 0x01#8) ∧
    0x02#8 ∉ [0x00#8, 0x01#8, 0x03#8, 0x07#8, 0x0F#8, 0x1F#8, 0x80#8, 0x82#8, 0x86#8, 0x8E#8, 0x9E#8] ∧
    0x81#8 ∉ [0x00#8, 0x01#8, 0x03#8, 0x07#8, 0x0F#8, 0x1F#8, 0x80#8, 0x82#8, 0x86#8, 0x8E#8, 0x9E#8] ∧
    5 ≤ (0x05#8).toNat := by decide
theorem witness_UnknownOpcodesAnswerIllegalOnly :
    (sent [0x44#8, 0x10#8] [] []).resetIn = false ∧ (sent [0x44#8, 0x10#8] [] []).busy = none ∧
    (sent [0x44#8, 0x10#8] [] []).inbox = 0x44#8 :: [0x10#8] ∧
    0x44#8 ∉ [0x01#8, 0x02#8, 0x10#8, 0x11#8, 0x12#8, 0x13#8, 0x20#8, 0x21#8, 0x22#8, 0x23#8, 0x30#8, 0x31#8, 0x32#8, 0x33#8, 0x34#8,
      0x35#8, 0x40#8, 0x41#8, 0x42#8, 0x43#8] := by decide
theorem witness_CommandsKeepTheOtherRegisters : (∃ t, exec .rdtime (board clock [.answers badWrite]) = .next t) ∧
    (busyAt (.osfRead 0x03#8) clock [.answers good]).resetIn = false ∧
    (∃ t, step (busyAt (.osfRead 0x03#8) clock [.answers good]) = .next t) ∧
    ∃ t, step (busyAt .getepoch clock [.answers badRead]) = .next t := ⟨⟨_, rfl⟩, rfl, ⟨_, rfl⟩, _, rfl⟩
/-- A byte on either side of the run of WRBLK, both where the Chip never changes anything. -/
theorem witness_CommandsKeepEveryOtherByte : (board clock [.answers good]).rf.wf = true ∧ (board clock [.answers good]).inbox = [] ∧
    (∃ u, exec (.wrblk 0x14#8 [0x01#8, 0x02#8]) (board clock [.answers good]) = .next u ∧ ∃ t, steps 4 u = some t) ∧
    (∀ run ∈ storedRuns (.wrblk 0x14#8 [0x01#8, 0x02#8]), ¬ (run.1 ≤ 0x16 ∧ 0x16 < run.1 + run.2)) ∧
    (∀ run ∈ storedRuns (.wrblk 0x14#8 [0x01#8, 0x02#8]), ¬ (run.1 ≤ 0x13 ∧ 0x13 < run.1 + run.2)) ∧
    chipMayChange 0x16 = false ∧ chipMayChange 0x13 = false :=
  ⟨by decide, rfl, ⟨_, rfl, _, rfl⟩, by decide, by decide, by decide, by decide⟩
theorem witness_QuietChipKeepsEveryUnstoredByte : (board clock good3).rf.wf = true ∧ (board clock good3).inbox = [] ∧
    (∀ k < 4, (board clock good3).gaps[k]? = some []) ∧
    (∃ u, exec (.almie 0x01#8 0x01#8) (board clock good3) = .next u ∧ ∃ t, steps 4 u = some t) ∧
    (∀ run ∈ storedRuns (.almie 0x01#8 0x01#8), ¬ (run.1 ≤ 0x0F ∧ 0x0F < run.1 + run.2)) :=
  ⟨by decide, rfl, by decide, ⟨_, rfl, _, rfl⟩, by decide⟩
theorem witness_CommandsGiveOneResponseOrStayBusy : (∃ t, exec .temp (board clock good2) = .next t) ∧ (∃ t, exec .rdtime (board clock good2) = .next t) ∧
    (busyAt (.tempMsb 0x40#8) clock good2).resetIn = false ∧ (∃ t, step (busyAt (.tempMsb 0x40#8) clock good2) = .next t) ∧
    ∃ t, step (busyAt (.tempMsb 0x40#8) clock [.silent]) = .next t := ⟨⟨_, rfl⟩, ⟨_, rfl⟩, rfl, ⟨_, rfl⟩, _, rfl⟩
theorem witness_CommandsTakeTheirTransactionsAtMost : (∃ t, step (busyAt (.tempMsb 0x40#8) clock good2) = .next t) ∧ (board clock good3).inbox = [] ∧
    ∃ u, exec (.wrtime default) (board clock good3) = .next u ∧ ∃ t, steps 3 u = some t := ⟨⟨_, rfl⟩, rfl, _, rfl, _, rfl⟩
theorem witness_NonReportingCommandsAlwaysAnswerOk :
    (gapped [] [match2] [.answers badRead, .answers badWrite]).resetIn = false ∧
    (gapped [] [match2] [.answers badRead, .answers badWrite]).gaps = match2 :: [] ∧
    (gapped [] [match2] [.answers badRead, .answers badWrite]).replies = .answers badRead :: .answers badWrite :: [] ∧
    (gapped [] [match2] [.answers badRead, .answers badWrite]).rf.wf = true ∧
    [Instr.dec2bcd 0xFF#8, .bcd2dec 0xFF#8, .getepoch, .setalm 0x9E#8 0xFF#8 0xFF#8 0xFF#8 0xFF#8, .setalm3 0x0F#8 0#8 0#8 0#8,
      .almie 0x02#8 0x01#8, .almconsume 0x02#8, .almpeek 0x01#8, .almclear 0x02#8, .sqwset 0x04#8, .oscstop 0x01#8, .temp,
      .geterr].all (fun i => i.wellFormed && i.neverErr) = true := by decide
theorem witness_StepRunsTheDecodedCommand : (sent [0x43#8, 0x10#8] [] []).resetIn = false ∧ (sent [0x43#8, 0x10#8] [] []).busy = none ∧
    decode (sent [0x43#8, 0x10#8] [] []).inbox = .packet .geterr [0x10#8] ∧
    (busyAt (.blockWrite 0xFF#8 [0x01#8]) [] []).resetIn = false ∧
    InChip (busyAt (.blockWrite 0xFF#8 [0x01#8]) [] []) (Pending.blockWrite 0xFF#8 [0x01#8]).run.1 (Pending.blockWrite 0xFF#8 [0x01#8]).run.2 := by
  unfold InChip; decide
/-- A write of STATUS that comes next runs; a run past the top that comes next faults. -/
theorem witness_BusyBlockAcceptsNoPacket :
    (∃ t, step { busyAt (.osfWrite 0x00#8 0x01#8) [] [.answers good] with inbox := [0x43#8] } = .next t) ∧
    step (busyAt (.blockWrite 0xFF#8 [0x01#8, 0x02#8]) [] []) = .fault .suspendedOutsideChip :=
  ⟨⟨_, rfl⟩, rfl⟩
theorem witness_SilentTransportSuspendsAndResumes : (board clock [.silent]).resetIn = false ∧ (board clock [.silent]).busy = none ∧
    (board clock [.silent]).replies = .silent :: [] ∧
    (∃ t, exec (.rdblk 0xFE#8 0x02#8) (board clock [.silent]) = .next t ∧ t.replies ≠ (board clock [.silent]).replies) ∧
    ∃ t, step (busyAt (.statusWrite 0x00#8) clock [.silent]) = .next t := ⟨rfl, rfl, rfl, ⟨_, rfl, by decide⟩, _, rfl⟩
theorem witness_ResetInputAbandonsTheCommand :
    { busyAt (.osfRead 0x03#8) clock good2 with lastError := 0x02#8, resetIn := true }.resetIn = true := rfl
theorem witness_ResetDuringACommandKeepsItsFirstEffects :
    (board [(0x0F, 0x02#8)] good2).replies = .answers good :: [.answers good] ∧ good.Succeeds ∧ (board [(0x0F, 0x02#8)] good2).rf.wf = true ∧
    (Memory.read (board [(0x0F, 0x02#8)] good2).rf 0x0F).getLsbD ((0x02#8).toNat - 1) = true := by
  unfold Answer.Succeeds; decide
/-- A busy Block whose next transaction writes the last byte of the smallest chip. -/
def waiting : State := { smallest [.answers good] with busy := some (.blockWrite 0x14#8 [0x07#8]), outbox := [.err 0x01#8] }
theorem waiting_inv : waiting.Inv := ⟨by decide, fun p h => by cases h; decide⟩
theorem witness_ResetLeavesTheBlockIdleAndWaiting : (sent [0x20#8, 0x14#8] [] []).resetIn = false ∧ (sent [0x20#8, 0x14#8] [] []).busy = none ∧
    decode (sent [0x20#8, 0x14#8] [] []).inbox = .incomplete := by decide
theorem witness_StepKeepsTheInvariant : waiting.Inv ∧ ∃ t, step waiting = .next t := ⟨waiting_inv, _, rfl⟩
theorem witness_NoStepFaults : waiting.Inv := waiting_inv
theorem witness_StepKeepsTheHistoryLawful : waiting.Inv ∧
    { waiting with trace := [.write 0xE1#8 (List.replicate 31 0x00#8) 0x00#8, .write 0xE0#8 [] 0x00#8,
      .read 32 (List.replicate 32 0x00#8) 0x00#8] }.Lawful ∧
    ∃ t, step waiting = .next t :=
  ⟨waiting_inv, ⟨by simp [waiting], by simp [Event.Lawful], by decide⟩, _, rfl⟩
theorem witness_StepKeepsReadLegsSelected : readsSelected false
      { sent [0x34#8, 0x01#8] [] [.answers good] with trace := [.write 0x0F#8 [] 0x00#8, .read 1 [0x00#8] 0x00#8] }.trace = true ∧
    ∃ t, step { sent [0x34#8, 0x01#8] [] [.answers good] with trace := [.write 0x0F#8 [] 0x00#8, .read 1 [0x00#8] 0x00#8] } = .next t :=
  ⟨by decide, _, rfl⟩
theorem witness_ChipStepsNeverClearFlags : (board [(0x0F, 0x83#8)] []).rf.wf = true ∧ (Memory.read [(0x0F, 0x83#8)] 0x0F).getLsbD 7 = true ∧
    (Memory.read [(0x0F, 0x83#8)] 0x0F).getLsbD 0 = true ∧ (Memory.read [(0x0F, 0x83#8)] 0x0F).getLsbD 1 = true := by decide
theorem witness_DecodeOfEncode : (Instr.wrblk 0x00#8 (List.replicate 255 0x00#8)).wellFormed = true ∧
    (Instr.oscstop 0x01#8).wellFormed = true ∧ (Instr.setalm 0x9E#8 0xFF#8 0xFF#8 0xFF#8 0xFF#8).wellFormed = true := by
  refine ⟨?_, by decide, by decide⟩
  simp only [Instr.wellFormed, Instr.illegalOperand, List.length_replicate]; decide
theorem witness_EncodeOfDecode : decode [0x20#8, 0xFF#8, 0x01#8, 0xAA#8, 0x42#8] = .packet (.wrblk 0xFF#8 [0xAA#8]) [0x42#8] := by decide

end Sys2Proof.Tests
end

/-! ### O42: the transactions a step and a command run at most (R12, R60, R44) -/

namespace Sys2Proof.Machine

/-- How many transactions the command in progress still has, at most; an idle Block has none (R60). -/
def State.transactionsLeft (s : State) : Nat := s.busy.elim 0 Pending.transactionsLeft

/-- On the way from `s` to `t` the Transport gave the first `k` replies of `s`, the trace grew by at most two legs for each, and the
answers, the legs and the transactions `t` still has stay within a budget of `b` transactions. -/
def Spends (b k : Nat) (s t : State) : Prop :=
  t.replies = s.replies.drop k ∧ (s.replies.take k).countP Reply.answered + t.transactionsLeft ≤ b ∧
    ∃ legs : List Event, t.trace = s.trace ++ legs ∧ legs.length ≤ 2 * k ∧ legs.length + 2 * t.transactionsLeft ≤ 2 * b

/-- What leaves the replies and the trace alone spends nothing. -/
theorem spends_zero {b : Nat} {s t : State} (hreplies : t.replies = s.replies) (htrace : t.trace = s.trace)
    (hleft : t.transactionsLeft ≤ b) : Spends b 0 s t :=
  ⟨hreplies, by simpa using hleft, [], by simpa using htrace, Nat.zero_le _, by simpa using hleft⟩

theorem Spends.mono {b b' k : Nat} {s t : State} (hb : b ≤ b') (h : Spends b k s t) : Spends b' k s t := by
  obtain ⟨hreplies, hanswers, legs, htrace, htwo, hlegs⟩ := h
  exact ⟨hreplies, by omega, legs, htrace, htwo, by omega⟩

/-- Two stretches of a run, the second within what the first has left. -/
theorem Spends.trans {b k j : Nat} {s t u : State} (h₁ : Spends b k s t) (h₂ : Spends t.transactionsLeft j t u) :
    Spends b (k + j) s u := by
  obtain ⟨hreplies₁, hanswers₁, legs₁, htrace₁, htwo₁, hlegs₁⟩ := h₁
  obtain ⟨hreplies₂, hanswers₂, legs₂, htrace₂, htwo₂, hlegs₂⟩ := h₂
  rw [hreplies₁] at hreplies₂ hanswers₂
  exact ⟨by rw [hreplies₂, List.drop_drop], by rw [List.take_add, List.countP_append]; omega,
    legs₁ ++ legs₂, by rw [htrace₂, htrace₁, List.append_assoc],
    by rw [List.length_append]; omega, by rw [List.length_append]; omega⟩

/-- A command in progress has a transaction left. -/
theorem Pending.transactionsLeft_pos (p : Pending) : 0 < p.transactionsLeft := by
  cases p <;> exact Nat.succ_pos _

/-- A read transaction has at most two legs (R47). -/
theorem memRead_legs (addr : Byte) (n : Nat) (d : Answer) (s : State) :
    ∃ legs : List Event, (memRead addr n d s).2.2.trace = s.trace ++ legs ∧ legs.length ≤ 2 := by
  by_cases hw : d.writeLeg = 0x00#8
  · exact ⟨[_, _], by rw [memRead_selected hw]; exact List.append_assoc _ _ _, Nat.le_refl 2⟩
  · exact ⟨[_], by rw [memRead_select_fails hw]; rfl, Nat.le_succ 1⟩

/-- A transaction takes one reply and has at most two legs (R12, R44). -/
theorem Pending.Transacts.reply_and_legs {p : Pending} {s u : State} {d : Answer} (h : p.Transacts s d u) :
    u.replies = s.replies.tail ∧ ∃ legs : List Event, u.trace = s.trace ++ legs ∧ legs.length ≤ 2 := by
  rcases h with ⟨addr, v, -, -, rfl⟩ | rfl
  · obtain ⟨-, -, -, -, -, -, -, hreplies, -, htrace⟩ := memWrite_rest addr v d s.replied
    exact ⟨hreplies, _, htrace, Nat.le_succ 1⟩
  · obtain ⟨-, -, -, -, -, -, -, hreplies, -, -⟩ := memRead_rest p.run.1 p.run.2 d s.replied
    exact ⟨hreplies, memRead_legs _ _ d s.replied⟩

/-- A silent Transport gave no answer, whether its silence was listed or free. -/
theorem countP_answered_of_silent {s : State} (h : s.reply = .silent) : (s.replies.take 1).countP Reply.answered = 0 := by
  unfold State.reply at h
  cases hr : s.replies with
  | nil => rfl
  | cons r rs =>
    rw [hr, List.headD_cons] at h
    subst h
    rfl

/-- The transaction that comes next takes one reply. A silent one leaves the command with all it had left; an answered one runs at most
two legs and leaves the command with less. -/
theorem resume_spends (p : Pending) (s : State) : Spends p.transactionsLeft 1 s (resume p s) := by
  rcases resume_cases p s with ⟨hsilent, e⟩ | ⟨d, u, -, hu, hend⟩
  · rw [e]
    exact ⟨List.drop_one.symm, (congrArg (· + _) (countP_answered_of_silent hsilent)).trans_le (Nat.zero_add _).le,
      [], (List.append_nil _).symm, Nat.zero_le _, (Nat.zero_add _).le⟩
  · obtain ⟨hreplies, legs, htrace, htwo⟩ := hu.reply_and_legs
    have hcount : (s.replies.take 1).countP Reply.answered ≤ 1 :=
      List.countP_le_length.trans (List.length_take_le 1 _)
    have hrest : (resume p s).replies = u.replies ∧ (resume p s).trace = u.trace ∧
        (resume p s).transactionsLeft < p.transactionsLeft := by
      rcases hend with ⟨q, ⟨-, -, hless, -⟩, e⟩ | ⟨r, -, e⟩ | ⟨st, r, -, -, -, e⟩ <;> rw [e]
      · exact ⟨rfl, rfl, hless⟩
      · exact ⟨rfl, rfl, p.transactionsLeft_pos⟩
      · exact ⟨rfl, rfl, p.transactionsLeft_pos⟩
    obtain ⟨hreplies', htrace', hless⟩ := hrest
    exact ⟨by rw [hreplies', hreplies, List.drop_one], by omega, legs, htrace'.trans htrace, by omega, by omega⟩

/-- The Host's bytes are not touched by a transaction (R16). -/
theorem resume_inbox (p : Pending) (s : State) : (resume p s).inbox = s.inbox := by
  apply resume_keeps (P := fun t => t.inbox = s.inbox) p rfl
  case hsuspend => exact fun _ _ _ h => h
  case hstore => exact fun _ _ _ _ _ _ h => h
  case hread =>
    intro t d h
    obtain ⟨-, -, hinbox, -⟩ := memRead_rest p.run.1 p.run.2 d t
    exact hinbox.trans h
  case hrespond => exact fun _ _ h _ => h
  case herror => exact fun _ _ _ _ h => h

/-- A step takes at most one reply (R12): the reset, the wait and a response at once take none. -/
theorem step_spends {s t : State} (h : step s = .next t) : ∃ b k, k ≤ 1 ∧ Spends b k s t := by
  rcases step_next h with ⟨-, rfl⟩ | ⟨-, p, -, -, rfl⟩ | ⟨-, -, rfl | ⟨bs, r, -, rfl⟩ | ⟨bs, p, -, rfl⟩⟩
  · exact ⟨_, 0, Nat.zero_le 1, spends_zero rfl rfl (Nat.le_refl _)⟩
  · exact ⟨_, 1, Nat.le_refl 1, resume_spends p s.afterGap⟩
  · exact ⟨_, 0, Nat.zero_le 1, spends_zero rfl rfl (Nat.le_refl _)⟩
  · exact ⟨_, 0, Nat.zero_le 1, spends_zero rfl rfl (Nat.le_refl _)⟩
  · exact ⟨_, 1, Nat.le_refl 1, resume_spends p (s.afterGap.setInbox bs)⟩

/-- An idle Block to which the Host has sent nothing waits (R157). -/
theorem step_idle {s : State} (hr : s.resetIn = false) (hb : s.busy = none) (hi : s.inbox = []) :
    step s = .next s.afterGap := by
  have hdecode : decode [] = .incomplete := rfl
  simp [step, hr, stepBlock, hb, hi, hdecode]

/-- While the Host sends nothing, a step stays within what the command in progress has left. -/
theorem step_spends_left {s t : State} (hi : s.inbox = []) (h : step s = .next t) :
    (∃ k, Spends s.transactionsLeft k s t) ∧ t.inbox = [] := by
  rcases step_next h with ⟨-, rfl⟩ | ⟨-, p, hb, -, rfl⟩ | ⟨hr, hb, -⟩
  · exact ⟨⟨0, spends_zero rfl rfl (Nat.zero_le _)⟩, hi⟩
  · have hleft : s.transactionsLeft = p.transactionsLeft := by rw [State.transactionsLeft, hb]; rfl
    exact ⟨⟨1, hleft ▸ resume_spends p s.afterGap⟩, (resume_inbox p s.afterGap).trans hi⟩
  · rw [step_idle hr hb hi] at h
    cases h
    exact ⟨⟨0, spends_zero rfl rfl (Nat.le_refl _)⟩, hi⟩

/-- However long the command in progress waits, it stays within what it has left. -/
theorem steps_spends_left {n : Nat} : ∀ {s t : State}, s.inbox = [] → steps n s = some t →
    ∃ k, Spends s.transactionsLeft k s t := by
  induction n with
  | zero =>
    intro s t _ h
    cases h
    exact ⟨0, spends_zero rfl rfl (Nat.le_refl _)⟩
  | succ n ih =>
    intro s t hi h
    cases hstep : step s with
    | next u =>
      simp only [steps, hstep] at h
      obtain ⟨⟨k, hfirst⟩, hi'⟩ := step_spends_left hi hstep
      obtain ⟨j, hrest⟩ := ih hi' h
      exact ⟨k + j, hfirst.trans hrest⟩
    | fault r => simp [steps, hstep] at h
    | refused r => simp [steps, hstep] at h

/-- A command begins within its own number of transactions, and leaves the Host's bytes alone. -/
theorem exec_spends {i : Instr} {s u : State} (h : exec i s = .next u) :
    (∃ k, Spends i.maxTransactions k s u) ∧ u.inbox = s.inbox := by
  rcases exec_next h with ⟨r, -, rfl⟩ | ⟨p, -, -, -, hmax, rfl, -⟩
  · exact ⟨⟨0, spends_zero rfl rfl (Nat.zero_le _)⟩, rfl⟩
  · exact ⟨⟨1, (resume_spends p s).mono hmax⟩, resume_inbox p s⟩

/-- Settles O42: every step spends at most one reply, and a command's steps, by induction on their number, spend what the transaction
before has left. -/
theorem commandsTakeTheirTransactionsAtMost : Obligations.CommandsTakeTheirTransactionsAtMost := by
  refine ⟨fun s t h => ?_, fun i s u t n hi hexec hsteps => ?_⟩
  · obtain ⟨b, k, hk, hreplies, -, legs, htrace, htwo, -⟩ := step_spends h
    exact ⟨k, legs, hk, hreplies, htrace, htwo⟩
  · obtain ⟨⟨k, hfirst⟩, hi'⟩ := exec_spends hexec
    obtain ⟨j, hrest⟩ := steps_spends_left (hi'.trans hi) hsteps
    obtain ⟨hreplies, hanswers, legs, htrace, -, hlegs⟩ := hfirst.trans hrest
    exact ⟨k + j, legs, hreplies, by omega, htrace, by omega⟩

end Sys2Proof.Machine

/-! ### What the transaction of a busy Block keeps (R34, R38) -/

namespace Sys2Proof.Machine

/-- The offset lies in none of the runs. -/
def Outside (runs : List (Nat × Nat)) (a : Nat) : Prop := ∀ run ∈ runs, ¬ (run.1 ≤ a ∧ a < run.1 + run.2)

/-- The bytes a write transaction has stored, all of them or the first ones (R48 constraint 3), fit in the run it was asked for. -/
theorem memWrite_rf_length (addr : Byte) (v : List Byte) (d : Answer) (s : State) :
    ∃ w : List Byte, w.length ≤ v.length ∧ (memWrite addr v d s).2.rf = Memory.writeRun s.rf addr.toNat w := by
  obtain ⟨w, hw, e⟩ := memWrite_rf addr v d s
  refine ⟨w, ?_, e⟩
  rcases hw with rfl | rfl
  · exact Nat.le_refl _
  · exact List.length_take_le' d.stored v

/-- A transaction inside the chip keeps the register file canonical and every byte outside the command's runs (R46, R47). -/
theorem Pending.Transacts.rf {p : Pending} {s u : State} {d : Answer} (h : p.Transacts s d u)
    (hp : runRefusal s.ramTop p.run.1 p.run.2 = none) (hs : s.rf.wf = true) :
    u.rf.wf = true ∧ ∀ a, Outside p.storedRuns a → Memory.read u.rf a = Memory.read s.rf a := by
  rcases h with ⟨addr, v, -, hmem, rfl⟩ | rfl
  · obtain ⟨w, hw, e⟩ := memWrite_rf_length addr v d s.replied
    have hrun : addr.toNat + v.length ≤ 256 := Pending.storedRuns_le hp _ hmem
    have hspace : addr.toNat + w.length ≤ 256 := by omega
    rw [e]
    refine ⟨Memory.wf_writeRun w hs hspace, fun a ha => ?_⟩
    have hout : ¬ (addr.toNat ≤ a ∧ a < addr.toNat + v.length) := ha _ hmem
    exact (Memory.read_writeRun w a hs hspace).trans (if_neg (by omega))
  · obtain ⟨-, -, -, -, -, -, -, -, -, e⟩ := memRead_rest p.run.1 p.run.2 d s.replied
    rw [e]
    exact ⟨hs, fun _ _ => rfl⟩

/-- A transaction leaves `lastError`, the two ends of the Host interface, the reset input, the capacity and the gaps alone (R38). -/
theorem Pending.Transacts.rest {p : Pending} {s u : State} {d : Answer} (h : p.Transacts s d u) :
    u.lastError = s.lastError ∧ u.outbox = s.outbox ∧ u.resetIn = s.resetIn ∧ u.ramTop = s.ramTop ∧ u.gaps = s.gaps := by
  rcases h with ⟨addr, v, -, -, rfl⟩ | rfl
  · exact ⟨rfl, rfl, rfl, rfl, rfl⟩
  · obtain ⟨herror, -, -, houtbox, hreset, htop, hgaps, -⟩ := memRead_rest p.run.1 p.run.2 d s.replied
    exact ⟨herror, houtbox, hreset, htop, hgaps⟩

/-- The transaction that comes next leaves the capacity, the reset input and the gaps alone (R38). -/
theorem resume_rest (p : Pending) (s : State) :
    (resume p s).ramTop = s.ramTop ∧ (resume p s).resetIn = s.resetIn ∧ (resume p s).gaps = s.gaps := by
  rcases resume_cases p s with ⟨-, e⟩ | ⟨d, u, -, hu, hend⟩
  · rw [e]
    exact ⟨rfl, rfl, rfl⟩
  · obtain ⟨-, -, hreset, htop, hgaps⟩ := hu.rest
    rcases hend with ⟨q, -, e⟩ | ⟨r, -, e⟩ | ⟨st, r, -, -, -, e⟩ <;> rw [e] <;> exact ⟨htop, hreset, hgaps⟩

/-- Inside the chip, the transaction that comes next keeps the register file canonical and every byte outside the command's runs (R38). -/
theorem resume_rf {p : Pending} {s : State} (hp : runRefusal s.ramTop p.run.1 p.run.2 = none) (hs : s.rf.wf = true) :
    (resume p s).rf.wf = true ∧ ∀ a, Outside p.storedRuns a → Memory.read (resume p s).rf a = Memory.read s.rf a := by
  rcases resume_cases p s with ⟨-, e⟩ | ⟨d, u, -, hu, hend⟩
  · rw [e]
    exact ⟨hs, fun _ _ => rfl⟩
  · rcases hend with ⟨q, -, e⟩ | ⟨r, -, e⟩ | ⟨st, r, -, -, -, e⟩ <;> rw [e] <;> exact hu.rf hp hs

/-- `lastError` stays, or a failed time read leaves its status in it (R14). -/
theorem resume_lastError (p : Pending) (s : State) :
    (resume p s).lastError = s.lastError ∨ (p = .rdtime ∨ p = .getepoch) ∧ (resume p s).lastError ≠ 0x00#8 := by
  rcases resume_cases p s with ⟨-, e⟩ | ⟨d, u, -, hu, hend⟩
  · exact .inl (by rw [e]; rfl)
  · obtain ⟨herror, -⟩ := hu.rest
    rcases hend with ⟨q, -, e⟩ | ⟨r, -, e⟩ | ⟨st, r, hp, hst, -, e⟩ <;> rw [e]
    · exact .inl herror
    · exact .inl herror
    · exact .inr ⟨hp, hst⟩

/-- The transaction that comes next ends the command with one response, or gives none and leaves the Block busy with the same
transaction or one the command goes on with (R34, R65). -/
theorem resume_responds_or_busy (p : Pending) (s : State) :
    (∃ r, (resume p s).outbox = s.outbox ++ [r] ∧ (resume p s).busy = none) ∨
      ((resume p s).outbox = s.outbox ∧ ∃ q, (resume p s).busy = some q ∧ (q = p ∨ p.GoesOnWith q)) := by
  rcases resume_cases p s with ⟨-, e⟩ | ⟨d, u, -, hu, hend⟩
  · exact .inr (by rw [e]; exact ⟨rfl, p, rfl, .inl rfl⟩)
  · obtain ⟨-, houtbox, -⟩ := hu.rest
    rcases hend with ⟨q, hq, e⟩ | ⟨r, -, e⟩ | ⟨st, r, -, -, -, e⟩ <;> rw [e]
    · exact .inr ⟨houtbox, q, rfl, .inr hq⟩
    · exact .inl ⟨r, congrArg (· ++ [r]) houtbox, rfl⟩
    · exact .inl ⟨r, congrArg (· ++ [r]) houtbox, rfl⟩

/-- What the Block is busy with after the transaction `p`: `p` again, or a transaction the command goes on with. -/
theorem resume_busy {p q : Pending} {s : State} (h : (resume p s).busy = some q) : q = p ∨ p.GoesOnWith q := by
  rcases resume_responds_or_busy p s with ⟨r, -, hidle⟩ | ⟨-, q', hbusy, hq⟩
  · rw [hidle] at h
    cases h
  · rw [hbusy] at h
    cases h
    exact hq

/-- A step of a busy Block that is not reset runs the transaction that comes next, inside the chip, after the gap. -/
theorem step_busy_next {s t : State} {p : Pending} (hr : s.resetIn = false) (hb : s.busy = some p) (h : step s = .next t) :
    runRefusal s.ramTop p.run.1 p.run.2 = none ∧ t = resume p s.afterGap := by
  rcases step_next h with ⟨hr', -⟩ | ⟨-, p', hb', hp, rfl⟩ | ⟨-, hb', -⟩
  · rw [hr] at hr'
    cases hr'
  · rw [hb] at hb'
    cases hb'
    exact ⟨hp, rfl⟩
  · rw [hb] at hb'
    cases hb'

/-! ### O51 and O50: the invariant -/

/-- The gap keeps the invariant (R36). -/
theorem State.Inv.afterGap {s : State} (h : s.Inv) : s.afterGap.Inv :=
  ⟨wf_chipSteps s.gap h.canonical, h.pendingInChip⟩

/-- A transaction inside the chip on a canonical register file leads into the invariant: whatever transaction the command goes on with
lies inside every chip. -/
theorem resume_inv {p : Pending} {s : State} (hp : runRefusal s.ramTop p.run.1 p.run.2 = none) (hs : s.rf.wf = true) :
    (resume p s).Inv := by
  obtain ⟨hcanonical, -⟩ := resume_rf hp hs
  obtain ⟨htop, -, -⟩ := resume_rest p s
  refine ⟨hcanonical, fun q hq => ?_⟩
  rcases resume_busy hq with rfl | ⟨hlow, -⟩
  · rw [htop]
    exact hp
  · exact runRefusal_low _ _ _ hlow

/-- Settles O51: by the cases of a step, the gap keeping the invariant and each transaction leading into it. -/
theorem stepKeepsTheInvariant : Obligations.StepKeepsTheInvariant := by
  intro s t hs h
  have hgap := hs.afterGap
  rcases step_next h with ⟨-, rfl⟩ | ⟨-, p, -, hp, rfl⟩ | ⟨-, -, rfl | ⟨bs, r, -, rfl⟩ | ⟨bs, p, hp, rfl⟩⟩
  · exact ⟨hs.canonical, nofun⟩
  · exact resume_inv hp hgap.canonical
  · exact hgap
  · exact ⟨hgap.canonical, nofun⟩
  · exact resume_inv hp hgap.canonical

/-- Settles O50: nothing is listed in the register file and no transaction comes next. -/
theorem invariantHoldsAtReset : Obligations.InvariantHoldsAtReset :=
  ⟨reset_rf_wf, nofun⟩

/-! ### O38 and O41: the other registers, and the response -/

/-- Settles O38: a response at once writes only the outbox, and a transaction keeps the other registers. -/
theorem commandsKeepTheOtherRegisters : Obligations.CommandsKeepTheOtherRegisters := by
  refine ⟨fun i s t h => ?_, fun s t p hr hb h => ?_⟩
  · rcases exec_next h with ⟨r, -, rfl⟩ | ⟨p, -, -, htime, -, rfl, -⟩
    · exact ⟨rfl, rfl, rfl, .inl rfl⟩
    · obtain ⟨htop, hreset, -⟩ := resume_rest p s
      exact ⟨htop, resume_inbox p s, hreset, (resume_lastError p s).imp_right (And.imp_left htime)⟩
  · obtain ⟨-, rfl⟩ := step_busy_next hr hb h
    obtain ⟨htop, hreset, -⟩ := resume_rest p s.afterGap
    exact ⟨htop, resume_inbox p s.afterGap, hreset, resume_lastError p s.afterGap⟩

/-- A transaction gives one response and leaves the Block idle, or gives none and leaves it busy. -/
theorem resume_one_response (p : Pending) (s : State) :
    (∃ r, (resume p s).outbox = s.outbox ++ [r] ∧ (resume p s).busy = none) ∨
      ((resume p s).outbox = s.outbox ∧ ∃ q, (resume p s).busy = some q) :=
  (resume_responds_or_busy p s).imp_right (And.imp_right fun ⟨q, hq, _⟩ => ⟨q, hq⟩)

/-- Settles O41: a response at once is the first alternative, and a transaction is either. -/
theorem commandsGiveOneResponseOrStayBusy : Obligations.CommandsGiveOneResponseOrStayBusy := by
  refine ⟨fun i s t h => ?_, fun s t p hr hb h => ?_⟩
  · rcases exec_next h with ⟨r, -, rfl⟩ | ⟨p, -, -, -, -, rfl, -⟩
    · exact .inl ⟨r, rfl, rfl⟩
    · exact resume_one_response p s
  · obtain ⟨-, rfl⟩ := step_busy_next hr hb h
    exact resume_one_response p s.afterGap

/-! ### O39 and O40: the bytes outside the stored runs -/

/-- The register file is canonical, and the command in progress, if there is one, may not store to the offset any more. -/
structure State.Spares (a : Nat) (s : State) : Prop where
  canonical : s.rf.wf = true
  outside : ∀ p, s.busy = some p → Outside p.storedRuns a

/-- An idle Block stores nowhere. -/
theorem spares_of_idle {a : Nat} {s : State} (hs : s.rf.wf = true) (hb : s.busy = none) : s.Spares a :=
  ⟨hs, fun p hp => by rw [hb] at hp; cases hp⟩

/-- A transaction of a command that may not store to the offset leaves its byte, and the command goes on sparing it. -/
theorem resume_spares {p : Pending} {s : State} {a : Nat} (hp : runRefusal s.ramTop p.run.1 p.run.2 = none)
    (hs : s.rf.wf = true) (ha : Outside p.storedRuns a) :
    (resume p s).Spares a ∧ Memory.read (resume p s).rf a = Memory.read s.rf a := by
  obtain ⟨hcanonical, hread⟩ := resume_rf hp hs
  refine ⟨⟨hcanonical, fun q hq => ?_⟩, hread a ha⟩
  rcases resume_busy hq with rfl | ⟨-, hruns, -⟩
  · exact ha
  · exact fun run hrun => ha run (hruns run hrun)

/-- A command's first step leaves every byte outside its runs, and the command goes on sparing it. -/
theorem exec_spares {i : Instr} {s u : State} {a : Nat} (hs : s.rf.wf = true) (ha : Outside (storedRuns i) a)
    (h : exec i s = .next u) : u.Spares a ∧ Memory.read u.rf a = Memory.read s.rf a := by
  rcases exec_next h with ⟨r, -, rfl⟩ | ⟨p, hp, hruns, -, -, rfl, -⟩
  · exact ⟨spares_of_idle hs rfl, rfl⟩
  · exact resume_spares hp hs (hruns ▸ ha)

/-- A command's first step takes no gap. -/
theorem exec_gaps {i : Instr} {s u : State} (h : exec i s = .next u) : u.gaps = s.gaps := by
  rcases exec_next h with ⟨r, -, rfl⟩ | ⟨p, -, -, -, -, rfl, -⟩
  · rfl
  · obtain ⟨-, -, hgaps⟩ := resume_rest p s
    exact hgaps

/-- A step takes the next gap, or none when it is the reset. -/
theorem step_gaps {s t : State} (h : step s = .next t) : t.gaps = s.gaps ∨ t.gaps = s.gaps.tail := by
  rcases step_next h with ⟨-, rfl⟩ | ⟨-, p, -, -, rfl⟩ | ⟨-, -, rfl | ⟨bs, r, -, rfl⟩ | ⟨bs, p, -, rfl⟩⟩
  · exact .inl rfl
  · obtain ⟨-, -, hgaps⟩ := resume_rest p s.afterGap
    exact .inr hgaps
  · exact .inr rfl
  · exact .inr rfl
  · obtain ⟨-, -, hgaps⟩ := resume_rest p (s.afterGap.setInbox bs)
    exact .inr hgaps

/-- In the next `n` gaps the Chip leaves the offset's byte: R36 does not name it, or the gaps are empty. -/
def State.ChipLeaves (a n : Nat) (s : State) : Prop := chipMayChange a = false ∨ ∀ k < n, s.gaps[k]? = some []

/-- The byte after the next gap. -/
theorem State.ChipLeaves.read_gap {a n : Nat} {s : State} (h : s.ChipLeaves a (n + 1)) (hs : s.rf.wf = true) :
    Memory.read (chipSteps s.gap s.rf) a = Memory.read s.rf a := by
  rcases h with ha | hgaps
  · exact read_chipSteps s.gap hs ha
  · obtain ⟨gs, hgs⟩ := List.head?_eq_some_iff.mp (List.head?_eq_getElem? ▸ hgaps 0 (Nat.succ_pos n))
    rw [State.gap_of_gaps hgs, chipSteps_nil]

/-- The gaps left after a step. -/
theorem State.ChipLeaves.step {a n : Nat} {s t : State} (h : s.ChipLeaves a (n + 1)) (hstep : step s = .next t) :
    t.ChipLeaves a n := by
  refine h.imp_right fun hgaps k hk => ?_
  rcases step_gaps hstep with e | e <;> rw [e]
  · exact hgaps k (by omega)
  · rw [List.getElem?_tail]
    exact hgaps (k + 1) (by omega)

/-- While the Host sends nothing, a step whose gap leaves the byte of a spared offset leaves it too. -/
theorem step_spares {a : Nat} {s t : State} (hi : s.inbox = []) (hs : s.Spares a)
    (hgap : Memory.read s.afterGap.rf a = Memory.read s.rf a) (h : step s = .next t) :
    t.Spares a ∧ Memory.read t.rf a = Memory.read s.rf a := by
  have hcanonical : s.afterGap.rf.wf = true := wf_chipSteps s.gap hs.canonical
  rcases step_next h with ⟨-, rfl⟩ | ⟨-, p, hb, hp, rfl⟩ | ⟨hr, hb, -⟩
  · exact ⟨spares_of_idle hs.canonical rfl, rfl⟩
  · obtain ⟨hspares, hread⟩ := resume_spares (s := s.afterGap) hp hcanonical (hs.outside p hb)
    exact ⟨hspares, hread.trans hgap⟩
  · rw [step_idle hr hb hi] at h
    cases h
    exact ⟨spares_of_idle hcanonical hb, hgap⟩

/-- The first of several steps. -/
theorem steps_succ {n : Nat} {s t : State} (h : steps (n + 1) s = some t) : ∃ u, step s = .next u ∧ steps n u = some t := by
  cases hstep : step s with
  | next u => exact ⟨u, rfl, by simpa only [steps, hstep] using h⟩
  | fault r => simp [steps, hstep] at h
  | refused r => simp [steps, hstep] at h

/-- However long the command in progress runs and the Block waits after it, a spared byte the Chip leaves reads as before. -/
theorem steps_read {a n : Nat} : ∀ {s t : State}, s.inbox = [] → s.Spares a → s.ChipLeaves a n → steps n s = some t →
    Memory.read t.rf a = Memory.read s.rf a := by
  induction n with
  | zero =>
    intro s t _ _ _ h
    cases h
    rfl
  | succ n ih =>
    intro s t hi hs hchip h
    obtain ⟨u, hstep, hrest⟩ := steps_succ h
    obtain ⟨-, hi'⟩ := step_spends_left hi hstep
    obtain ⟨hs', hread⟩ := step_spares hi hs (hchip.read_gap hs.canonical) hstep
    exact (ih hi' hs' (hchip.step hstep) hrest).trans hread

/-- Over a whole command every byte outside its runs that the Chip leaves in its gaps reads as before (R38). -/
theorem command_read {i : Instr} {s u t : State} {a n : Nat} (hs : s.rf.wf = true) (hi : s.inbox = [])
    (hexec : exec i s = .next u) (hsteps : steps n u = some t) (ha : Outside (storedRuns i) a) (hchip : s.ChipLeaves a n) :
    Memory.read t.rf a = Memory.read s.rf a := by
  obtain ⟨-, hinbox⟩ := exec_spends hexec
  obtain ⟨hspares, hread⟩ := exec_spares hs ha hexec
  have hchip' : u.ChipLeaves a n := by rwa [State.ChipLeaves, exec_gaps hexec]
  exact (steps_read (hinbox.trans hi) hspares hchip' hsteps).trans hread

/-- Settles O39: the first transaction spares what lies outside the runs, and so does the whole command where R36 lets the Chip change
nothing. -/
theorem commandsKeepEveryOtherByte : Obligations.CommandsKeepEveryOtherByte := by
  refine ⟨fun i s t hs h a ha => ?_, fun i s u t n hs hi hexec hsteps a ha hchip => ?_⟩
  · obtain ⟨-, hread⟩ := exec_spares hs ha h
    exact hread
  · exact command_read hs hi hexec hsteps ha (.inl hchip)

/-- Settles O40: the empty gaps leave every byte. -/
theorem quietChipKeepsEveryUnstoredByte : Obligations.QuietChipKeepsEveryUnstoredByte := by
  intro i s u t n hs hi hgaps hexec hsteps a ha
  exact command_read hs hi hexec hsteps ha (.inr hgaps)

/-! ### O45 and O46: what a transaction does not depend on -/

/-- `s` with other bytes from the Host and another command in progress. -/
def State.withInput (bytes : List Byte) (b : Option Pending) (s : State) : State := { s with inbox := bytes, busy := b }

section
variable (bytes : List Byte) (b : Option Pending) (s : State)

/-- The read transaction does not look at the Host's bytes or the command in progress. -/
theorem memRead_withInput (addr : Byte) (n : Nat) (d : Answer) :
    memRead addr n d (s.withInput bytes b) =
      ((memRead addr n d s).1, (memRead addr n d s).2.1, (memRead addr n d s).2.2.withInput bytes b) := by
  by_cases hw : d.writeLeg = 0x00#8
  · simp only [memRead_selected hw]
    rfl
  · simp only [memRead_select_fails hw]
    rfl

/-- A write of a command reads neither, when the rest of the command reads neither. -/
theorem busWrite_withInput {addr : Byte} {v : List Byte} {p : Pending} {k : Byte → State → State}
    (hk : ∀ st u, k st (u.withInput bytes b) = (k st u).setInbox bytes) :
    busWrite addr v p k (s.withInput bytes b) = (busWrite addr v p k s).setInbox bytes := by
  have hreply : (s.withInput bytes b).reply = s.reply := rfl
  unfold busWrite
  rw [hreply]
  cases s.reply with
  | silent => rfl
  | answers d => exact hk (memWrite addr v d s.replied).1 (memWrite addr v d s.replied).2

/-- A read of a command, in the same way. -/
theorem busRead_withInput {addr : Byte} {n : Nat} {p : Pending} {k : Byte → List Byte → State → State}
    (hk : ∀ st d u, k st d (u.withInput bytes b) = (k st d u).setInbox bytes) :
    busRead addr n p k (s.withInput bytes b) = (busRead addr n p k s).setInbox bytes := by
  have hreply : (s.withInput bytes b).reply = s.reply := rfl
  have hreplied : (s.withInput bytes b).replied = s.replied.withInput bytes b := rfl
  unfold busRead
  rw [hreply]
  cases s.reply with
  | silent => rfl
  | answers d =>
    simp only [hreplied, memRead_withInput]
    exact hk _ _ _

/-- The transaction that comes next reads neither the Host's bytes nor what the Block is busy with: it leaves the former and sets the
latter. -/
theorem resume_withInput (p : Pending) : resume p (s.withInput bytes b) = (resume p s).setInbox bytes := by
  cases p with
  | timeWrite | osfWrite | blockWrite | alarmWrite | controlWrite | statusWrite =>
    simp only [resume, timeWrite, osfWrite, blockWrite, alarmWrite, controlWrite, statusWrite]
    exact busWrite_withInput bytes b s fun _ _ => rfl
  | osfRead | almieRead | sqwRead | peekRead | tempLsb | tempMsb =>
    simp only [resume, osfRead, almieRead, sqwRead, peekRead, tempLsb, tempMsb]
    exact busRead_withInput bytes b s fun _ _ _ => rfl
  | rdtime | getepoch | blockRead | consumeRead | clearRead | oscRead =>
    simp only [resume, rdtimeRead, getepochRead, blockRead, consumeRead, consumeStatus, clearRead, clearStatus, oscRead, oscStatus]
    refine busRead_withInput bytes b s fun _ _ _ => ?_
    split <;> rfl

end

/-- The transaction that comes next does not depend on what the Block was busy with. -/
theorem resume_suspend (p q : Pending) (s : State) : resume p (s.suspend q) = resume p s := by
  calc resume p (s.suspend q)
      = (resume p s).setInbox s.inbox := resume_withInput s.inbox (some q) s p
    _ = (resume p s).setInbox (resume p s).inbox := by rw [resume_inbox]
    _ = resume p s := rfl

/-- A busy Block's step faults when its next transaction lies outside the chip, and only then. -/
theorem step_busy_fault_iff {s : State} {p : Pending} (hr : s.resetIn = false) (hb : s.busy = some p) (f : Fault) :
    step s = .fault f ↔ ∃ r, runRefusal s.ramTop p.run.1 p.run.2 = some r := by
  cases f
  cases hp : runRefusal s.ramTop p.run.1 p.run.2 with
  | none => simp [step_busy hr hb hp]
  | some r => simp [step, hr, stepBlock, hb, stepBusy, hp]

/-- Settles O45: the step runs the same transaction, which does not look at the Host's bytes. -/
theorem busyBlockAcceptsNoPacket : Obligations.BusyBlockAcceptsNoPacket := by
  intro s p bytes hr hb
  have hr' : (s.setInbox bytes).resetIn = false := hr
  have hb' : (s.setInbox bytes).busy = some p := hb
  refine ⟨fun t h => ?_, fun f h => ?_⟩
  · obtain ⟨hp, rfl⟩ := step_busy_next hr hb h
    refine ⟨resume_inbox p s.afterGap, (step_busy hr' hb' hp).trans (congrArg _ ?_)⟩
    exact resume_withInput bytes s.busy s.afterGap p
  · exact (step_busy_fault_iff hr' hb' f).mpr ((step_busy_fault_iff hr hb f).mp h)

/-- A silent Transport leaves the transaction as the one that comes next, its reply taken (R59). -/
theorem resume_silent {s : State} {rs : List Reply} (h : s.replies = .silent :: rs) (p : Pending) :
    resume p s = { s with busy := some p, replies := rs } := by
  rcases resume_cases p s with ⟨-, e⟩ | ⟨d, u, hd, -⟩
  · rw [e, State.replied, h]
    rfl
  · rw [State.reply_of_replies h] at hd
    cases hd

/-- Settles O46: the silent transaction comes next again, and what it then does depends neither on the suspension nor on the command's
first step. -/
theorem silentTransportSuspendsAndResumes : Obligations.SilentTransportSuspendsAndResumes := by
  refine ⟨fun i s t rs hr hb hreplies h htaken => ?_, fun s t p rs hr hb hreplies h => ?_⟩
  · rcases exec_next h with ⟨r, -, rfl⟩ | ⟨p, hp, -, -, -, rfl, hexec⟩
    · exact absurd rfl htaken
    · rw [resume_silent hreplies]
      refine ⟨⟨p, rfl⟩, ?_⟩
      calc step { s with busy := some p, replies := rs }
          = .next (resume p (State.suspend p { s.afterGap with replies := rs })) := step_busy hr rfl hp
        _ = .next (resume p { s.afterGap with replies := rs }) := congrArg _ (resume_suspend p p _)
        _ = exec i { s.afterGap with replies := rs } := (hexec { s.afterGap with replies := rs } rfl).symm
  · obtain ⟨-, rfl⟩ := step_busy_next hr hb h
    rw [resume_silent (s := s.afterGap) hreplies, ← hb]
    rfl

/-! ### O55: the bits the Chip changes (R36) -/

/-- A bit after setting or clearing the bits of a mask. -/
theorem putBits_getLsbD (x mask : Byte) (v : Bool) (i : Nat) :
    (putBits x mask v).getLsbD i = if mask.getLsbD i then v else x.getLsbD i := by
  by_cases hi : i < 8
  · cases v <;> cases hm : mask.getLsbD i <;> simp [putBits, hi, hm, -BitVec.getLsbD_eq_getElem]
  · have hout (y : Byte) : y.getLsbD i = false := BitVec.getLsbD_of_ge y i (Nat.le_of_not_lt hi)
    simp [hout]

/-- The Chip may turn the STATUS byte `x` into `y`: it clears no flag and leaves bits 6:3 (R36). -/
def KeepsFlags (x y : Byte) : Prop :=
  (∀ i, i = 0 ∨ i = 1 ∨ i = 7 → x.getLsbD i = true → y.getLsbD i = true) ∧ ∀ i, 3 ≤ i → i ≤ 6 → y.getLsbD i = x.getLsbD i

theorem KeepsFlags.refl (x : Byte) : KeepsFlags x x := ⟨fun _ _ h => h, fun _ _ _ => rfl⟩

theorem KeepsFlags.trans {x y z : Byte} (h₁ : KeepsFlags x y) (h₂ : KeepsFlags y z) : KeepsFlags x z := by
  obtain ⟨hflags₁, hkept₁⟩ := h₁
  obtain ⟨hflags₂, hkept₂⟩ := h₂
  exact ⟨fun i hi hx => hflags₂ i hi (hflags₁ i hi hx), fun i hl hu => (hkept₂ i hl hu).trans (hkept₁ i hl hu)⟩

/-- Setting bits outside 6:3. -/
theorem keepsFlags_set (x : Byte) {mask : Byte} (hmask : ∀ i, 3 ≤ i → i ≤ 6 → mask.getLsbD i = false) :
    KeepsFlags x (x ||| mask) := by
  refine ⟨fun i _ hx => ?_, fun i hl hu => ?_⟩
  · rw [BitVec.getLsbD_or, hx, Bool.true_or]
  · rw [BitVec.getLsbD_or, hmask i hl hu, Bool.or_false]

/-- Putting BSY, which is no flag and not among bits 6:3. -/
theorem keepsFlags_bsy (x : Byte) (v : Bool) : KeepsFlags x (putBits x bsyMask v) := by
  have hsame {i : Nat} (hi : bsyMask.getLsbD i = false) : (putBits x bsyMask v).getLsbD i = x.getLsbD i := by
    simp only [putBits_getLsbD, hi, Bool.false_eq_true, if_false]
  refine ⟨fun i hi hx => ?_, fun i hl hu => hsame ?_⟩
  · exact (hsame (by rcases hi with rfl | rfl | rfl <;> rfl)).trans hx
  · interval_cases i <;> rfl

/-- One chip step on STATUS: alarm matches and the oscillator stop set a flag, the rest is BSY or other bytes. -/
theorem chipStep_keepsFlags (c : ChipStep) {m : Memory} (h : m.wf = true) :
    KeepsFlags (Memory.read m 0x0F) (Memory.read (chipStep c m) 0x0F) := by
  have hother {a : Nat} (ha : 0x0F ≠ a) (b : Byte) :
      KeepsFlags (Memory.read m 0x0F) (Memory.read (Memory.write m a b) 0x0F) := by
    rw [Memory.read_write h, if_neg ha]
    exact KeepsFlags.refl _
  cases c with
  | alarmMatch k =>
    rw [chipStep, Memory.read_write h, if_pos rfl]
    refine keepsFlags_set _ fun i hl hu => ?_
    interval_cases i <;> cases k <;> rfl
  | oscillatorStop =>
    rw [chipStep, Memory.read_write h, if_pos rfl]
    refine keepsFlags_set _ fun i hl hu => ?_
    interval_cases i <;> rfl
  | bsy v =>
    rw [chipStep, Memory.read_write h, if_pos rfl]
    exact keepsFlags_bsy _ v
  | time register v => exact hother (by have := register.isLt; omega) v
  | temperature register v => exact hother (by have := register.isLt; omega) v
  | conv v => exact hother (by decide) _

/-- The steps of a gap on STATUS. -/
theorem chipSteps_keepsFlags (cs : List ChipStep) : ∀ {m : Memory}, m.wf = true →
    KeepsFlags (Memory.read m 0x0F) (Memory.read (chipSteps cs m) 0x0F) := by
  induction cs with
  | nil => exact fun _ => KeepsFlags.refl _
  | cons c cs ih => exact fun h => (chipStep_keepsFlags c h).trans (ih (wf_chipStep c h))

/-- CONV is bit 5 (R24). -/
theorem convMask_getLsbD {i : Nat} (hi : i ≠ 5) : convMask.getLsbD i = false := by
  have hconv : convMask = BitVec.twoPow 8 5 := rfl
  rw [hconv, BitVec.getLsbD_twoPow, decide_eq_false hi.symm, Bool.and_false]

/-- One chip step on the bits of CONTROL other than CONV. -/
theorem chipStep_control (c : ChipStep) {m : Memory} (h : m.wf = true) {i : Nat} (hi : i ≠ 5) :
    (Memory.read (chipStep c m) 0x0E).getLsbD i = (Memory.read m 0x0E).getLsbD i := by
  have hother {a : Nat} (ha : 0x0E ≠ a) (b : Byte) :
      (Memory.read (Memory.write m a b) 0x0E).getLsbD i = (Memory.read m 0x0E).getLsbD i := by
    rw [Memory.read_write h, if_neg ha]
  cases c with
  | conv v =>
    rw [chipStep, Memory.read_write h, if_pos rfl, putBits_getLsbD, convMask_getLsbD hi, if_neg Bool.false_ne_true]
  | alarmMatch k => exact hother (by decide) _
  | oscillatorStop => exact hother (by decide) _
  | bsy v => exact hother (by decide) _
  | time register v => exact hother (by have := register.isLt; omega) v
  | temperature register v => exact hother (by have := register.isLt; omega) v

/-- The steps of a gap on the bits of CONTROL other than CONV. -/
theorem chipSteps_control (cs : List ChipStep) : ∀ {m : Memory} {i : Nat}, m.wf = true → i ≠ 5 →
    (Memory.read (chipSteps cs m) 0x0E).getLsbD i = (Memory.read m 0x0E).getLsbD i := by
  induction cs with
  | nil => exact fun _ _ => rfl
  | cons c cs ih => exact fun h hi => (ih (wf_chipStep c h) hi).trans (chipStep_control c h hi)

/-- Settles O55: by induction on the steps, for STATUS, for CONTROL and for the bytes R36 does not name. -/
theorem chipStepsNeverClearFlags : Obligations.ChipStepsNeverClearFlags := by
  intro cs m h
  obtain ⟨hflags, hkept⟩ := chipSteps_keepsFlags cs h
  refine ⟨hflags, hkept, fun i hi => chipSteps_control cs h hi, fun a _ _ _ _ _ => read_chipSteps cs h ?_⟩
  simp only [chipMayChange, Bool.or_eq_false_iff, decide_eq_false_iff_not, beq_eq_false_iff_ne]
  omega

/-! ### O49: after reset -/

/-- An idle Block without a whole packet waits, and only the Chip takes its steps (R157, R36). -/
theorem step_waits {s : State} (hr : s.resetIn = false) (hb : s.busy = none) (hd : decode s.inbox = .incomplete) :
    step s = .next s.afterGap := by
  simp [step, hr, stepBlock, hb, hd]

/-- Settles O49: nothing sent is no whole packet. -/
theorem resetLeavesTheBlockIdleAndWaiting : Obligations.ResetLeavesTheBlockIdleAndWaiting :=
  ⟨rfl, rfl, rfl, rfl, step_waits rfl rfl rfl, fun _ hr hb hd => step_waits hr hb hd⟩

end Sys2Proof.Machine

/-! ### O53 and O54: the history (R44, R65) -/

namespace Sys2Proof.Machine

/-- The legs a step may start: none; one write leg, be it a failed address-select leg; or an address-select leg that answered 0 and the
read leg after it (R45 to R48). Each stays inside the space (R50). -/
inductive StepLegs : List Event → Prop
  | none : StepLegs []
  | write {off : Byte} {data : List Byte} {st : Byte} (hspace : off.toNat + data.length ≤ 256)
      (hlimit : st = 0x00#8 → data.length ≤ 31) : StepLegs [.write off data st]
  | read {off : Byte} {n : Nat} {data : List Byte} {st : Byte} (hspace : off.toNat + n ≤ 256) (hlength : data.length = n)
      (hlimit : st = 0x00#8 → n ≤ 32) : StepLegs [.write off [] 0x00#8, .read n data st]

/-- The leg of a write transaction inside the space. -/
theorem memWrite_stepLegs {addr : Byte} {v : List Byte} (hspace : addr.toNat + v.length ≤ 256) (d : Answer) (s : State) :
    ∃ legs, StepLegs legs ∧ (memWrite addr v d s).2.trace = s.trace ++ legs :=
  ⟨_, .write hspace le_of_legStatus_eq_zero, rfl⟩

/-- The legs of a read transaction inside the space: the failed address-select leg, or both. -/
theorem memRead_stepLegs {addr : Byte} {n : Nat} (hspace : addr.toNat + n ≤ 256) (d : Answer) (s : State) :
    ∃ legs, StepLegs legs ∧ (memRead addr n d s).2.2.trace = s.trace ++ legs := by
  by_cases hw : d.writeLeg = 0x00#8
  · rw [memRead_selected hw]
    exact ⟨_, .read hspace (by split <;> simp) le_of_legStatus_eq_zero, List.append_assoc _ _ _⟩
  · rw [memRead_select_fails hw]
    exact ⟨_, .write (data := []) addr.isLt.le fun _ => Nat.zero_le _, rfl⟩

/-- The transaction that comes next, inside the chip, starts no leg when the Transport is silent, and its own legs otherwise. -/
theorem resume_stepLegs {p : Pending} {s : State} (hp : runRefusal s.ramTop p.run.1 p.run.2 = none) :
    ∃ legs, StepLegs legs ∧ (resume p s).trace = s.trace ++ legs := by
  have hspace := le_of_runRefusal hp
  rcases resume_cases p s with ⟨-, e⟩ | ⟨d, u, -, hu, hend⟩
  · exact ⟨[], .none, by rw [e, List.append_nil]; rfl⟩
  · have hlegs : ∃ legs, StepLegs legs ∧ u.trace = s.trace ++ legs := by
      rcases hu with ⟨addr, v, hrun, -, rfl⟩ | rfl
      · rw [hrun] at hspace
        exact memWrite_stepLegs hspace d s.replied
      · exact memRead_stepLegs hspace d s.replied
    rcases hend with ⟨q, -, e⟩ | ⟨r, -, e⟩ | ⟨st, r, -, -, -, e⟩ <;> rw [e] <;> exact hlegs

/-- What a step appends to the trace. -/
theorem step_stepLegs {s t : State} (h : step s = .next t) : ∃ legs, StepLegs legs ∧ t.trace = s.trace ++ legs := by
  have hnone : ∃ legs, StepLegs legs ∧ s.trace = s.trace ++ legs := ⟨[], .none, (List.append_nil _).symm⟩
  rcases step_next h with ⟨-, rfl⟩ | ⟨-, p, -, hp, rfl⟩ | ⟨-, -, rfl | ⟨bs, r, -, rfl⟩ | ⟨bs, p, hp, rfl⟩⟩
  · exact hnone
  · exact resume_stepLegs (s := s.afterGap) hp
  · exact hnone
  · exact hnone
  · exact resume_stepLegs (s := s.afterGap.setInbox bs) hp

/-- The legs of a step are lawful. -/
theorem StepLegs.lawful {legs : List Event} (h : StepLegs legs) : ∀ e ∈ legs, e.Lawful := by
  cases h with
  | none => exact nofun
  | write hspace hlimit => exact List.forall_mem_singleton.mpr ⟨hspace, hlimit⟩
  | read hspace hlength hlimit =>
    exact List.forall_mem_cons.mpr ⟨⟨Nat.le_of_lt (BitVec.isLt _), fun _ => Nat.zero_le _⟩,
      List.forall_mem_singleton.mpr ⟨hlength, hlimit⟩⟩

/-- The read leg of a step follows its own address-select leg, whatever stood before. -/
theorem StepLegs.readsSelected {legs : List Event} (h : StepLegs legs) (selected : Bool) :
    Machine.readsSelected selected legs = true := by
  cases h <;> rfl

/-- The read leg of a step stays inside the space from its own offset, whatever stood before. -/
theorem StepLegs.readsInSpace {legs : List Event} (h : StepLegs legs) (selected : Option Byte) :
    Machine.readsInSpace selected legs = true := by
  cases h with
  | none => rfl
  | write => rfl
  | read hspace => exact (Bool.and_true _).trans (decide_eq_true hspace)

/-- A trace of the shape of R45 and R47 keeps it when legs are appended that have it whatever stood before them. -/
theorem readsSelected_append {es legs : List Event} (hlegs : ∀ selected, readsSelected selected legs = true) :
    ∀ {selected : Bool}, readsSelected selected es = true → readsSelected selected (es ++ legs) = true := by
  induction es with
  | nil => exact fun _ => hlegs _
  | cons e es ih =>
    intro selected h
    cases e with
    | write off data st => exact ih h
    | read n data st =>
      obtain ⟨hselected, hrest⟩ := (Bool.and_eq_true _ _).mp h
      exact (Bool.and_eq_true _ _).mpr ⟨hselected, ih hrest⟩

/-- Read legs inside the space (R50), in the same way. -/
theorem readsInSpace_append {es legs : List Event} (hlegs : ∀ selected, readsInSpace selected legs = true) :
    ∀ {selected : Option Byte}, readsInSpace selected es = true → readsInSpace selected (es ++ legs) = true := by
  induction es with
  | nil => exact fun _ => hlegs _
  | cons e es ih =>
    intro selected h
    cases e with
    | write off data st => exact ih h
    | read n data st =>
      cases selected with
      | none => cases h
      | some off =>
        obtain ⟨hspace, hrest⟩ := (Bool.and_eq_true _ _).mp h
        exact (Bool.and_eq_true _ _).mpr ⟨hspace, ih hrest⟩

/-- An `err` the transaction that comes next answers carries a non-zero status (R65). -/
theorem resume_err {p : Pending} {s : State} {st : Byte} (h : .err st ∈ (resume p s).outbox) :
    .err st ∈ s.outbox ∨ st ≠ 0x00#8 := by
  rcases resume_cases p s with ⟨-, e⟩ | ⟨d, u, -, hu, hend⟩
  · rw [e] at h
    exact .inl h
  · obtain ⟨-, houtbox, -⟩ := hu.rest
    have hresponse {r : Response} (hr : ∀ st, r = .err st → st ≠ 0x00#8) (h : .err st ∈ u.outbox ++ [r]) :
        .err st ∈ s.outbox ∨ st ≠ 0x00#8 := by
      rw [houtbox] at h
      exact (List.mem_append.mp h).imp_right fun h => hr st (List.mem_singleton.mp h).symm
    rcases hend with ⟨q, -, e⟩ | ⟨r, hr, e⟩ | ⟨st', r, -, -, hr, e⟩ <;> rw [e] at h
    · exact .inl (houtbox ▸ h)
    · exact hresponse hr h
    · exact hresponse hr h

/-- An `err` a step answers carries a non-zero status (R65). -/
theorem step_err {s t : State} {st : Byte} (hstep : step s = .next t) (h : .err st ∈ t.outbox) :
    .err st ∈ s.outbox ∨ st ≠ 0x00#8 := by
  rcases step_next hstep with ⟨-, rfl⟩ | ⟨-, p, -, -, rfl⟩ | ⟨-, -, rfl | ⟨bs, r, hr, rfl⟩ | ⟨bs, p, -, rfl⟩⟩
  · exact .inl h
  · exact resume_err (s := s.afterGap) h
  · exact .inl h
  · exact (List.mem_append.mp h).imp_right fun h => absurd (List.mem_singleton.mp h).symm (hr st)
  · exact resume_err (s := s.afterGap.setInbox bs) h

/-- Settles O53: what a step answers and the legs it appends are lawful. -/
theorem stepKeepsTheHistoryLawful : Obligations.StepKeepsTheHistoryLawful := by
  intro s t _ hs h
  obtain ⟨legs, hlegs, htrace⟩ := step_stepLegs h
  refine ⟨fun st hst => (step_err h hst).elim (hs.responses st) id, ?_, ?_⟩ <;> rw [htrace]
  · exact List.forall_mem_append.mpr ⟨hs.legs, hlegs.lawful⟩
  · exact readsInSpace_append hlegs.readsInSpace hs.reads

/-- Settles O54: the legs a step appends have the shape whatever stood before them. -/
theorem stepKeepsReadLegsSelected : Obligations.StepKeepsReadLegsSelected := by
  intro s t hs h
  obtain ⟨legs, hlegs, htrace⟩ := step_stepLegs h
  exact htrace ▸ readsSelected_append hlegs.readsSelected hs

end Sys2Proof.Machine

/-! ### O18: the refusals (R29, R50) -/

namespace Sys2Proof.Machine

/-- Why a run has no meaning: it passes 0xFF, or it does not and passes RAM_TOP (R50, R29). -/
theorem runRefusal_some_iff (s : State) (addr : Byte) (n : Nat) (r : Refusal) :
    runRefusal s.ramTop addr n = some r ↔
      (256 < addr.toNat + n ∧ r = .runPastTop) ∨ (addr.toNat + n ≤ 256 ∧ ¬ InChip s addr n ∧ r = .aboveRamTop) := by
  rw [← runRefusal_none_iff]
  unfold runRefusal Config.regFileSize
  split
  case isTrue hpast => simp [hpast, Nat.not_le.mpr hpast, eq_comm]
  case isFalse hin =>
    split
    · simp [hin]
    · split <;> simp [hin, Nat.not_lt.mp hin, eq_comm]

/-- A command that checks its run is refused for the run's reason and for no other. -/
theorem ifInChip_refused_iff (addr : Byte) (n : Nat) (run : State → State) (s : State) (r : Refusal) :
    ifInChip addr n run s = .refused r ↔ runRefusal s.ramTop addr n = some r := by
  unfold ifInChip
  cases runRefusal s.ramTop addr n <;> simp

/-- A command that answers an illegal packet and checks the run of a legal one. -/
theorem legal_ifInChip_refused_iff (illegal : Prop) [Decidable illegal] (addr : Byte) (n : Nat) (run : State → State) (s : State)
    (r : Refusal) :
    (if illegal then answerIllegal s else ifInChip addr n run s) = .refused r ↔
      ¬ illegal ∧ runRefusal s.ramTop addr n = some r := by
  split
  case isTrue hillegal => simp [answerIllegal, hillegal]
  case isFalse hlegal => simp only [hlegal, ifInChip_refused_iff, not_false_eq_true, true_and]

/-- A command on registers the Block chooses is never refused. -/
theorem exec_next_of_rawRun_none {i : Instr} (h : i.rawRun = none) (s : State) : ∃ t, exec i s = .next t := by
  cases i with
  | wrblk | rdblk | wrbyte | rdbyte => cases h
  | dec2bcd | bcd2dec | rdtime | wrtime | getepoch | setepoch | temp | geterr => exact ⟨_, rfl⟩
  | setalm | setalm3 | almie | almconsume | almpeek | almclear | sqwset | oscstop =>
    simp only [exec, execSetalm, execSetalm3, execAlmie, execAlmconsume, execAlmpeek, execAlmclear, execSqwset, execOscstop]
    split <;> exact ⟨_, rfl⟩

/-- A block of bytes is a legal packet when its length is one the packet can say (R68 case 6, R82). -/
theorem wellFormed_wrblk_iff (addr : Byte) (data : List Byte) :
    (Instr.wrblk addr data).wellFormed = true ↔ ¬ (data.length = 0 ∨ 255 < data.length) := by
  simp only [Instr.wellFormed, Instr.illegalOperand]
  split_ifs <;> simp [*]

/-- A read of a block is a legal packet when it asks for a byte (R68 case 6). -/
theorem wellFormed_rdblk_iff (addr count : Byte) : (Instr.rdblk addr count).wellFormed = true ↔ ¬ count = 0x00#8 := by
  simp only [Instr.wellFormed, Instr.illegalOperand]
  split_ifs <;> simp [*]

/-- A command is refused exactly when it is a legal raw access to a run without meaning. -/
theorem exec_refused_iff (i : Instr) (s : State) (r : Refusal) :
    exec i s = .refused r ↔
      i.wellFormed = true ∧ ∃ (addr : Byte) (n : Nat), i.rawRun = some (addr, n) ∧ runRefusal s.ramTop addr n = some r := by
  cases hraw : i.rawRun with
  | none =>
    obtain ⟨t, e⟩ := exec_next_of_rawRun_none hraw s
    simp [e]
  | some run =>
    obtain ⟨addr, n⟩ := run
    have hrun : (∃ a m, some (addr, n) = some (a, m) ∧ runRefusal s.ramTop a m = some r) ↔
        runRefusal s.ramTop addr n = some r := by simp
    rw [hrun]
    match i, hraw with
    | .wrblk _ data, rfl => rw [wellFormed_wrblk_iff, exec, execWrblk, legal_ifInChip_refused_iff]
    | .rdblk _ count, rfl => rw [wellFormed_rdblk_iff, exec, execRdblk, legal_ifInChip_refused_iff]
    | .wrbyte _ value, rfl => exact (ifInChip_refused_iff _ _ _ _ _).trans (and_iff_right rfl).symm
    | .rdbyte _, rfl => exact (ifInChip_refused_iff _ _ _ _ _).trans (and_iff_right rfl).symm

/-- Settles O18: the reasons of a run are those of the statement. -/
theorem refusedExactlyOutsideTheChip : Obligations.RefusedExactlyOutsideTheChip := by
  intro i s r
  simp only [exec_refused_iff, runRefusal_some_iff]

/-! ### O14: the raw block commands, one transaction each (R105, R106) -/

/-- A command of one transaction completes when it answers from a state `u` that differs from `s` only in the trace, the register file, the
pointer and the reply taken. -/
theorem completes_of_respond {i : Instr} {s u : State} {r : Response} {legs : List Event} {m : Memory}
    (hexec : exec i s = .next (u.respond r)) (herror : u.lastError = s.lastError) (hinbox : u.inbox = s.inbox)
    (houtbox : u.outbox = s.outbox) (hreset : u.resetIn = s.resetIn) (htop : u.ramTop = s.ramTop) (hgaps : u.gaps = s.gaps)
    (hreplies : u.replies = s.replies.drop 1) (htrace : u.trace = s.trace ++ legs) (hrf : u.rf = m) :
    Completes i s r legs m s.lastError 1 :=
  ⟨_, _, hexec, rfl, congrArg (· ++ [r]) houtbox, rfl, htrace, hrf, herror, hreplies, hgaps, hinbox, hreset, htop⟩

/-- A legal WRBLK inside the chip runs its write. -/
theorem exec_wrblk {addr : Byte} {data : List Byte} {s : State} (hpos : 1 ≤ data.length) (hmax : data.length ≤ 255)
    (hin : InChip s addr data.length) : exec (.wrblk addr data) s = .next (blockWrite addr data s) := by
  have hlegal : ¬ (data.length = 0 ∨ 255 < data.length) := by omega
  simp only [exec, execWrblk, if_neg hlegal, ifInChip, (runRefusal_none_iff s addr data.length).mpr hin]

/-- A legal RDBLK inside the chip runs its read. -/
theorem exec_rdblk {addr count : Byte} {s : State} (hpos : 1 ≤ count.toNat) (hin : InChip s addr count.toNat) :
    exec (.rdblk addr count) s = .next (blockRead addr count.toNat s) := by
  have hlegal : count ≠ 0x00#8 := by
    rintro rfl
    exact absurd hpos (by decide)
  simp only [exec, execRdblk, if_neg hlegal, ifInChip, (runRefusal_none_iff s addr count.toNat).mpr hin]

/-- WRBLK of any legal length: one write leg, whose status is the draw within the limit and never 0 beyond it (R48, R49, R105). -/
theorem wrblk_completes {addr : Byte} {data : List Byte} {s : State} {d : Answer} {rs : List Reply}
    (h : s.replies = .answers d :: rs) (hpos : 1 ≤ data.length) (hmax : data.length ≤ 255) (hin : InChip s addr data.length) :
    ∃ st : Byte, (data.length ≤ 31 → st = d.writeLeg) ∧ (31 < data.length → st ≠ 0x00#8) ∧
      Completes (.wrblk addr data) s (statusResponse st) [.write addr data st]
        (Memory.writeRun s.rf addr.toNat (if st = 0x00#8 then data else data.take d.stored)) s.lastError 1 := by
  obtain ⟨st, u, e, herror, -, hinbox, houtbox, hreset, htop, hgaps, hreplies, -, htrace, hrf, hwithin, hover⟩ :=
    busWrite_run h addr data (.blockWrite addr data) fun st s => s.respond (statusResponse st)
  refine ⟨st, hwithin, hover, completes_of_respond ?_ herror hinbox houtbox hreset htop hgaps ?_ htrace hrf⟩
  · rw [exec_wrblk hpos hmax hin, blockWrite, e]
  · rw [hreplies, h]
    rfl

/-- RDBLK of any legal length: the failed address-select leg alone, or both legs, the read leg's status being the draw within the limit and
never 0 beyond it (R47, R48, R49, R106). -/
theorem rdblk_completes {addr count : Byte} {s : State} {d : Answer} {rs : List Reply}
    (h : s.replies = .answers d :: rs) (hpos : 1 ≤ count.toNat) (hin : InChip s addr count.toNat) :
    (d.writeLeg ≠ 0x00#8 →
      Completes (.rdblk addr count) s (.err d.writeLeg) [.write addr [] d.writeLeg] s.rf s.lastError 1) ∧
    (d.writeLeg = 0x00#8 → ∃ (st : Byte) (bytes : List Byte), bytes.length = count.toNat ∧
      (count.toNat ≤ 32 → st = d.readLeg) ∧ (32 < count.toNat → st ≠ 0x00#8) ∧
      (st = 0x00#8 → bytes = Memory.readRun s.rf addr.toNat count.toNat) ∧
      Completes (.rdblk addr count) s (if st = 0x00#8 then .ok bytes else .err st)
        [.write addr [] 0x00#8, .read count.toNat bytes st] s.rf s.lastError 1) := by
  obtain ⟨st, bytes, u, e, hlength, herror, -, hinbox, houtbox, hreset, htop, hgaps, htaken, -, hrf, hfails, hselected⟩ :=
    busRead_run h addr count.toNat (.blockRead addr count.toNat)
      fun st d s => if st = 0x00#8 then s.respond (.ok d) else s.respond (.err st)
  have hexec : exec (.rdblk addr count) s = .next (u.respond (if st = 0x00#8 then .ok bytes else .err st)) := by
    rw [exec_rdblk hpos hin, blockRead, e]
    split <;> rfl
  have hreplies : u.replies = s.replies.drop 1 := by
    rw [htaken, h]
    rfl
  have hcompletes {legs : List Event} (htrace : u.trace = s.trace ++ legs) :=
    completes_of_respond hexec herror hinbox houtbox hreset htop hgaps hreplies htrace hrf
  refine ⟨fun hw => ?_, fun hw => ?_⟩
  · obtain ⟨rfl, htrace⟩ := hfails hw
    simpa only [if_neg hw] using hcompletes htrace
  · obtain ⟨htrace, hbytes, hwithin, hover⟩ := hselected hw
    exact ⟨st, bytes, hlength, hwithin, hover, hbytes, hcompletes htrace⟩

/-- Settles O14: beyond the limit the leg's status is not 0, so the response is `err`. -/
theorem overLengthBlocksFail : Obligations.OverLengthBlocksFail := by
  intro addr s d rs h
  refine ⟨fun data hlong hmax hin => ?_, fun count hlong hin hw => ?_, fun count hlong hin hw => ?_⟩
  · obtain ⟨st, -, hover, hcompletes⟩ := wrblk_completes h (by omega) hmax hin
    have hst : st ≠ 0x00#8 := hover hlong
    rw [statusResponse, if_neg hst, if_neg hst] at hcompletes
    exact ⟨st, hst, hcompletes⟩
  · obtain ⟨-, hselected⟩ := rdblk_completes h (by omega) hin
    obtain ⟨st, drawn, hlength, -, hover, -, hcompletes⟩ := hselected hw
    have hst : st ≠ 0x00#8 := hover hlong
    rw [if_neg hst] at hcompletes
    exact ⟨st, drawn, hst, hlength, hcompletes⟩
  · obtain ⟨hfails, -⟩ := rdblk_completes h (by omega) hin
    exact hfails hw

/-! ### O56: the wire (R42, R45) -/

/-- The device address 0x68 with the direction bit of a write (R42). -/
theorem addressByte_write : addressByte false = 0xD0#8 := by decide

/-- The device address 0x68 with the direction bit of a read (R42). -/
theorem addressByte_read : addressByte true = 0xD1#8 := by decide

/-- Settles O56: the two address bytes, in the sequences of R45. -/
theorem legsOnTheWire : Obligations.LegsOnTheWire := by
  refine ⟨fun off data => ?_, fun n data => ?_⟩
  · rw [Event.wire, addressByte_write]
    rfl
  · rw [Event.wire, addressByte_read]
    rfl

end Sys2Proof.Machine

/-! ### O57 and O58: the round trip of a packet (R63, R75) -/

namespace Sys2Proof

/-- The operand bytes of a command give the command back, whatever follows them; only more data than `len` can say does not (R82). -/
theorem decodeOperands_operands {i : Instr} (h : i.illegalOperand ≠ some .tooLong) (rest : List Byte) :
    decodeOperands i.opcode (i.operands ++ rest) = some (i, rest) := by
  cases i with
  | wrblk addr data =>
    have hlen : data.length < 256 := by
      by_contra hlong
      exact h (by rw [Instr.illegalOperand, if_neg (by omega), if_pos (by omega)])
    simp [Instr.opcode, Instr.operands, decodeOperands, Nat.mod_eq_of_lt hlen]
  | wrtime t => simp [Instr.opcode, Instr.operands, decodeOperands, le16, half_le16]
  | setepoch e => simp [Instr.opcode, Instr.operands, decodeOperands, le32, word_le32]
  | _ => rfl

/-- The bytes the operands were taken from are the command's operand bytes and the bytes after them (R64). -/
theorem operands_of_decodeOperands {o : Opcode} {bytes rest : List Byte} {i : Instr}
    (h : decodeOperands o bytes = some (i, rest)) : i.opcode = o ∧ bytes = i.operands ++ rest := by
  cases o with
  | rdtime | getepoch | temp | geterr =>
    cases h
    exact ⟨rfl, rfl⟩
  | wrblk =>
    simp only [decodeOperands] at h
    split at h
    · split at h
      · rename_i addr len r hlen
        cases h
        refine ⟨rfl, ?_⟩
        simp [Instr.operands, Nat.min_eq_left hlen]
      · cases h
    · cases h
  | _ =>
    simp only [decodeOperands] at h
    split at h
    · cases h
      refine ⟨rfl, ?_⟩
      simp [Instr.operands, le16_half, le32_word]
    · cases h

/-- A packet is taken exactly when its first byte is an opcode whose operand bytes have all come (R75). -/
theorem decode_packet_iff {op : Byte} {bytes rest : List Byte} {i : Instr} :
    decode (op :: bytes) = .packet i rest ↔ ∃ o, Opcode.ofByte op = some o ∧ decodeOperands o bytes = some (i, rest) := by
  rw [decode]
  cases Opcode.ofByte op with
  | none => simp
  | some o => cases h : decodeOperands o bytes <;> simp [h, Prod.ext_iff]

/-- Settles O57: the opcode byte stands for the opcode, and the operand bytes give the operands back. -/
theorem decodeOfEncode : Obligations.DecodeOfEncode := by
  intro i rest h
  have hshort : i.illegalOperand ≠ some .tooLong := by
    rw [Option.isNone_iff_eq_none.mp h]
    nofun
  exact decode_packet_iff.mpr ⟨i.opcode, Opcode.ofByte_code i.opcode, decodeOperands_operands hshort rest⟩

/-- Settles O58: the first byte is the opcode's, and the operand bytes are those the operands were taken from. -/
theorem encodeOfDecode : Obligations.EncodeOfDecode := by
  intro bytes rest i h
  cases bytes with
  | nil => cases h
  | cons op bytes =>
    obtain ⟨o, hop, hoperands⟩ := decode_packet_iff.mp h
    obtain ⟨rfl, rfl⟩ := operands_of_decodeOperands hoperands
    rw [encode, Opcode.code_of_ofByte hop, List.cons_append]

/-! ### O59 and O60: the length of a packet, and packets written out (R66, R67) -/

/-- A byte that is no opcode is none of the codes of R66 (R68 case 1). -/
theorem Opcode.ofByte_eq_none_iff (b : Byte) : Opcode.ofByte b = none ↔ b ∉ Opcode.all.map Opcode.code := by
  simp [Opcode.ofByte, List.find?_eq_none]

/-- WRBLK's packet is as long as byte 2 says, once it has come (R82). -/
theorem packetLength_wrblk (rest : List Byte) :
    packetLength (Opcode.wrblk.code :: rest) = rest[1]?.map (fun len => 3 + len.toNat) := by
  match rest with
  | [] => rfl
  | [_] => rfl
  | _ :: _ :: _ => rfl

/-- Every other known opcode alone says the length of its packet (R67). -/
theorem packetLength_fixed {o : Opcode} (h : o ≠ .wrblk) (rest : List Byte) :
    packetLength (o.code :: rest) = some (1 + o.operandBytes) := by
  simp [packetLength]

/-- Settles O59: by the opcode the byte stands for, if any. -/
theorem packetLengthByOpcode : Obligations.PacketLengthByOpcode := by
  intro op rest
  cases hop : Opcode.ofByte op with
  | none =>
    have hunknown := (Opcode.ofByte_eq_none_iff op).mp hop
    simp only [Opcode.all, List.map, Opcode.code, List.mem_cons, List.not_mem_nil, or_false, not_or] at hunknown
    simp [packetLength, hop, hunknown]
  | some o =>
    obtain rfl := Opcode.code_of_ofByte hop
    cases o with
    | wrblk => exact packetLength_wrblk rest
    | _ =>
      rw [packetLength_fixed]
      · rfl
      · nofun

/-- Settles O60: each packet is a closed term the decoder runs on. -/
theorem writtenOutPacketsDecode : Obligations.WrittenOutPacketsDecode := by
  unfold Obligations.WrittenOutPacketsDecode
  decide

end Sys2Proof

/-! ### O44 and O37: the step of an idle Block (R75) -/

namespace Sys2Proof.Machine

/-- An idle Block with a whole packet takes its bytes and begins the command (R75). -/
theorem step_packet {s : State} {i : Instr} {rest : List Byte} (hr : s.resetIn = false) (hb : s.busy = none)
    (hd : decode s.inbox = .packet i rest) : step s = exec i (s.afterGap.setInbox rest) := by
  simp [step, hr, stepBlock, hb, hd]

/-- An idle Block takes an unknown opcode byte alone and answers `illegal` (R67, R68 case 1). -/
theorem step_illegalOpcode {s : State} {op : Byte} {rest : List Byte} (hr : s.resetIn = false) (hb : s.busy = none)
    (hd : decode s.inbox = .illegalOpcode op rest) : step s = answerIllegal (s.afterGap.setInbox rest) := by
  simp [step, hr, stepBlock, hb, hd]

/-- Settles O44: the idle Block's packet and the busy Block's transaction inside the chip. -/
theorem stepRunsTheDecodedCommand : Obligations.StepRunsTheDecodedCommand :=
  ⟨fun _ _ _ hr hb hd => step_packet hr hb hd,
    fun s p hr hb hin => step_busy hr hb ((runRefusal_none_iff s p.run.1 p.run.2).mpr hin)⟩

/-- Settles O37: the 20 bytes listed are the codes of R66, in its order. -/
theorem unknownOpcodesAnswerIllegalOnly : Obligations.UnknownOpcodesAnswerIllegalOnly := by
  intro s op rest hr hb hi hunknown
  have hop : Opcode.ofByte op = none := (Opcode.ofByte_eq_none_iff op).mpr hunknown
  have hd : decode s.inbox = .illegalOpcode op rest := by rw [hi, decode, hop]
  exact step_illegalOpcode hr hb hd

end Sys2Proof.Machine

/-! ### O36: illegal operands (R68 cases 2 to 6) -/

namespace Sys2Proof

/-- A byte that selects no alarm is neither 1 nor 2 (R69). -/
theorem Alarm.ofByte_eq_none_iff (b : Byte) : Alarm.ofByte b = none ↔ b ≠ 0x01#8 ∧ b ≠ 0x02#8 := by
  unfold Alarm.ofByte
  split_ifs <;> simp [*]

/-- A byte that is no Boolean is neither 0 nor 1 (R64). -/
theorem boolOfByte_eq_none_iff (b : Byte) : boolOfByte b = none ↔ b ≠ 0x00#8 ∧ b ≠ 0x01#8 := by
  unfold boolOfByte
  split_ifs <;> simp [*]

/-- A byte that is no alarm type is none of the codes of R70. -/
theorem AlarmType.ofByte_eq_none_iff (b : Byte) : AlarmType.ofByte b = none ↔ b ∉ AlarmType.all.map AlarmType.code := by
  simp [AlarmType.ofByte, List.find?_eq_none]

/-- A byte that is no frequency is above the last code of R71. -/
theorem SqwFreq.ofByte_eq_none_iff (b : Byte) : SqwFreq.ofByte b = none ↔ 5 ≤ b.toNat := by
  simp only [SqwFreq.ofByte, SqwFreq.all, SqwFreq.code, List.find?_eq_none, List.mem_cons, List.not_mem_nil, or_false, forall_eq_or_imp,
    forall_eq, beq_iff_eq, BitVec.toNat_eq, BitVec.toNat_ofNat]
  omega

end Sys2Proof

namespace Sys2Proof.Machine

/-- ALMIE with an operand that stands for nothing is illegal (R68 cases 2 and 3). -/
theorem execAlmie_illegal {which enabled : Byte} (h : Alarm.ofByte which = none ∨ boolOfByte enabled = none) (s : State) :
    execAlmie which enabled s = answerIllegal s := by
  unfold execAlmie
  split
  case h_1 hwhich henabled => simp [hwhich, henabled] at h
  case h_2 => rfl

/-- Settles O36: each operand listed stands for nothing, and the command's first check finds it. -/
theorem illegalOperandsAnswerIllegalOnly : Obligations.IllegalOperandsAnswerIllegalOnly := by
  intro i s h
  change exec i s = answerIllegal s
  rcases h with ⟨w, e, rfl, h⟩ | ⟨w, hi, h⟩ | ⟨e, rfl, h⟩ | ⟨ty, sec, m, hr, d, hi, h⟩ | ⟨f, rfl, h⟩ | ⟨a, rfl | rfl⟩
  · exact execAlmie_illegal (h.imp (Alarm.ofByte_eq_none_iff w).mpr (boolOfByte_eq_none_iff e).mpr) s
  · have hw := (Alarm.ofByte_eq_none_iff w).mpr h
    rcases hi with rfl | rfl | rfl <;> simp only [exec, execAlmconsume, execAlmpeek, execAlmclear, hw]
  · simp only [exec, execOscstop, (boolOfByte_eq_none_iff e).mpr h]
  · have hty := (AlarmType.ofByte_eq_none_iff ty).mpr h
    rcases hi with rfl | rfl <;> simp only [exec, execSetalm, execSetalm3, hty]
  · simp only [exec, execSqwset, (SqwFreq.ofByte_eq_none_iff f).mpr h]
  · rfl
  · rfl

end Sys2Proof.Machine

/-! ### O1 to O3: the BCD codec (R85 to R89) -/

namespace Sys2Proof.Machine

/-- A high nibble, cut to the byte, over a digit: the or is a sum, because the digit leaves the high nibble's bits clear. -/
theorem shiftLeft_or_toNat (hi : Byte) {lo : Byte} (hlo : lo.toNat < 16) :
    (hi <<< 4 ||| lo).toNat = (16 * hi.toNat + lo.toNat) % 256 := by
  have hcut : hi.toNat <<< 4 % 2 ^ 8 = 2 ^ 4 * (hi.toNat % 16) := by
    rw [Nat.shiftLeft_eq]
    omega
  rw [BitVec.toNat_or, BitVec.toNat_shiftLeft, hcut, ← Nat.two_pow_add_eq_or_of_lt hlo]
  omega

/-- The encoder's value (R85, D4). -/
theorem dec2bcd_toNat (n : Byte) : (dec2bcd n).toNat = (16 * (n.toNat / 10) + n.toNat % 10) % 256 := by
  have htens : (n / 10#8).toNat = n.toNat / 10 := BitVec.toNat_udiv
  have hunits : (n % 10#8).toNat = n.toNat % 10 := BitVec.toNat_umod
  rw [dec2bcd, shiftLeft_or_toNat (n / 10#8) (by omega), htens, hunits]

/-- The decoder's value; the largest, of 0xFF, is 165, so nothing is cut (R86, D5). -/
theorem bcd2dec_toNat (b : Byte) : (bcd2dec b).toNat = 10 * (b.toNat / 16) + b.toNat % 16 := by
  have hhigh : (b >>> 4).toNat = b.toNat / 16 := by rw [BitVec.toNat_ushiftRight, Nat.shiftRight_eq_div_pow]
  have hlow : (b &&& 0x0F#8).toNat = b.toNat % 16 := by rw [BitVec.toNat_and]; exact Nat.and_two_pow_sub_one_eq_mod b.toNat 4
  rw [bcd2dec, BitVec.toNat_add, BitVec.toNat_mul, hhigh, hlow, BitVec.toNat_ofNat]
  omega

/-- Up to 99 the encoder's byte holds the two digits, uncut (R85). -/
theorem dec2bcd_toNat_of_le {n : Byte} (hn : n.toNat ≤ 99) : (dec2bcd n).toNat = 16 * (n.toNat / 10) + n.toNat % 10 := by
  rw [dec2bcd_toNat]
  omega

/-- A command that answers at once completes in no transaction, and changes nothing (R60). -/
theorem completes_of_answer {i : Instr} {s : State} {r : Response} (h : exec i s = .next (s.respond r)) :
    Completes i s r [] s.rf s.lastError 0 :=
  ⟨_, _, h, rfl, s.respond_outbox r, s.respond_busy r, (List.append_nil s.trace).symm, rfl, rfl, rfl, rfl, rfl, rfl, rfl⟩

/-- Settles O1: the answer is the encoder's byte, whose nibbles are the digits of `n` up to 99. -/
theorem decimalToBcdAnswersPackedDigits : Obligations.DecimalToBcdAnswersPackedDigits := by
  intro n s
  refine ⟨rfl, dec2bcd n, completes_of_answer rfl, dec2bcd_toNat n, fun hn => ?_⟩
  rw [dec2bcd_toNat_of_le hn]
  omega

/-- Settles O2: the answer is the decoder's byte. -/
theorem bcdToDecimalAnswersDigitSum : Obligations.BcdToDecimalAnswersDigitSum := fun b _ =>
  ⟨rfl, bcd2dec b, completes_of_answer rfl, bcd2dec_toNat b⟩

/-- The encoder's byte of 0 to 99 is valid BCD (R89). -/
theorem validBcd_dec2bcd {n : Byte} (hn : n.toNat ≤ 99) : ValidBcd (dec2bcd n) := by
  rw [ValidBcd, dec2bcd_toNat_of_le hn]
  omega

/-- The decoder takes the encoder's byte of 0 to 99 back (R89). -/
theorem bcd2dec_dec2bcd {n : Byte} (hn : n.toNat ≤ 99) : bcd2dec (dec2bcd n) = n := by
  apply BitVec.eq_of_toNat_eq
  rw [bcd2dec_toNat, dec2bcd_toNat_of_le hn]
  omega

/-- A valid BCD byte stands for 0 to 99 (R89). -/
theorem bcd2dec_le {b : Byte} (hb : ValidBcd b) : (bcd2dec b).toNat ≤ 99 := by
  obtain ⟨hhigh, hlow⟩ := hb
  rw [bcd2dec_toNat]
  omega

/-- The encoder takes the value of a valid BCD byte back (R89). -/
theorem dec2bcd_bcd2dec {b : Byte} (hb : ValidBcd b) : dec2bcd (bcd2dec b) = b := by
  obtain ⟨hhigh, hlow⟩ := hb
  apply BitVec.eq_of_toNat_eq
  rw [dec2bcd_toNat_of_le (bcd2dec_le ⟨hhigh, hlow⟩), bcd2dec_toNat]
  omega

/-- Settles O3: each direction stays in the other's domain and is undone there. -/
theorem codecRoundTrips : Obligations.CodecRoundTrips :=
  ⟨fun _ hn => ⟨validBcd_dec2bcd hn, bcd2dec_dec2bcd hn⟩, fun _ hb => ⟨bcd2dec_le hb, dec2bcd_bcd2dec hb⟩⟩

end Sys2Proof.Machine

/-! ### The transactions of a command, one after the other (R12, R34) -/

namespace Sys2Proof.Machine

/-- From `s` a command has run `k + 1` transactions, with the gaps between them, and stands in `u`: they recorded `legs` and left the
register file as `m`. The command in progress, the pointer and the tick are left open (R12, R36). -/
structure Ran (k : Nat) (s : State) (legs : List Event) (m : Memory) (u : State) : Prop where
  lastError : u.lastError = s.lastError
  inbox : u.inbox = s.inbox
  outbox : u.outbox = s.outbox
  resetIn : u.resetIn = s.resetIn
  ramTop : u.ramTop = s.ramTop
  rf : u.rf = m
  trace : u.trace = s.trace ++ legs
  replies : u.replies = s.replies.drop (k + 1)
  gaps : u.gaps = s.gaps.drop k

/-- One more transaction, after the gap (R34, R36). -/
theorem Ran.next {k : Nat} {s u w : State} {legs legs' : List Event} {m m' : Memory} {p : Pending} (h : Ran k s legs m u)
    (h' : Ran 0 (u.suspend p).afterGap legs' m' w) : Ran (k + 1) s (legs ++ legs') m' w where
  lastError := h'.lastError.trans h.lastError
  inbox := h'.inbox.trans h.inbox
  outbox := h'.outbox.trans h.outbox
  resetIn := h'.resetIn.trans h.resetIn
  ramTop := h'.ramTop.trans h.ramTop
  rf := h'.rf
  trace := by simp [h'.trace, h.trace]
  replies := by simp [h'.replies, h.replies]
  gaps := by simp [h'.gaps, h.gaps]

/-- A command of `k + 1` transactions completes when the last one ends with the response. -/
theorem Ran.completes {k : Nat} {i : Instr} {s t u : State} {r : Response} {legs : List Event} {m : Memory}
    (h : Ran k s legs m u) (hexec : exec i s = .next t) (hsteps : steps k t = some (u.respond r)) :
    Completes i s r legs m s.lastError (k + 1) :=
  ⟨_, _, hexec, hsteps, congrArg (· ++ [r]) h.outbox, rfl, h.trace, h.rf, h.lastError, h.replies, h.gaps, h.inbox, h.resetIn, h.ramTop⟩

/-- A time read that fails ends its command with its status in `lastError` (R14). -/
theorem Ran.completes_setLastError {i : Instr} {s u : State} {r : Response} {legs : List Event} {m : Memory} {st : Byte}
    (h : Ran 0 s legs m u) (hexec : exec i s = .next ((u.setLastError st).respond r)) : Completes i s r legs m st 1 :=
  ⟨_, _, hexec, rfl, congrArg (· ++ [r]) h.outbox, rfl, h.trace, h.rf, rfl, h.replies, h.gaps, h.inbox, h.resetIn, h.ramTop⟩

/-- The step after a transaction runs the next one, after the gap, when that lies on the registers below 0x15 (R6, R34). -/
theorem steps_suspend {u : State} {p : Pending} (hr : u.resetIn = false) (hp : p.run.1.toNat + p.run.2 ≤ 21) (n : Nat) :
    steps (n + 1) (u.suspend p) = steps n (resume p (u.suspend p).afterGap) := by
  have hstep : step (u.suspend p) = .next (resume p (u.suspend p).afterGap) := step_busy hr rfl (runRefusal_low _ _ _ hp)
  rw [steps, hstep]

/-- The register file at the transaction that comes next. -/
theorem Ran.afterGap_rf {k : Nat} {s u : State} {legs : List Event} {m : Memory} {g : List ChipStep} {gs : List (List ChipStep)}
    (h : Ran k s legs m u) (hg : s.gaps.drop k = g :: gs) (p : Pending) : (u.suspend p).afterGap.rf = chipSteps g m := by
  have hgap : (u.suspend p).gap = g := State.gap_of_gaps (h.gaps.trans hg)
  rw [State.afterGap_rf, hgap, State.suspend_rf, h.rf]

/-- A write transaction within the limit, answered (R46, R48). -/
theorem busWrite_ran {s : State} {d : Answer} {rs : List Reply} (h : s.replies = .answers d :: rs) (addr : Byte) {v : List Byte}
    (hv : v.length ≤ 31) (p : Pending) (k : Byte → State → State) :
    ∃ u, busWrite addr v p k s = k d.writeLeg u ∧
      Ran 0 s [.write addr v d.writeLeg]
        (Memory.writeRun s.rf addr.toNat (if d.writeLeg = 0x00#8 then v else v.take d.stored)) u := by
  obtain ⟨st, u, e, herror, -, hinbox, houtbox, hreset, htop, hgaps, hreplies, -, htrace, hrf, hst, -⟩ := busWrite_run h addr v p k
  obtain rfl := hst hv
  exact ⟨u, e, herror, hinbox, houtbox, hreset, htop, hrf, htrace, by rw [hreplies, h]; rfl, hgaps⟩

/-- A run of one byte, stored as the draws say (R48, R144). -/
theorem writeRun_one_eq_storeByte (m : Memory) (a : Nat) (b : Byte) (d : Answer) :
    Memory.writeRun m a (if d.writeLeg = 0x00#8 then [b] else [b].take d.stored) = storeByte m a b d := by
  unfold storeByte
  by_cases hw : d.writeLeg = 0x00#8
  · rw [if_pos hw, if_pos (.inl hw), Memory.writeRun_one]
  · rw [if_neg hw]
    cases hstored : d.stored with
    | zero => rw [if_neg (by simp [hw]), List.take_zero, Memory.writeRun]
    | succ n => rw [if_pos (.inr (Nat.succ_pos n)), List.take_succ_cons, List.take_nil, Memory.writeRun_one]

/-- A read transaction within the limit, answered (R47, R48). -/
theorem busRead_ran {s : State} {d : Answer} {rs : List Reply} (h : s.replies = .answers d :: rs) (addr : Byte) {n : Nat}
    (hn : n ≤ 32) (p : Pending) (k : Byte → List Byte → State → State) :
    ∃ st bytes legs u, busRead addr n p k s = k st bytes u ∧ bytes.length = n ∧ Ran 0 s legs s.rf u ∧
      (d.writeLeg ≠ 0x00#8 → st = d.writeLeg ∧ legs = [.write addr [] d.writeLeg]) ∧
      (d.writeLeg = 0x00#8 → st = d.readLeg ∧ legs = [.write addr [] 0x00#8, .read n bytes d.readLeg] ∧
        (d.readLeg = 0x00#8 → bytes = Memory.readRun s.rf addr.toNat n)) := by
  obtain ⟨st, bytes, u, e, hlength, herror, -, hinbox, houtbox, hreset, htop, hgaps, htaken, -, hrf, hfails, hselected⟩ :=
    busRead_run h addr n p k
  have hreplies : u.replies = s.replies.drop 1 := by rw [htaken, h]; rfl
  by_cases hw : d.writeLeg = 0x00#8
  · obtain ⟨htrace, hbytes, hst, -⟩ := hselected hw
    obtain rfl := hst hn
    exact ⟨_, bytes, _, u, e, hlength, ⟨herror, hinbox, houtbox, hreset, htop, hrf, htrace, hreplies, hgaps⟩,
      fun hne => absurd hw hne, fun _ => ⟨rfl, rfl, hbytes⟩⟩
  · obtain ⟨hst, htrace⟩ := hfails hw
    exact ⟨st, bytes, _, u, e, hlength, ⟨herror, hinbox, houtbox, hreset, htop, hrf, htrace, hreplies, hgaps⟩,
      fun _ => ⟨hst, rfl⟩, fun h0 => absurd h0 hw⟩

/-- A one-byte read, whatever its legs answered: the rest of the command gets one byte (R47, R144). -/
theorem busRead_one_ran {s : State} {d : Answer} {rs : List Reply} (h : s.replies = .answers d :: rs) (addr : Byte) (p : Pending)
    (k : Byte → List Byte → State → State) :
    ∃ st b legs u, busRead addr 1 p k s = k st [b] u ∧ ReadReturns s.rf addr d b legs ∧ Ran 0 s legs s.rf u := by
  obtain ⟨st, bytes, legs, u, e, hlength, hran, hfails, hselected⟩ := busRead_ran h addr (by decide : 1 ≤ 32) p k
  obtain ⟨b, rfl⟩ := List.length_eq_one_iff.mp hlength
  refine ⟨st, b, legs, u, e, ⟨fun hw => (hfails hw).2, fun hw => (hselected hw).2.1, fun ⟨hw, hr⟩ => ?_⟩, hran⟩
  obtain ⟨-, -, hbytes⟩ := hselected hw
  exact List.singleton_inj.mp (hbytes hr)

end Sys2Proof.Machine

/-! ### O4, O5 and O7: the packed time (R94, R95, R101) -/

namespace Sys2Proof.Machine

/-- Bit 7 dropped. -/
theorem and_7F_toNat (b : Byte) : (b &&& 0x7F#8).toNat = b.toNat % 128 := by
  rw [BitVec.toNat_and]
  exact Nat.and_two_pow_sub_one_eq_mod b.toNat 7

/-- Bit 6 dropped: bit 7 stands alone above bits 5:0. -/
theorem and_BF_toNat (b : Byte) : (b &&& 0xBF#8).toNat = 128 * (b.toNat / 128) + b.toNat % 64 := by
  have hhigh : (b.toNat &&& 0xBF) / 128 = b.toNat / 128 % 2 := by
    rw [Nat.and_div_two_pow (n := 7)]
    exact Nat.and_two_pow_sub_one_eq_mod _ 1
  have hlow : (b.toNat &&& 0xBF) % 128 = b.toNat % 128 % 64 := by
    rw [Nat.and_mod_two_pow (n := 7)]
    exact Nat.and_two_pow_sub_one_eq_mod _ 6
  have hb := b.isLt
  rw [BitVec.toNat_and]
  change b.toNat &&& 0xBF = _
  omega

/-- Dropping bit 7 keeps the others. -/
theorem and_7F_getLsbD (b : Byte) {i : Nat} (hi : i < 7) : (b &&& 0x7F#8).getLsbD i = b.getLsbD i := by
  rw [BitVec.getLsbD_and]
  interval_cases i <;> exact Bool.and_true _

/-- Dropping bit 7 makes it 0. -/
theorem and_7F_getLsbD_seven (b : Byte) : (b &&& 0x7F#8).getLsbD 7 = false := by
  rw [BitVec.getLsbD_and]
  exact Bool.and_false _

/-- `YEAR_BASE` as a number (R6). -/
theorem yearBase_toNat : Config.yearBase.toNat = 2000 := rfl

/-- The fields of seven bytes (R94). -/
theorem unpackTime_bytes (d0 d1 d2 d3 d4 d5 d6 : Byte) : unpackTime [d0, d1, d2, d3, d4, d5, d6] =
    ⟨bcd2dec (d0 &&& 0x7F#8), bcd2dec d1, bcd2dec (d2 &&& 0xBF#8), d3, bcd2dec d4, bcd2dec (d5 &&& 0x7F#8),
      Config.yearBase + (bcd2dec d6).setWidth 16⟩ := rfl

/-- The decoder's value without bit 7: the high digit is of three bits. -/
theorem bcd2dec_and_7F_toNat (b : Byte) : (bcd2dec (b &&& 0x7F#8)).toNat = 10 * (b.toNat % 128 / 16) + b.toNat % 16 := by
  rw [bcd2dec_toNat, and_7F_toNat]
  omega

/-- The decoder's value without bit 6: the high digit is of bits 7, 5 and 4. -/
theorem bcd2dec_and_BF_toNat (b : Byte) :
    (bcd2dec (b &&& 0xBF#8)).toNat = 10 * (8 * (b.toNat / 128) + b.toNat % 64 / 16) + b.toNat % 16 := by
  rw [bcd2dec_toNat, and_BF_toNat]
  omega

/-- The decoded year, not cut by its 16 bits. -/
theorem unpackedYear_toNat (b : Byte) :
    (Config.yearBase + (bcd2dec b).setWidth 16).toNat = 2000 + (10 * (b.toNat / 16) + b.toNat % 16) := by
  rw [BitVec.toNat_add, BitVec.toNat_setWidth, bcd2dec_toNat, yearBase_toNat]
  omega

/-- Settles O4: each digit pair is the decoder's of the masked byte, and the largest year is that of 0xFF. -/
theorem unpackTimeDropsThreeBits : Obligations.UnpackTimeDropsThreeBits := by
  rintro d0 d1 d2 d3 d4 d5 d6 t rfl
  have hyear := unpackedYear_toNat d6
  exact ⟨bcd2dec_and_7F_toNat d0, bcd2dec_toNat d1, bcd2dec_and_BF_toNat d2, rfl, bcd2dec_toNat d4, bcd2dec_and_7F_toNat d5,
    hyear, hyear.trans_le (by omega)⟩

/-- The encoder's byte with bit 7 dropped. -/
theorem dec2bcd_and_7F_toNat (n : Byte) : (dec2bcd n &&& 0x7F#8).toNat = (16 * (n.toNat / 10) + n.toNat % 10) % 128 := by
  rw [and_7F_toNat, dec2bcd_toNat]
  omega

/-- The year's offset modulo 256: 2000 is subtracted modulo 65536 (D6). -/
theorem yearOffset_toNat (y : Half) : ((y - Config.yearBase).setWidth 8).toNat = (y.toNat + 63536) % 256 := by
  rw [BitVec.toNat_setWidth, BitVec.toNat_sub, yearBase_toNat]
  omega

/-- Settles O5: each byte is the encoder's, with the three bits masked. -/
theorem packTimeForcesThreeBitsToZero : Obligations.PackTimeForcesThreeBitsToZero := by
  refine fun t => ⟨_, _, _, _, _, _, _, rfl, dec2bcd_and_7F_toNat _, dec2bcd_toNat _, rfl, ?_, dec2bcd_toNat _, dec2bcd_toNat _,
    dec2bcd_and_7F_toNat _, ?_⟩
  · rw [BitVec.getLsbD_and]
    exact Bool.and_false _
  · rw [dec2bcd_toNat, yearOffset_toNat]

/-- A digit is its own BCD byte. -/
theorem dec2bcd_digit {n : Byte} (hn : n.toNat ≤ 9) : dec2bcd n = n := by
  apply BitVec.eq_of_toNat_eq
  rw [dec2bcd_toNat]
  omega

/-- Subtracting the year base takes the decoded year back to its byte. -/
theorem yearOffset_add (b : Byte) : (Config.yearBase + b.setWidth 16 - Config.yearBase).setWidth 8 = b := by
  rw [BitVec.add_comm, BitVec.add_sub_cancel, BitVec.setWidth_setWidth_of_le _ (by decide), BitVec.setWidth_eq]

/-- A masked byte with valid digits is taken back by the encoder, and masking it again changes nothing. -/
theorem dec2bcd_bcd2dec_and {b mask : Byte} (h : ValidBcd (b &&& mask)) : dec2bcd (bcd2dec (b &&& mask)) &&& mask = b &&& mask := by
  rw [dec2bcd_bcd2dec h, BitVec.and_assoc, BitVec.and_self]

/-- Settles O7: the encoder takes each decoded byte back. -/
theorem packTimeOfUnpackTime : Obligations.PackTimeOfUnpackTime := by
  intro d0 d1 d2 d3 d4 d5 d6 h0 h1 h2 h3 h4 h5 h6
  rw [unpackTime_bytes]
  dsimp only [packTime]
  rw [dec2bcd_bcd2dec_and h0, dec2bcd_bcd2dec h1, dec2bcd_bcd2dec_and h2, dec2bcd_digit h3, dec2bcd_bcd2dec h4,
    dec2bcd_bcd2dec_and h5, yearOffset_add, dec2bcd_bcd2dec h6]

end Sys2Proof.Machine

/-! ### O8 and O11: the time read (R96, R98) -/

namespace Sys2Proof.Machine

/-- A command that is the one 7-byte read of the time registers, answering `answer bytes` when it succeeds and `failed st` when a leg
fails with `st`, which then stands in `lastError` (R14, R47). -/
theorem timeRead_completes {i : Instr} {p : Pending} {answer : List Byte → Response} {failed : Byte → Response} {s : State}
    {d : Answer} {rs : List Reply} (h : s.replies = .answers d :: rs)
    (hexec : exec i s = .next (busRead 0x00#8 7 p (fun st bytes s =>
      if st = 0x00#8 then s.respond (answer bytes) else (s.setLastError st).respond (failed st)) s)) :
    (d.writeLeg ≠ 0x00#8 → Completes i s (failed d.writeLeg) [.write 0x00#8 [] d.writeLeg] s.rf d.writeLeg 1) ∧
    (d.writeLeg = 0x00#8 → d.readLeg ≠ 0x00#8 → ∃ drawn : List Byte, drawn.length = 7 ∧
      Completes i s (failed d.readLeg) [.write 0x00#8 [] 0x00#8, .read 7 drawn d.readLeg] s.rf d.readLeg 1) ∧
    (d.Succeeds → ∃ bytes : List Byte, bytes = (List.range 7).map (Memory.read s.rf) ∧
      Completes i s (answer bytes) [.write 0x00#8 [] 0x00#8, .read 7 bytes 0x00#8] s.rf s.lastError 1) := by
  obtain ⟨st, bytes, legs, u, e, hlength, hran, hfails, hselected⟩ := busRead_ran h 0x00#8 (by decide : 7 ≤ 32) p _
  rw [e] at hexec
  refine ⟨fun hw => ?_, fun hw hr => ?_, fun ⟨hw, hr⟩ => ?_⟩
  · obtain ⟨rfl, rfl⟩ := hfails hw
    rw [if_neg hw] at hexec
    exact hran.completes_setLastError hexec
  · obtain ⟨rfl, rfl, -⟩ := hselected hw
    rw [if_neg hr] at hexec
    exact ⟨bytes, hlength, hran.completes_setLastError hexec⟩
  · obtain ⟨rfl, rfl, hbytes⟩ := hselected hw
    rw [if_pos hr] at hexec
    rw [hr] at hran
    exact ⟨bytes, hbytes hr, hran.completes hexec rfl⟩

/-- Settles O8: RDTIME answers the payload of the unpacked time, or `err` with the failing leg's status. -/
theorem readTimeAnswersDecodedTimeOrStatus : Obligations.ReadTimeAnswersDecodedTimeOrStatus := by
  intro s d rs h
  obtain ⟨hfails, hreadFails, hsucceeds⟩ := timeRead_completes (i := .rdtime) h rfl
  refine ⟨rfl, hfails, hreadFails, fun hd => ?_⟩
  obtain ⟨bytes, hbytes, hcompletes⟩ := hsucceeds hd
  exact ⟨bytes, _, hbytes, rfl, hcompletes⟩

/-- Settles O11: GETEPOCH answers the converted time, or the sentinel whatever the failing leg's status is. -/
theorem getEpochAnswersConversionOrSentinel : Obligations.GetEpochAnswersConversionOrSentinel := fun _ _ _ h =>
  ⟨rfl, timeRead_completes (i := .getepoch) h rfl⟩

end Sys2Proof.Machine

/-! ### O10, O12 and O9: the time write and ClearOSF (R97, R99, R104) -/

namespace Sys2Proof.Machine

/-- The 7-byte write, answered: ClearOSF's read comes next (R97). -/
theorem timeWrite_ran {s : State} {d : Answer} {rs : List Reply} (h : s.replies = .answers d :: rs) {v : List Byte}
    (hv : v.length ≤ 31) : ∃ u, timeWrite v s = u.suspend (.osfRead d.writeLeg) ∧
      Ran 0 s [.write 0x00#8 v d.writeLeg] (Memory.writeRun s.rf 0x00 (if d.writeLeg = 0x00#8 then v else v.take d.stored)) u :=
  busWrite_ran h 0x00#8 hv (.timeWrite v) fun st s => s.suspend (.osfRead st)

/-- ClearOSF's read, answered: its write of the byte, with bit 7 clear, comes next (R104). -/
theorem osfRead_ran {s : State} {d : Answer} {rs : List Reply} (h : s.replies = .answers d :: rs) (timeStatus : Byte) :
    ∃ b legs u, osfRead timeStatus s = u.suspend (.osfWrite timeStatus (b &&& 0x7F#8)) ∧ ReadReturns s.rf 0x0F#8 d b legs ∧
      Ran 0 s legs s.rf u := by
  obtain ⟨-, b, legs, u, e, hreturns, hran⟩ := busRead_one_ran h 0x0F#8 (.osfRead timeStatus)
    fun _ bytes s => s.suspend (.osfWrite timeStatus (clearOsf (byteAt bytes 0)))
  exact ⟨b, legs, u, e, hreturns, hran⟩

/-- ClearOSF's write, answered: the time write's status is reported (R97, R104). -/
theorem osfWrite_ran {s : State} {d : Answer} {rs : List Reply} (h : s.replies = .answers d :: rs) (timeStatus value : Byte) :
    ∃ u, osfWrite timeStatus value s = u.respond (statusResponse timeStatus) ∧
      Ran 0 s [.write 0x0F#8 [value] d.writeLeg] (storeByte s.rf 0x0F value d) u := by
  obtain ⟨u, e, hran⟩ := busWrite_ran h 0x0F#8 (v := [value]) (Nat.le_add_left 1 30) (.osfWrite timeStatus value)
    fun _ s => s.respond (statusResponse timeStatus)
  exact ⟨u, e, writeRun_one_eq_storeByte s.rf 0x0F value d ▸ hran⟩

/-- A command that begins with the time write of `v` completes in its three transactions, whatever they answer: ClearOSF's read follows
the write and its own write follows the read, and only the first one's status is reported. -/
theorem timeWrite_completes {i : Instr} {v : List Byte} {s : State} {g2 g3 : List ChipStep} {gs : List (List ChipStep)}
    {d1 d2 d3 : Answer} {rs : List Reply} {m1 m2 : Memory} (hexec : exec i s = .next (timeWrite v s)) (hv : v.length = 7)
    (hreset : s.resetIn = false) (hgaps : s.gaps = g2 :: g3 :: gs)
    (hreplies : s.replies = .answers d1 :: .answers d2 :: .answers d3 :: rs)
    (hm1 : m1 = Memory.writeRun s.rf 0x00 (if d1.writeLeg = 0x00#8 then v else v.take d1.stored)) (hm2 : m2 = chipSteps g2 m1) :
    ∃ (b : Byte) (legs : List Event), ReadReturns m2 0x0F#8 d2 b legs ∧
      Completes i s (if d1.writeLeg = 0x00#8 then .ok [] else .err d1.writeLeg)
        ([.write 0x00#8 v d1.writeLeg] ++ legs ++ [.write 0x0F#8 [b &&& 0x7F#8] d3.writeLeg])
        (storeByte (chipSteps g3 m2) 0x0F (b &&& 0x7F#8) d3) s.lastError 3 := by
  obtain ⟨u1, e1, ran1⟩ := timeWrite_ran hreplies (hv.trans_le (by decide))
  have hreplies1 : (u1.suspend (.osfRead d1.writeLeg)).afterGap.replies = .answers d2 :: .answers d3 :: rs :=
    ran1.replies.trans (congrArg (List.drop 1) hreplies)
  have hrf1 : (u1.suspend (.osfRead d1.writeLeg)).afterGap.rf = m2 := by
    rw [ran1.afterGap_rf hgaps, ← hm1, hm2]
  obtain ⟨b, legs, u2, e2, hreturns, ran2⟩ := osfRead_ran hreplies1 d1.writeLeg
  rw [hrf1] at hreturns ran2
  have ran12 := ran1.next ran2
  have hreplies2 : (u2.suspend (.osfWrite d1.writeLeg (b &&& 0x7F#8))).afterGap.replies = .answers d3 :: rs :=
    ran12.replies.trans (congrArg (List.drop 2) hreplies)
  obtain ⟨u3, e3, ran3⟩ := osfWrite_ran hreplies2 d1.writeLeg (b &&& 0x7F#8)
  rw [ran12.afterGap_rf (congrArg (List.drop 1) hgaps)] at ran3
  have hsteps : steps 2 (timeWrite v s) = some (u3.respond (statusResponse d1.writeLeg)) := by
    rw [e1, steps_suspend (ran1.resetIn.trans hreset) (by simp [Pending.run]), resume, e2,
      steps_suspend (ran12.resetIn.trans hreset) (by simp [Pending.run]), resume, e3, steps]
  exact ⟨b, legs, hreturns, (ran12.next ran3).completes hexec hsteps⟩

/-- The seven registers of a packed time (R95). -/
theorem packTime_length (t : CalendarTime) : (packTime t).length = 7 := rfl

/-- Settles O10: WRTIME begins with the time write of the packed time. -/
theorem clearOsfWritesWhateverItsReadAnswered : Obligations.ClearOsfWritesWhateverItsReadAnswered := by
  intro t s g2 g3 gs d1 d2 d3 rs m1 m2 hreset hgaps hreplies hm1 hm2
  exact timeWrite_completes rfl (packTime_length _) hreset hgaps hreplies hm1 hm2

/-- Settles O12: SETEPOCH begins with the same time write as WRTIME of the converted time. -/
theorem setEpochWritesTheConvertedTime : Obligations.SetEpochWritesTheConvertedTime := by
  refine fun e s => ⟨rfl, rfl, ?_⟩
  rintro g2 g3 gs d1 d2 d3 rs v m1 m2 hreset hgaps hreplies rfl hm1 hm2
  exact timeWrite_completes rfl (packTime_length _) hreset hgaps hreplies hm1 hm2

/-- Settles O9: the case of O10 in which the status transactions succeed, so the byte read is STATUS and the byte written is stored. -/
theorem writeTimeWritesThenClearsOsf : Obligations.WriteTimeWritesThenClearsOsf := by
  rintro t s g2 g3 gs d1 d2 d3 rs m1 m2 m3 b hreset hgaps hreplies hd2 hd3 hwf hm1 hm2 rfl hm3
  obtain ⟨b, legs, ⟨-, hlegs, hb⟩, hcompletes⟩ :=
    clearOsfWritesWhateverItsReadAnswered t s g2 g3 gs d1 d2 d3 rs m1 m2 hreset hgaps hreplies hm1 hm2
  obtain rfl := hb hd2
  obtain ⟨hselect2, hread2⟩ := hd2
  obtain ⟨hwrite3, -⟩ := hd3
  rw [hlegs hselect2, hread2, hwrite3, storeByte, if_pos (Or.inl hwrite3)] at hcompletes
  have hwf1 : m1.wf = true := by
    rw [hm1]
    refine Memory.wf_writeRun _ hwf ?_
    split <;> simp [packTime_length]
  have hstatus : Memory.read m3 0x0F = Memory.read m2 0x0F &&& 0x7F#8 := by
    rw [hm3, Memory.read_write (wf_chipSteps g3 (hm2 ▸ wf_chipSteps g2 hwf1)), if_pos rfl]
  refine ⟨hm3 ▸ hcompletes, ?_, fun i hi => ?_, rfl⟩
  · rw [hstatus, and_7F_getLsbD_seven]
  · rw [hstatus, and_7F_getLsbD _ hi]

end Sys2Proof.Machine

/-! ### O6: WRTIME then RDTIME (R100) -/

namespace Sys2Proof.Machine

/-- Up to 79 the encoder's byte has bit 7 clear, so dropping it, by the writer and by the reader, loses nothing. -/
theorem bcd2dec_dec2bcd_and_7F {n : Byte} (hn : n.toNat ≤ 79) : bcd2dec (dec2bcd n &&& 0x7F#8 &&& 0x7F#8) = n := by
  apply BitVec.eq_of_toNat_eq
  rw [bcd2dec_and_7F_toNat, dec2bcd_and_7F_toNat]
  omega

/-- Up to 39 the encoder's byte has bit 6 clear, so dropping it, by the writer and by the reader, loses nothing. -/
theorem bcd2dec_dec2bcd_and_BF {n : Byte} (hn : n.toNat ≤ 39) : bcd2dec (dec2bcd n &&& 0xBF#8 &&& 0xBF#8) = n := by
  apply BitVec.eq_of_toNat_eq
  rw [bcd2dec_and_BF_toNat, and_BF_toNat, dec2bcd_toNat_of_le (by omega)]
  omega

/-- A year of 2000 to 2099 is the base and its two decoded digits (R94, R95). -/
theorem year_roundTrip {y : Half} (hlow : 2000 ≤ y.toNat) (hhigh : y.toNat ≤ 2099) :
    Config.yearBase + (bcd2dec (dec2bcd ((y - Config.yearBase).setWidth 8))).setWidth 16 = y := by
  have hoffset := yearOffset_toNat y
  rw [bcd2dec_dec2bcd (by omega)]
  apply BitVec.eq_of_toNat_eq
  rw [BitVec.toNat_add, BitVec.toNat_setWidth, hoffset, yearBase_toNat]
  omega

/-- A time with valid fields and a weekday of 0 to 9 survives its packing (R100). -/
theorem unpackTime_packTime {t : CalendarTime} (hvalid : CalendarTime.Valid { t with weekday := 0x01#8 })
    (hweekday : t.weekday.toNat ≤ 9) : unpackTime (packTime t) = t := by
  obtain ⟨second, minute, hour, weekday, day, month, year⟩ := t
  obtain ⟨hsecond, hminute, hhour, -, -, -, hday, -, hmonth, hlow, hhigh⟩ := hvalid
  rw [packTime, unpackTime_bytes, CalendarTime.mk.injEq]
  exact ⟨bcd2dec_dec2bcd_and_7F (hsecond.trans (by decide)), bcd2dec_dec2bcd (hminute.trans (by decide)),
    bcd2dec_dec2bcd_and_BF (hhour.trans (by decide)), dec2bcd_digit hweekday, bcd2dec_dec2bcd (hday.trans (by decide)),
    bcd2dec_dec2bcd_and_7F (hmonth.trans (by decide)), year_roundTrip hlow hhigh⟩

/-- A chip step that leaves the time registers alone keeps their bytes (R36). -/
theorem read_chipStep_keepsTime (c : ChipStep) {m : Memory} (h : m.wf = true) (hc : c.keepsTime = true) {a : Nat} (ha : a < 7) :
    Memory.read (chipStep c m) a = Memory.read m a := by
  have hother {x : Nat} (hx : 7 ≤ x) (b : Byte) : Memory.read (Memory.write m x b) a = Memory.read m a := by
    rw [Memory.read_write h, if_neg (by omega)]
  cases c with
  | time register value => cases hc
  | alarmMatch k => exact hother (by decide) _
  | oscillatorStop => exact hother (by decide) _
  | temperature register value => exact hother (by omega) value
  | bsy value => exact hother (by decide) _
  | conv value => exact hother (by decide) _

/-- The steps of a gap that leave the time registers alone keep their bytes. -/
theorem read_chipSteps_keepsTime (cs : List ChipStep) : ∀ {m : Memory} {a : Nat}, m.wf = true → cs.all ChipStep.keepsTime = true →
    a < 7 → Memory.read (chipSteps cs m) a = Memory.read m a := by
  induction cs with
  | nil => exact fun _ _ _ => rfl
  | cons c cs ih =>
    intro m a h hcs ha
    rw [List.all_cons, Bool.and_eq_true] at hcs
    obtain ⟨hc, hcs⟩ := hcs
    rw [chipSteps, ih (wf_chipStep c h) hcs ha, read_chipStep_keepsTime c h hc ha]

/-- The bytes of the seven time registers, 0x00 to 0x06. -/
def timeRegisters (m : Memory) : List Byte := (List.range 7).map (Memory.read m)

theorem timeRegisters_congr {m m' : Memory} (h : ∀ a < 7, Memory.read m a = Memory.read m' a) : timeRegisters m = timeRegisters m' :=
  List.map_congr_left fun a ha => h a (List.mem_range.mp ha)

/-- Chip steps that leave the time registers alone keep them (R36). -/
theorem timeRegisters_chipSteps {cs : List ChipStep} {m : Memory} (h : m.wf = true) (hcs : cs.all ChipStep.keepsTime = true) :
    timeRegisters (chipSteps cs m) = timeRegisters m :=
  timeRegisters_congr fun _ ha => read_chipSteps_keepsTime cs h hcs ha

/-- A byte stored above the time registers keeps them. -/
theorem timeRegisters_write {m : Memory} (h : m.wf = true) {a : Nat} (ha : 7 ≤ a) (b : Byte) :
    timeRegisters (Memory.write m a b) = timeRegisters m :=
  timeRegisters_congr fun x hx => (Memory.read_write h a b x).trans (if_neg (by omega))

/-- The time write stores its seven bytes in the time registers. -/
theorem timeRegisters_writeRun {m : Memory} (h : m.wf = true) {v : List Byte} (hv : v.length = 7) :
    timeRegisters (Memory.writeRun m 0x00 v) = v := by
  refine List.ext_getElem (by simp [timeRegisters, hv]) fun a _ ha => ?_
  simp only [timeRegisters, List.getElem_map, List.getElem_range]
  rw [Memory.read_writeRun v a h (by omega), if_pos (by omega)]
  exact List.getD_eq_getElem v 0x00#8 ha

/-- Settles O6: no step between the time write and the read touches the time registers, so RDTIME unpacks the packed time. -/
theorem writeTimeThenReadTimeReturnsTheTime : Obligations.WriteTimeThenReadTimeReturnsTheTime := by
  intro t hvalid hweekday
  refine ⟨unpackTime_packTime hvalid hweekday, ?_⟩
  intro s g2 g3 g4 gs d1 d2 d3 d4 rs hwf hreset hgaps hreplies hd1 hd2 hd3 hd4 hg2 hg3 hg4
  obtain ⟨hd1, -⟩ := hd1
  obtain ⟨⟨u, v, hexec, hsteps, houtbox, -, -, hrf, -, hreplies', hgaps', -⟩, -⟩ :=
    writeTimeWritesThenClearsOsf t s g2 g3 (g4 :: gs) d1 d2 d3 (.answers d4 :: rs) _ _ _ _ hreset hgaps hreplies hd2 hd3 hwf
      rfl rfl rfl rfl
  rw [if_pos hd1] at houtbox hrf
  have hwf1 : (Memory.writeRun s.rf 0x00 (packTime t)).wf = true := Memory.wf_writeRun _ hwf (by rw [packTime_length]; decide)
  have hwf2 := wf_chipSteps g2 hwf1
  have hwf3 := wf_chipSteps g3 hwf2
  have hgap : v.gap = g4 := State.gap_of_gaps (hgaps'.trans (congrArg (List.drop 2) hgaps))
  have htime : timeRegisters v.afterGap.rf = packTime t := by
    rw [State.afterGap_rf, hgap, hrf, timeRegisters_chipSteps (Memory.wf_write hwf3 (by decide) _) hg4,
      timeRegisters_write hwf3 (by decide), timeRegisters_chipSteps hwf2 hg3, timeRegisters_chipSteps hwf1 hg2,
      timeRegisters_writeRun hwf (packTime_length t)]
  obtain ⟨-, -, -, hread⟩ := readTimeAnswersDecodedTimeOrStatus v.afterGap d4 rs (hreplies'.trans (congrArg (List.drop 3) hreplies))
  obtain ⟨bytes, t', hbytes, ht', w, w', hexecRead, hdone, houtboxRead, -⟩ := hread hd4
  have ht : t' = t := by rw [ht', hbytes.trans htime, unpackTime_packTime hvalid hweekday]
  subst ht
  cases hdone
  exact ⟨u, v, w, hexec, hsteps, hexecRead, by rw [houtboxRead, State.afterGap_outbox, houtbox, List.append_assoc]; rfl⟩

end Sys2Proof.Machine

/-! ### Runs of the register file (R43, R110) -/

namespace Sys2Proof.Machine

/-- A run stores each of its bytes at its place (R43). -/
theorem Memory.read_writeRun_of_getElem? {m : Memory} (h : m.wf = true) {a : Nat} {v : List Byte} (ha : a + v.length ≤ 256) {i : Nat}
    {b : Byte} (hb : v[i]? = some b) : Memory.read (Memory.writeRun m a v) (a + i) = b := by
  obtain ⟨hi, rfl⟩ := List.getElem?_eq_some_iff.mp hb
  rw [Memory.read_writeRun v _ h ha, if_pos (by omega), Nat.add_sub_cancel_left, List.getD_eq_getElem v 0x00#8 hi]

/-- A run leaves every byte outside it alone (R46). -/
theorem Memory.read_writeRun_outside {m : Memory} (h : m.wf = true) {a x : Nat} {v : List Byte} (ha : a + v.length ≤ 256)
    (hx : x < a ∨ a + v.length ≤ x) : Memory.read (Memory.writeRun m a v) x = Memory.read m x := by
  rw [Memory.read_writeRun v x h ha, if_neg (by omega)]

/-- A run read is the bytes at ascending offsets (R43). -/
theorem Memory.readRun_eq_map (m : Memory) (n : Nat) : ∀ a : Nat,
    Memory.readRun m a n = (List.range n).map fun i => Memory.read m (a + i) := by
  induction n with
  | zero => exact fun _ => rfl
  | succ n ih =>
    intro a
    rw [Memory.readRun, ih, List.range_succ_eq_map, List.map_cons, List.map_map]
    simp only [Function.comp_def, Nat.add_zero, Nat.add_assoc, Nat.add_comm 1]

/-- Files that agree from an offset on read the same runs there. -/
theorem Memory.readRun_congr {m m' : Memory} {a n : Nat} (h : ∀ x, a ≤ x → Memory.read m x = Memory.read m' x) :
    Memory.readRun m a n = Memory.readRun m' a n := by
  simp only [Memory.readRun_eq_map, h _ (Nat.le_add_right a _)]

/-- A run just stored is read back. -/
theorem Memory.readRun_writeRun {m : Memory} (h : m.wf = true) {a : Nat} {v : List Byte} (ha : a + v.length ≤ 256) :
    Memory.readRun (Memory.writeRun m a v) a v.length = v := by
  rw [Memory.readRun_eq_map]
  refine List.ext_getElem (by simp) fun i _ hi => ?_
  rw [List.getElem_map, List.getElem_range, Memory.read_writeRun_of_getElem? h ha (List.getElem?_eq_getElem hi)]

/-- The Chip changes nothing from 0x13 on (R36). -/
theorem chipMayChange_eq_false {a : Nat} (ha : 0x13 ≤ a) : chipMayChange a = false := by
  simp only [chipMayChange, Bool.or_eq_false_iff, decide_eq_false_iff_not, beq_eq_false_iff_ne]
  omega

/-- The Chip leaves a run from 0x13 on alone (R36). -/
theorem readRun_chipSteps (cs : List ChipStep) {m : Memory} (h : m.wf = true) {a : Nat} (ha : 0x13 ≤ a) (n : Nat) :
    Memory.readRun (chipSteps cs m) a n = Memory.readRun m a n :=
  Memory.readRun_congr fun _ hx => read_chipSteps cs h (chipMayChange_eq_false (ha.trans hx))

/-! ### O13 and O16: the raw writes (R105, R107) -/

/-- A run inside the chip is inside the space (R50). -/
theorem InChip.le_space {s : State} {addr : Byte} {n : Nat} (h : InChip s addr n) : addr.toNat + n ≤ 256 :=
  le_of_runRefusal ((runRefusal_none_iff s addr n).mpr h)

/-- WRBLK within the transport's limit: the leg's status is the draw (R48, R105). -/
theorem wrblk_completes_within {addr : Byte} {data : List Byte} {s : State} {d : Answer} {rs : List Reply}
    (h : s.replies = .answers d :: rs) (hpos : 1 ≤ data.length) (hmax : data.length ≤ 31) (hin : InChip s addr data.length) :
    Completes (.wrblk addr data) s (if d.writeLeg = 0x00#8 then .ok [] else .err d.writeLeg) [.write addr data d.writeLeg]
      (Memory.writeRun s.rf addr.toNat (if d.writeLeg = 0x00#8 then data else data.take d.stored)) s.lastError 1 := by
  obtain ⟨st, hwithin, -, hcompletes⟩ := wrblk_completes h hpos (hmax.trans (by decide)) hin
  obtain rfl := hwithin hmax
  exact hcompletes

/-- Settles O13: the run stored is the data or the first bytes of it, and a run changes its own bytes only. -/
theorem writeBlockStoresItsRun : Obligations.WriteBlockStoresItsRun := by
  rintro addr data s d rs m' h hpos hmax hin hwf rfl
  have hspace := hin.le_space
  have htake : (data.take d.stored).length ≤ data.length := List.length_take_le' _ _
  refine ⟨rfl, wrblk_completes_within h hpos hmax hin, fun x hx => ?_, fun hw i b hb => ?_, fun hw i b hb => ?_⟩
  · have hstored : (if d.writeLeg = 0x00#8 then data else data.take d.stored).length ≤ data.length := by
      split
      · exact Nat.le_refl _
      · exact htake
    exact Memory.read_writeRun_outside hwf (by omega) (by omega)
  · rw [if_pos hw, Memory.read_writeRun_of_getElem? hwf hspace hb]
  · rw [if_neg hw]
    split
    case isTrue hi => exact Memory.read_writeRun_of_getElem? hwf (by omega) ((List.getElem?_take_of_lt hi).trans hb)
    case isFalse hi =>
      have hcut : (data.take d.stored).length ≤ d.stored := List.length_take_le _ _
      exact Memory.read_writeRun_outside hwf (by omega) (by omega)

/-- A command that begins as another one does completes as that one does. -/
theorem Completes.of_exec_eq {i j : Instr} {s : State} {r : Response} {legs : List Event} {m : Memory} {e : Byte} {n : Nat}
    (hexec : exec i s = exec j s) (h : Completes j s r legs m e n) : Completes i s r legs m e n := by
  rwa [Completes, hexec]

/-- WRBYTE is WRBLK of its byte (R107). -/
theorem exec_wrbyte (addr value : Byte) (s : State) : exec (.wrbyte addr value) s = exec (.wrblk addr [value]) s := rfl

/-- Settles O16: WRBLK of one byte stores it, or on a failure the byte or nothing. -/
theorem writeByteStoresItsByte : Obligations.WriteByteStoresItsByte := by
  refine fun addr value s => ⟨rfl, exec_wrbyte addr value s, fun d rs h hin => ?_⟩
  have hcompletes := (wrblk_completes_within (data := [value]) h (by simp) (by simp) hin).of_exec_eq (exec_wrbyte addr value s)
  rw [writeRun_one_eq_storeByte, storeByte] at hcompletes
  refine ⟨fun hw => ?_, fun hw => ?_⟩
  · simpa only [hw, if_true, true_or] using hcompletes
  · simpa only [hw, if_false, false_or, Nat.one_le_iff_ne_zero, ite_not] using hcompletes

/-! ### O15 and O17: the raw reads (R106, R108) -/

/-- Settles O15: within the limit the read leg's status is the draw, and the bytes of a run are those at ascending offsets. -/
theorem readBlockAnswersItsRun : Obligations.ReadBlockAnswersItsRun := by
  intro addr count s d rs h hpos hmax hin
  obtain ⟨hfails, hselected⟩ := rdblk_completes h hpos hin
  refine ⟨rfl, hfails, fun hw hr => ?_, fun ⟨hw, hr⟩ => ?_⟩
  · obtain ⟨st, drawn, hlength, hwithin, -, -, hcompletes⟩ := hselected hw
    obtain rfl := hwithin hmax
    rw [if_neg hr] at hcompletes
    exact ⟨drawn, hlength, hcompletes⟩
  · obtain ⟨st, bytes, -, hwithin, -, hbytes, hcompletes⟩ := hselected hw
    obtain rfl : st = 0x00#8 := (hwithin hmax).trans hr
    rw [if_pos rfl] at hcompletes
    exact ⟨bytes, (hbytes rfl).trans (Memory.readRun_eq_map _ _ _), hcompletes⟩

/-- RDBYTE is RDBLK of one byte (R108). -/
theorem exec_rdbyte (addr : Byte) (s : State) : exec (.rdbyte addr) s = exec (.rdblk addr 0x01#8) s := rfl

/-- Settles O17: RDBLK of one byte answers a list of one. -/
theorem readByteAnswersItsByte : Obligations.ReadByteAnswersItsByte := by
  refine fun addr s => ⟨rfl, exec_rdbyte addr s, fun d rs h hin => ?_⟩
  obtain ⟨-, hfails, hreadFails, hsucceeds⟩ := readBlockAnswersItsRun addr 0x01#8 s d rs h (by decide) (by decide) hin
  refine ⟨fun hw => (hfails hw).of_exec_eq (exec_rdbyte addr s), fun hw hr => ?_, fun hd => ?_⟩
  · obtain ⟨drawn, hlength, hcompletes⟩ := hreadFails hw hr
    obtain ⟨b, rfl⟩ := List.length_eq_one_iff.mp hlength
    exact ⟨b, hcompletes.of_exec_eq (exec_rdbyte addr s)⟩
  · obtain ⟨bytes, rfl, hcompletes⟩ := hsucceeds hd
    exact ⟨_, rfl, hcompletes.of_exec_eq (exec_rdbyte addr s)⟩

/-! ### O19: WRBLK then RDBLK (R110) -/

/-- Settles O19: the Chip changes nothing in the general-purpose memory, so RDBLK reads the run WRBLK stored. -/
theorem writeBlockThenReadBlockReturnsTheData : Obligations.WriteBlockThenReadBlockReturnsTheData := by
  intro addr data s d1 d2 rs hwf h ⟨hw1, _⟩ hd2 hpos hmax hbase hin
  have hspace := hin.le_space
  have hcount : (BitVec.ofNat 8 data.length).toNat = data.length := by
    rw [BitVec.toNat_ofNat]
    omega
  obtain ⟨u, _, hexec, hdone, houtbox, -, -, hrf, -, hreplies, -, -, -, htop⟩ := wrblk_completes_within h hpos hmax hin
  cases hdone
  rw [if_pos hw1] at houtbox hrf
  have hin' : InChip u.afterGap addr data.length := by
    rw [InChip, State.afterGap_ramTop, htop]
    exact hin
  obtain ⟨-, -, -, hread⟩ := readBlockAnswersItsRun addr (BitVec.ofNat 8 data.length) u.afterGap d2 rs
    (hreplies.trans (congrArg (List.drop 1) h)) (by omega) (by omega) (hcount.symm ▸ hin')
  obtain ⟨bytes, hbytes, v, _, hexecRead, hdone, houtboxRead, -⟩ := hread hd2
  cases hdone
  have hdata : bytes = data := by
    calc bytes = Memory.readRun u.afterGap.rf addr.toNat data.length := by rw [hbytes, hcount, Memory.readRun_eq_map]
      _ = Memory.readRun (Memory.writeRun s.rf addr.toNat data) addr.toNat data.length := by
        rw [State.afterGap_rf, hrf, readRun_chipSteps u.gap (Memory.wf_writeRun data hwf hspace) (Nat.le_of_succ_le hbase)]
      _ = data := Memory.readRun_writeRun hwf hspace
  refine ⟨u, v, hexec, hexecRead, ?_⟩
  rw [houtboxRead, State.afterGap_outbox, houtbox, hdata, List.append_assoc, List.singleton_append]

end Sys2Proof.Machine

/-! ### O20, O21 and O23: the packed alarm registers (R113) -/

namespace Sys2Proof.Machine

/-- Bit `i` of a code at bit `j`, as the bit itself or nothing. -/
theorem codeBit_eq (code : Byte) (i j : Nat) : codeBit code i j = if code.getLsbD i then BitVec.twoPow 8 j else 0x00#8 := by
  rw [codeBit, BitVec.and_one_eq_setWidth_ofBool_getLsbD, BitVec.getLsbD_ushiftRight, Nat.add_zero]
  cases code.getLsbD i
  · exact BitVec.zero_shiftLeft j
  · rfl

/-- The bits of a moved code bit. -/
theorem codeBit_getLsbD (code : Byte) (i : Nat) {j : Nat} (hj : j < 8) (k : Nat) :
    (codeBit code i j).getLsbD k = (code.getLsbD i && decide (j = k)) := by
  rw [codeBit_eq]
  cases code.getLsbD i
  · exact BitVec.getLsbD_zero
  · rw [if_pos rfl, BitVec.getLsbD_twoPow, decide_eq_true hj]

/-- A mask without bit `j` drops a code bit moved there. -/
theorem codeBit_and_eq_zero (code : Byte) (i : Nat) {j : Nat} {mask : Byte} (h : mask.getLsbD j = false) :
    codeBit code i j &&& mask = 0x00#8 := by
  rw [codeBit_eq]
  split
  · rw [BitVec.twoPow_and, h, if_neg Bool.false_ne_true]
  · exact BitVec.zero_and

/-- A byte below `2 ^ n` is unchanged by the mask of its low `n` bits. -/
theorem and_mask_eq_self {x mask : Byte} {n : Nat} (hmask : mask.toNat = 2 ^ n - 1) (hx : x.toNat < 2 ^ n) : x &&& mask = x := by
  apply BitVec.eq_of_toNat_eq
  rw [BitVec.toNat_and, hmask, Nat.and_two_pow_sub_one_of_lt_two_pow hx]

/-- The encoder's byte of 0 to 79 leaves bit 7 free. -/
theorem dec2bcd_lt_128 {n : Byte} (hn : n.toNat ≤ 79) : (dec2bcd n).toNat < 2 ^ 7 := by
  rw [dec2bcd_toNat_of_le (by omega)]
  omega

/-- The encoder's byte of 0 to 39 leaves bits 7 and 6 free. -/
theorem dec2bcd_lt_64 {n : Byte} (hn : n.toNat ≤ 39) : (dec2bcd n).toNat < 2 ^ 6 := by
  rw [dec2bcd_toNat_of_le (by omega)]
  omega

/-- An alarm byte with its mask bit: the bit is the code's, and the digits below it decode back (R90, R113). -/
theorem maskedByte_carries_bit_and_digits {n : Byte} (hn : n.toNat ≤ 79) (code : Byte) (i : Nat) :
    (dec2bcd n ||| codeBit code i 7).getLsbD 7 = code.getLsbD i ∧
      bcd2dec ((dec2bcd n ||| codeBit code i 7) &&& 0x7F#8) = n := by
  have hlt := dec2bcd_lt_128 hn
  have hfree : (dec2bcd n).getLsbD 7 = false := (BitVec.toNat_lt_iff_getLsbD_eq_false 7 (by decide)).mp hlt 0
  refine ⟨?_, ?_⟩
  · rw [BitVec.getLsbD_or, hfree, codeBit_getLsbD code i (by decide), Bool.false_or, decide_eq_true rfl, Bool.and_true]
  · rw [BitVec.and_or_distrib_right, codeBit_and_eq_zero code i rfl, BitVec.or_zero, and_mask_eq_self rfl hlt,
      bcd2dec_dec2bcd (hn.trans (by decide))]

/-- The day/date byte with its mask bit and DY/DT, in the same form. -/
theorem dayDateByte_carries_bits_and_digits {n : Byte} (hn : n.toNat ≤ 39) (code : Byte) :
    (dec2bcd n ||| codeBit code 3 7 ||| codeBit code 4 6).getLsbD 7 = code.getLsbD 3 ∧
      (dec2bcd n ||| codeBit code 3 7 ||| codeBit code 4 6).getLsbD 6 = code.getLsbD 4 ∧
      bcd2dec ((dec2bcd n ||| codeBit code 3 7 ||| codeBit code 4 6) &&& 0x3F#8) = n := by
  have hlt := dec2bcd_lt_64 hn
  have hfree : ∀ k, (dec2bcd n).getLsbD (6 + k) = false := (BitVec.toNat_lt_iff_getLsbD_eq_false 6 (by decide)).mp hlt
  have hbits (k : Nat) : (dec2bcd n ||| codeBit code 3 7 ||| codeBit code 4 6).getLsbD (6 + k) =
      ((code.getLsbD 3 && decide (7 = 6 + k)) || (code.getLsbD 4 && decide (6 = 6 + k))) := by
    rw [BitVec.getLsbD_or, BitVec.getLsbD_or, hfree, codeBit_getLsbD code 3 (by decide), codeBit_getLsbD code 4 (by decide),
      Bool.false_or]
  refine ⟨?_, ?_, ?_⟩
  · simpa using hbits 1
  · simpa using hbits 0
  · rw [BitVec.and_or_distrib_right, BitVec.and_or_distrib_right, codeBit_and_eq_zero code 3 rfl, codeBit_and_eq_zero code 4 rfl,
      BitVec.or_zero, BitVec.or_zero, and_mask_eq_self rfl hlt, bcd2dec_dec2bcd (hn.trans (by decide))]

/-- The packed bytes of an alarm 2 type: no seconds register (R113). -/
theorem packAlarm_two {ty : AlarmType} (h : ty.code.getLsbD 7 = true) (sec m hr d : Byte) :
    packAlarm ty sec m hr d = (0x0B#8, [dec2bcd m ||| codeBit ty.code 1 7, dec2bcd hr ||| codeBit ty.code 2 7,
      dec2bcd d ||| codeBit ty.code 3 7 ||| codeBit ty.code 4 6]) := if_pos h

/-- The packed bytes of an alarm 1 type (R113). -/
theorem packAlarm_one {ty : AlarmType} (h : ty.code.getLsbD 7 = false) (sec m hr d : Byte) :
    packAlarm ty sec m hr d = (0x07#8, [dec2bcd sec ||| codeBit ty.code 0 7, dec2bcd m ||| codeBit ty.code 1 7,
      dec2bcd hr ||| codeBit ty.code 2 7, dec2bcd d ||| codeBit ty.code 3 7 ||| codeBit ty.code 4 6]) :=
  if_neg (Bool.eq_false_iff.mp h)

/-- Settles O23: the digits of valid operands leave the mask and selector bits free, so these are the code's. -/
theorem alarmBytesCarryTypeAndDigits : Obligations.AlarmBytesCarryTypeAndDigits := by
  intro ty sec m hr d hsec hm hhr hd
  obtain ⟨hsecBit, hsecDigits⟩ := maskedByte_carries_bit_and_digits (hsec.trans (by decide)) ty.code 0
  obtain ⟨hmBit, hmDigits⟩ := maskedByte_carries_bit_and_digits (hm.trans (by decide)) ty.code 1
  obtain ⟨hhrBit, hhrDigits⟩ := maskedByte_carries_bit_and_digits (hhr.trans (by decide)) ty.code 2
  refine ⟨_, _, _, ?_, hmBit, hmDigits, hhrBit, hhrDigits, dayDateByte_carries_bits_and_digits (hd.trans (by decide)) ty.code⟩
  cases halarm : ty.code.getLsbD 7 with
  | true => exact .inl ⟨rfl, packAlarm_two halarm sec m hr d⟩
  | false => exact .inr ⟨rfl, _, packAlarm_one halarm sec m hr d, hsecBit, hsecDigits⟩

/-- A code stands for the type it is the code of (R70). -/
theorem code_of_typeOfByte {b : Byte} {t : AlarmType} (h : AlarmType.ofByte b = some t) : t.code = b := by
  simpa using List.find?_some h

/-- One of the eleven codes is the code of a type (R70). -/
theorem exists_type_of_code {ty : Byte} (h : ty ∈ AlarmType.all.map AlarmType.code) :
    ∃ t, AlarmType.ofByte ty = some t ∧ t.code = ty := by
  cases ht : AlarmType.ofByte ty with
  | none => exact absurd h ((AlarmType.ofByte_eq_none_iff ty).mp ht)
  | some t => exact ⟨t, rfl, code_of_typeOfByte ht⟩

/-- At most four packed bytes (R113). -/
theorem packAlarm_length_le (ty : AlarmType) (sec m hr d : Byte) : (packAlarm ty sec m hr d).2.length ≤ 4 := by
  cases h : ty.code.getLsbD 7 with
  | true => simp [packAlarm_two h]
  | false => simp [packAlarm_one h]

/-- SETALM of a type writes its packed bytes and answers `ok` whatever the write answered (R114). -/
theorem setalm_completes {ty sec m hr d : Byte} {t : AlarmType} (hty : AlarmType.ofByte ty = some t) {s : State} {a : Answer}
    {rs : List Reply} (h : s.replies = .answers a :: rs) {off : Byte} {v : List Byte} (hpack : packAlarm t sec m hr d = (off, v)) :
    Completes (.setalm ty sec m hr d) s (.ok []) [.write off v a.writeLeg]
      (Memory.writeRun s.rf off.toNat (if a.writeLeg = 0x00#8 then v else v.take a.stored)) s.lastError 1 := by
  have hlength : v.length ≤ 4 := (congrArg (fun p => p.2.length) hpack).ge.trans (packAlarm_length_le t sec m hr d)
  obtain ⟨u, e, hran⟩ := busWrite_ran h off (hlength.trans (by decide)) (.alarmWrite off v) fun _ s => s.respond (.ok [])
  refine hran.completes (t := u.respond (.ok [])) ?_ rfl
  rw [exec, execSetalm, hty]
  simp only [hpack]
  exact congrArg _ e

/-- Settles O20: each mask bit is the code's, moved to its place. -/
theorem setAlarmWritesPackedRegisters : Obligations.SetAlarmWritesPackedRegisters := by
  rintro ty sec m hr d s a rs bs bm bh bd off v hty h rfl rfl rfl rfl rfl rfl
  obtain ⟨t, ht, rfl⟩ := exists_type_of_code hty
  refine ⟨rfl, setalm_completes ht h ?_⟩
  have hmask (i : Nat) : codeBit t.code i 7 = if t.code.getLsbD i then 0x80#8 else 0x00#8 := codeBit_eq t.code i 7
  have hselector : codeBit t.code 4 6 = if t.code.getLsbD 4 then 0x40#8 else 0x00#8 := codeBit_eq t.code 4 6
  cases halarm : t.code.getLsbD 7 with
  | true => simp only [packAlarm_two halarm, hmask, hselector, if_true]
  | false => simp only [packAlarm_one halarm, hmask, hselector, Bool.false_eq_true, if_false]

/-- SETALM3 is SETALM with the seconds 0 (R115). -/
theorem exec_setalm3 (ty m hr d : Byte) (s : State) : exec (.setalm3 ty m hr d) s = exec (.setalm ty 0x00#8 m hr d) s := rfl

/-- Settles O21: SETALM with the seconds 0, whose encoder's byte is 0. -/
theorem setAlarmThreeWritesZeroSeconds : Obligations.SetAlarmThreeWritesZeroSeconds := by
  intro ty m hr d s a rs bs bm bh bd off v hty h hbs hbm hbh hbd hoff hv
  have hbs0 : bs = dec2bcd 0x00#8 ||| (if ty.getLsbD 0 then 0x80#8 else 0x00#8) := hbs.trans BitVec.zero_or.symm
  obtain ⟨-, hcompletes⟩ := setAlarmWritesPackedRegisters ty 0x00#8 m hr d s a rs bs bm bh bd off v hty h hbs0 hbm hbh hbd hoff hv
  exact ⟨rfl, exec_setalm3 ty m hr d s, hcompletes.of_exec_eq (exec_setalm3 ty m hr d s)⟩

/-- Settles O22: the four packed bytes of O23 stand in the alarm 1 registers, and the code of the type has bit 0 alone. -/
theorem matchSecondsSetsOnlyTheSecondsMask : Obligations.MatchSecondsSetsOnlyTheSecondsMask := by
  intro sec m hr d s a rs hwf h ⟨hw, _⟩ hsec hm hhr hd
  obtain ⟨bm, bh, bd, hpacked, hmBit, -, hhrBit, -, hmaskBit, hselectorBit, -⟩ :=
    alarmBytesCarryTypeAndDigits .alm1MatchSeconds sec m hr d hsec hm hhr hd
  obtain ⟨halarm, -⟩ | ⟨-, bs, hpack, hsecBit, -⟩ := hpacked
  · cases halarm
  obtain ⟨t, _, hexec, hdone, -, -, -, hrf, -⟩ := setalm_completes (ty := 0x01#8) rfl h hpack
  cases hdone
  rw [if_pos hw] at hrf
  have hread {i : Nat} {b : Byte} (hb : [bs, bm, bh, bd][i]? = some b) : Memory.read t.rf (0x07 + i) = b := by
    rw [hrf]
    exact Memory.read_writeRun_of_getElem? hwf (by simp) hb
  refine ⟨t, hexec, ?_, ?_, ?_, ?_, ?_⟩
  · exact (congrArg (BitVec.getLsbD · 7) (hread (i := 0) rfl)).trans hsecBit
  · exact (congrArg (BitVec.getLsbD · 7) (hread (i := 1) rfl)).trans hmBit
  · exact (congrArg (BitVec.getLsbD · 7) (hread (i := 2) rfl)).trans hhrBit
  · exact (congrArg (BitVec.getLsbD · 7) (hread (i := 3) rfl)).trans hmaskBit
  · exact (congrArg (BitVec.getLsbD · 6) (hread (i := 3) rfl)).trans hselectorBit

end Sys2Proof.Machine

/-! ### A register read, and read and written back, with successful transactions (R46, R47) -/

namespace Sys2Proof.Machine

/-- A one-byte read whose legs succeed. -/
theorem busRead_one_ran_succeeds {s : State} {d : Answer} {rs : List Reply} (h : s.replies = .answers d :: rs) (hd : d.Succeeds)
    (addr : Byte) (p : Pending) (k : Byte → List Byte → State → State) :
    ∃ st u, busRead addr 1 p k s = k st [Memory.read s.rf addr.toNat] u ∧
      Ran 0 s [.write addr [] 0x00#8, .read 1 [Memory.read s.rf addr.toNat] 0x00#8] s.rf u := by
  obtain ⟨st, b, legs, u, e, ⟨-, hlegs, hb⟩, hran⟩ := busRead_one_ran h addr p k
  obtain rfl := hb hd
  obtain ⟨hselect, hread⟩ := hd
  rw [hlegs hselect, hread] at hran
  exact ⟨st, u, e, hran⟩

/-- A one-byte write that succeeds. -/
theorem busWrite_one_ran_succeeds {s : State} {d : Answer} {rs : List Reply} (h : s.replies = .answers d :: rs) (hd : d.Succeeds)
    (addr b : Byte) (p : Pending) (k : Byte → State → State) :
    ∃ st u, busWrite addr [b] p k s = k st u ∧ Ran 0 s [.write addr [b] 0x00#8] (Memory.write s.rf addr.toNat b) u := by
  obtain ⟨hw, -⟩ := hd
  obtain ⟨u, e, hran⟩ := busWrite_ran h addr (v := [b]) (Nat.le_add_left 1 30) p k
  rw [hw, if_pos rfl, Memory.writeRun_one] at hran
  exact ⟨_, u, e, hran⟩

/-- A command that begins with a one-byte read, and ends there when it goes on with the byte read by answering `r`. -/
theorem readByte_completes {i : Instr} {addr : Byte} {p : Pending} {k : Byte → List Byte → State → State} {s : State} {d : Answer}
    {rs : List Reply} {r : Response} (hexec : exec i s = .next (busRead addr 1 p k s)) (h : s.replies = .answers d :: rs)
    (hd : d.Succeeds) (hk : ∀ st u, k st [Memory.read s.rf addr.toNat] u = u.respond r) :
    Completes i s r [.write addr [] 0x00#8, .read 1 [Memory.read s.rf addr.toNat] 0x00#8] s.rf s.lastError 1 := by
  obtain ⟨st, u, e, hran⟩ := busRead_one_ran_succeeds h hd addr p k
  rw [e, hk] at hexec
  exact hran.completes hexec rfl

/-- A command that begins with a one-byte read and, with the byte read, goes on with writing `b` to the same register: over whatever the
Chip did in the gap `g` (R36). -/
theorem readWriteByte_completes {i : Instr} {addr b : Byte} {p q : Pending} {k : Byte → List Byte → State → State} {s : State}
    {g : List ChipStep} {gs : List (List ChipStep)} {d1 d2 : Answer} {rs : List Reply} {r : Response}
    (hexec : exec i s = .next (busRead addr 1 p k s)) (hreset : s.resetIn = false) (hgaps : s.gaps = g :: gs)
    (hreplies : s.replies = .answers d1 :: .answers d2 :: rs) (hd1 : d1.Succeeds) (hd2 : d2.Succeeds)
    (hk : ∀ st u, k st [Memory.read s.rf addr.toNat] u = u.suspend q)
    (hq : resume q = busWrite addr [b] q fun _ u => u.respond r) (hrun : q.run = (addr, 1)) (haddr : addr.toNat + 1 ≤ 21) :
    Completes i s r
      [.write addr [] 0x00#8, .read 1 [Memory.read s.rf addr.toNat] 0x00#8, .write addr [b] 0x00#8]
      (Memory.write (chipSteps g s.rf) addr.toNat b) s.lastError 2 := by
  obtain ⟨st1, u1, e1, ran1⟩ := busRead_one_ran_succeeds hreplies hd1 addr p k
  have hreplies1 : (u1.suspend q).afterGap.replies = .answers d2 :: rs := ran1.replies.trans (congrArg (List.drop 1) hreplies)
  obtain ⟨st2, u2, e2, ran2⟩ := busWrite_one_ran_succeeds hreplies1 hd2 addr b q fun _ u => u.respond r
  rw [ran1.afterGap_rf hgaps] at ran2
  rw [e1, hk] at hexec
  refine (ran1.next ran2).completes hexec ?_
  rw [steps_suspend (ran1.resetIn.trans hreset) (by rwa [hrun]), hq, e2, steps]

end Sys2Proof.Machine

/-! ### O24 to O27: the alarm's enable and flag (R116 to R120) -/

namespace Sys2Proof.Machine

/-- The alarm's mask is its one bit (R69). -/
theorem wmask_eq (k : Alarm) : wmask k = BitVec.twoPow 8 (alarmBit k) := by
  cases k <;> rfl

theorem wmask_getLsbD (k : Alarm) (i : Nat) : (wmask k).getLsbD i = decide (alarmBit k = i) := by
  have hbit : alarmBit k < 8 := by cases k <;> decide
  rw [wmask_eq, BitVec.getLsbD_twoPow, decide_eq_true hbit, Bool.true_and]

/-- Putting the alarm's bit. -/
theorem putBits_wmask_same (x : Byte) (k : Alarm) (v : Bool) : (putBits x (wmask k) v).getLsbD (alarmBit k) = v := by
  rw [putBits_getLsbD, wmask_getLsbD, decide_eq_true rfl, if_pos rfl]

/-- Putting the alarm's bit keeps the seven others. -/
theorem putBits_wmask_other (x : Byte) (k : Alarm) (v : Bool) {i : Nat} (hi : i ≠ alarmBit k) :
    (putBits x (wmask k) v).getLsbD i = x.getLsbD i := by
  rw [putBits_getLsbD, wmask_getLsbD, decide_eq_false hi.symm, if_neg Bool.false_ne_true]

/-- The flag as the commands test it is the alarm's bit (R118 to R120). -/
theorem alarmFlag_eq (status : Byte) (k : Alarm) : alarmFlag status k = status.getLsbD (alarmBit k) := by
  rw [alarmFlag, wmask_eq, BitVec.and_twoPow]
  cases status.getLsbD (alarmBit k) <;> cases k <;> rfl

/-- A legal `which` selects an alarm, whose bit is `which - 1` (R69). -/
theorem exists_alarm_of_which {which : Byte} (h : which = 0x01#8 ∨ which = 0x02#8) :
    ∃ k, Alarm.ofByte which = some k ∧ alarmBit k = which.toNat - 1 := by
  rcases h with rfl | rfl
  · exact ⟨.one, rfl, rfl⟩
  · exact ⟨.two, rfl, rfl⟩

/-- A legal Boolean operand (R64). -/
theorem boolOfByte_of_legal {b : Byte} (h : b = 0x00#8 ∨ b = 0x01#8) : boolOfByte b = some (b == 0x01#8) := by
  rcases h with rfl | rfl <;> rfl

theorem exec_almie {which enabled : Byte} {k : Alarm} {e : Bool} (hk : Alarm.ofByte which = some k) (he : boolOfByte enabled = some e)
    (s : State) : exec (.almie which enabled) s = .next (almieRead k e s) := by
  rw [exec, execAlmie, hk, he]

theorem exec_almpeek {which : Byte} {k : Alarm} (hk : Alarm.ofByte which = some k) (s : State) :
    exec (.almpeek which) s = .next (peekRead k s) := by
  rw [exec, execAlmpeek, hk]

theorem exec_almconsume {which : Byte} {k : Alarm} (hk : Alarm.ofByte which = some k) (s : State) :
    exec (.almconsume which) s = .next (consumeRead k s) := by
  rw [exec, execAlmconsume, hk]

theorem exec_almclear {which : Byte} {k : Alarm} (hk : Alarm.ofByte which = some k) (s : State) :
    exec (.almclear which) s = .next (clearRead k s) := by
  rw [exec, execAlmclear, hk]

/-- Settles O24: CONTROL is read, and written back with the alarm's bit put. -/
theorem alarmInterruptEnableChangesOneBit : Obligations.AlarmInterruptEnableChangesOneBit := by
  rintro which enabled s g gs d1 d2 rs b hwhich henabled hreset hgaps hreplies hd1 hd2 rfl
  obtain ⟨k, hk, hbit⟩ := exists_alarm_of_which hwhich
  have hcompletes := readWriteByte_completes (q := .controlWrite _) (exec_almie hk (boolOfByte_of_legal henabled) s) hreset hgaps
    hreplies hd1 hd2 (fun _ _ => rfl) rfl rfl (by decide)
  rw [← hbit]
  exact ⟨rfl, _, hcompletes, putBits_wmask_same _ k _, fun _ hi => putBits_wmask_other _ k _ hi⟩

/-- Settles O25: the one read, and the byte's flag. -/
theorem alarmPeekAnswersTheFlag : Obligations.AlarmPeekAnswersTheFlag := by
  rintro which s d rs b hwhich h hd rfl
  obtain ⟨k, hk, hbit⟩ := exists_alarm_of_which hwhich
  rw [← hbit, ← alarmFlag_eq]
  exact ⟨rfl, readByte_completes (exec_almpeek hk s) h hd fun _ _ => rfl⟩

/-- A command that reads STATUS and goes on as ALMCONSUME does ends there when the alarm's flag is clear (R119). -/
theorem consume_completes_of_clear {i : Instr} {k : Alarm} {p : Pending} {s : State} {d : Answer} {rs : List Reply}
    (hexec : exec i s = .next (busRead 0x0F#8 1 p (fun _ bytes u => consumeStatus k (byteAt bytes 0) u) s))
    (h : s.replies = .answers d :: rs) (hd : d.Succeeds) (hflag : (Memory.read s.rf 0x0F).getLsbD (alarmBit k) = false) :
    Completes i s (.ok [0x00#8]) [.write 0x0F#8 [] 0x00#8, .read 1 [Memory.read s.rf 0x0F] 0x00#8] s.rf s.lastError 1 :=
  readByte_completes hexec h hd fun _ _ => if_neg (by rw [Bool.not_eq_true, alarmFlag_eq]; exact hflag)

/-- With the flag set it writes the byte read back with the flag put to 0, and answers true (R119). -/
theorem consume_completes_of_set {i : Instr} {k : Alarm} {p : Pending} {s : State} {g : List ChipStep} {gs : List (List ChipStep)}
    {d1 d2 : Answer} {rs : List Reply}
    (hexec : exec i s = .next (busRead 0x0F#8 1 p (fun _ bytes u => consumeStatus k (byteAt bytes 0) u) s))
    (hreset : s.resetIn = false) (hgaps : s.gaps = g :: gs) (hreplies : s.replies = .answers d1 :: .answers d2 :: rs)
    (hd1 : d1.Succeeds) (hd2 : d2.Succeeds) (hflag : (Memory.read s.rf 0x0F).getLsbD (alarmBit k) = true) :
    ∃ b' : Byte, Completes i s (.ok [0x01#8])
        [.write 0x0F#8 [] 0x00#8, .read 1 [Memory.read s.rf 0x0F] 0x00#8, .write 0x0F#8 [b'] 0x00#8]
        (Memory.write (chipSteps g s.rf) 0x0F b') s.lastError 2 ∧
      b'.getLsbD (alarmBit k) = false ∧ ∀ i, i ≠ alarmBit k → b'.getLsbD i = (Memory.read s.rf 0x0F).getLsbD i := by
  have hcompletes := readWriteByte_completes (q := .statusWrite _) hexec hreset hgaps hreplies hd1 hd2
    (fun _ _ => if_pos ((alarmFlag_eq _ k).trans hflag)) rfl rfl (by decide)
  exact ⟨_, hcompletes, putBits_wmask_same _ k false, fun _ hi => putBits_wmask_other _ k false hi⟩

/-- Settles O26: the byte read says whether the write follows. -/
theorem alarmConsumeClearsTheFlagItRead : Obligations.AlarmConsumeClearsTheFlagItRead := by
  rintro which s g gs d1 d2 rs b hwhich hreset hgaps hreplies hd1 hd2 rfl
  obtain ⟨k, hk, hbit⟩ := exists_alarm_of_which hwhich
  rw [← hbit]
  exact ⟨rfl, consume_completes_of_clear (exec_almconsume hk s) hreplies hd1,
    consume_completes_of_set (exec_almconsume hk s) hreset hgaps hreplies hd1 hd2⟩

/-- Settles O27: ALMCLEAR's read goes on as ALMCONSUME's does. -/
theorem alarmClearClearsTheFlagItRead : Obligations.AlarmClearClearsTheFlagItRead := by
  rintro which s g gs d1 d2 rs b hwhich hreset hgaps hreplies hd1 hd2 rfl
  obtain ⟨k, hk, hbit⟩ := exists_alarm_of_which hwhich
  rw [← hbit]
  exact ⟨rfl, consume_completes_of_clear (exec_almclear hk s) hreplies hd1,
    consume_completes_of_set (exec_almclear hk s) hreset hgaps hreplies hd1 hd2⟩

end Sys2Proof.Machine

/-! ### O28 and O29: the window of ALMCONSUME (R121, R122, R124) -/

namespace Sys2Proof.Machine

/-- A chip step that leaves STATUS alone keeps its byte (R36). -/
theorem read_chipStep_keepsStatus (c : ChipStep) {m : Memory} (h : m.wf = true) (hc : c.keepsStatus = true) :
    Memory.read (chipStep c m) 0x0F = Memory.read m 0x0F := by
  have hother {x : Nat} (hx : 0x0F ≠ x) (b : Byte) : Memory.read (Memory.write m x b) 0x0F = Memory.read m 0x0F := by
    rw [Memory.read_write h, if_neg hx]
  cases c with
  | alarmMatch k => cases hc
  | oscillatorStop => cases hc
  | bsy value => cases hc
  | time register value => exact hother (by omega) value
  | temperature register value => exact hother (by omega) value
  | conv value => exact hother (by decide) _

/-- The steps of a gap that leave STATUS alone keep its byte. -/
theorem read_chipSteps_keepsStatus (cs : List ChipStep) : ∀ {m : Memory}, m.wf = true → cs.all ChipStep.keepsStatus = true →
    Memory.read (chipSteps cs m) 0x0F = Memory.read m 0x0F := by
  induction cs with
  | nil => exact fun _ _ => rfl
  | cons c cs ih =>
    intro m h hcs
    rw [List.all_cons, Bool.and_eq_true] at hcs
    obtain ⟨hc, hcs⟩ := hcs
    rw [chipSteps, ih (wf_chipStep c h) hcs, read_chipStep_keepsStatus c h hc]

/-- Settles O28: the first command leaves STATUS with the flag clear, and so does the gap after it; the second reads that. -/
theorem consumeAnswersTrueOncePerMatch : Obligations.ConsumeAnswersTrueOncePerMatch := by
  intro which s g2 g3 gs d1 d2 d3 rs hwhich hwf hreset hgaps hreplies hd1 hd2 hd3 _ hg3 hflag
  obtain ⟨-, -, hset⟩ := alarmConsumeClearsTheFlagItRead which s g2 (g3 :: gs) d1 d2 (.answers d3 :: rs) _ hwhich hreset hgaps
    hreplies hd1 hd2 rfl
  obtain ⟨b', ⟨u, v, hexec, hsteps, houtbox, -, -, hrf, -, hreplies', hgaps', -⟩, hcleared, -⟩ := hset hflag
  have hwf2 := wf_chipSteps g2 hwf
  have hwfv : v.rf.wf = true := hrf ▸ Memory.wf_write hwf2 (by decide) b'
  have hgap : v.gap = g3 := State.gap_of_gaps (hgaps'.trans (congrArg (List.drop 1) hgaps))
  have hkept : Memory.read v.afterGap.rf 0x0F = Memory.read v.rf 0x0F := by
    rw [State.afterGap_rf, hgap, read_chipSteps_keepsStatus g3 hwfv hg3]
  have hstatus : Memory.read v.rf 0x0F = b' := by rw [hrf, Memory.read_write hwf2, if_pos rfl]
  obtain ⟨k, hk, hbit⟩ := exists_alarm_of_which hwhich
  have hclear : (Memory.read v.afterGap.rf 0x0F).getLsbD (alarmBit k) = false := by rw [hkept, hstatus, hbit, hcleared]
  obtain ⟨w, _, hexec2, hdone, houtbox2, hbusy2, htrace2, hrf2, -⟩ := consume_completes_of_clear (exec_almconsume hk v.afterGap)
    (hreplies'.trans (congrArg (List.drop 2) hreplies)) hd3 hclear
  cases hdone
  refine ⟨u, v, w, hexec, hsteps, hexec2, hbusy2, ?_, ?_, ?_⟩
  · rw [houtbox2, State.afterGap_outbox, houtbox, List.append_assoc, List.singleton_append]
  · rw [htrace2, State.afterGap_trace, List.length_append]
    rfl
  · rw [hrf2, hkept]

/-- Settles O29: the byte written back in O26 replaces STATUS, whatever the gap made of it. -/
theorem matchInTheConsumeWindowIsLost : Obligations.MatchInTheConsumeWindowIsLost := by
  intro which s g gs d1 d2 rs b hwhich hwf hreset hgaps hreplies hd1 hd2 hb hflag
  obtain ⟨-, -, hset⟩ := alarmConsumeClearsTheFlagItRead which s g gs d1 d2 rs b hwhich hreset hgaps hreplies hd1 hd2 hb
  obtain ⟨b', ⟨u, t, hexec, hsteps, houtbox, -, -, hrf, -⟩, hcleared, hkept⟩ := hset hflag
  have hstatus : Memory.read t.rf 0x0F = b' := by rw [hrf, Memory.read_write (wf_chipSteps g hwf), if_pos rfl]
  exact ⟨u, t, hexec, hsteps, houtbox, hstatus.symm ▸ hcleared, hstatus.symm ▸ hkept⟩

end Sys2Proof.Machine

/-! ### O30 and O31: SQWSET, and SQWSET with ALMIE (R128, R133) -/

namespace Sys2Proof.Machine

/-- A legal frequency operand is the code of a frequency (R71). -/
theorem exists_sqwFreq_of_le {freq : Byte} (h : freq.toNat ≤ 4) : ∃ f, SqwFreq.ofByte freq = some f ∧ f.code = freq := by
  have hcodes : freq = 0x00#8 ∨ freq = 0x01#8 ∨ freq = 0x02#8 ∨ freq = 0x03#8 ∨ freq = 0x04#8 := by bv_omega
  rcases hcodes with rfl | rfl | rfl | rfl | rfl
  · exact ⟨.hz1, rfl, rfl⟩
  · exact ⟨.hz1024, rfl, rfl⟩
  · exact ⟨.hz4096, rfl, rfl⟩
  · exact ⟨.hz8192, rfl, rfl⟩
  · exact ⟨.disabled, rfl, rfl⟩

theorem exec_sqwset {freq : Byte} {f : SqwFreq} (hf : SqwFreq.ofByte freq = some f) (s : State) :
    exec (.sqwset freq) s = .next (sqwRead f s) := by
  rw [exec, execSqwset, hf]

/-- SQWSET puts INTCN to 1 when it disables the square wave, and to 0 otherwise. -/
theorem putSquareWave_intcn (x : Byte) (f : SqwFreq) : (putSquareWave x f).getLsbD 2 = (f.code == 0x04#8) := by
  cases f <;> simp [putSquareWave, intcnMask, sqwKeepMask, SqwFreq.code]

/-- With a frequency the rate bits are the two bits of its code. -/
theorem putSquareWave_rate (x : Byte) {f : SqwFreq} (hf : f.code ≠ 0x04#8) :
    (putSquareWave x f).getLsbD 3 = f.code.getLsbD 0 ∧ (putSquareWave x f).getLsbD 4 = f.code.getLsbD 1 := by
  cases f with
  | disabled => exact absurd rfl hf
  | hz1 | hz1024 | hz4096 | hz8192 => simp [putSquareWave, sqwKeepMask, SqwFreq.code]

/-- INTCN is bit 2 (R24). -/
theorem intcnMask_getLsbD {i : Nat} (hi : i ≠ 2) : intcnMask.getLsbD i = false := by
  have hintcn : intcnMask = BitVec.twoPow 8 2 := rfl
  rw [hintcn, BitVec.getLsbD_twoPow, decide_eq_false hi.symm, Bool.and_false]

/-- Disabling the square wave keeps every bit but INTCN. -/
theorem putSquareWave_disabled_other (x : Byte) {i : Nat} (hi : i ≠ 2) : (putSquareWave x .disabled).getLsbD i = x.getLsbD i := by
  rw [putSquareWave, BitVec.getLsbD_or, intcnMask_getLsbD hi, Bool.or_false]

/-- With a frequency SQWSET keeps the bits of the mask and puts the code at the rate bits (R128). -/
theorem putSquareWave_of_ne_disabled (x : Byte) {f : SqwFreq} (hf : f ≠ .disabled) :
    putSquareWave x f = (x &&& sqwKeepMask) ||| (f.code <<< 3) := by
  cases f with
  | disabled => exact absurd rfl hf
  | hz1 | hz1024 | hz4096 | hz8192 => rfl

/-- The mask keeps every bit but INTCN and the rate bits. -/
theorem sqwKeepMask_getLsbD : ∀ i < 8, i ≠ 2 → i ≠ 3 → i ≠ 4 → sqwKeepMask.getLsbD i = true := by decide

/-- The code of a frequency is put at the rate bits alone. -/
theorem rateBits_getLsbD {f : SqwFreq} (hf : f ≠ .disabled) : ∀ i < 8, i ≠ 3 → i ≠ 4 → (f.code <<< 3).getLsbD i = false := by
  cases f with
  | disabled => exact absurd rfl hf
  | hz1 | hz1024 | hz4096 | hz8192 => decide

/-- SQWSET keeps every bit but INTCN and the rate bits. -/
theorem putSquareWave_other (x : Byte) (f : SqwFreq) {i : Nat} (h2 : i ≠ 2) (h3 : i ≠ 3) (h4 : i ≠ 4) :
    (putSquareWave x f).getLsbD i = x.getLsbD i := by
  by_cases hf : f = .disabled
  · rw [hf, putSquareWave_disabled_other x h2]
  by_cases hi : i < 8
  · rw [putSquareWave_of_ne_disabled x hf, BitVec.getLsbD_or, BitVec.getLsbD_and, sqwKeepMask_getLsbD i hi h2 h3 h4,
      rateBits_getLsbD hf i hi h3 h4, Bool.and_true, Bool.or_false]
  · rw [BitVec.getLsbD_of_ge _ _ (Nat.le_of_not_lt hi), BitVec.getLsbD_of_ge _ _ (Nat.le_of_not_lt hi)]

/-- A bit SQWSET writes back depends on that bit of the byte read alone. -/
theorem putSquareWave_getLsbD_congr {x y : Byte} (f : SqwFreq) {i : Nat} (h : x.getLsbD i = y.getLsbD i) :
    (putSquareWave x f).getLsbD i = (putSquareWave y f).getLsbD i := by
  cases f <;> simp only [putSquareWave, BitVec.getLsbD_or, BitVec.getLsbD_and, h]

/-- The enable bits, 0 and 1, are none of the bits SQWSET writes (R24). -/
theorem putAlarmEnable_putSquareWave (x : Byte) (f : SqwFreq) (k : Alarm) (e : Bool) :
    putAlarmEnable (putSquareWave x f) k e = putSquareWave (putAlarmEnable x k e) f := by
  refine BitVec.eq_of_getLsbD_eq fun i _ => ?_
  by_cases hi : i = alarmBit k
  · subst hi
    have hlow : alarmBit k < 2 := by cases k <;> decide
    calc (putAlarmEnable (putSquareWave x f) k e).getLsbD (alarmBit k)
        = e := putBits_wmask_same _ k e
      _ = (putAlarmEnable x k e).getLsbD (alarmBit k) := (putBits_wmask_same x k e).symm
      _ = (putSquareWave (putAlarmEnable x k e) f).getLsbD (alarmBit k) :=
        (putSquareWave_other _ f (by omega) (by omega) (by omega)).symm
  · calc (putAlarmEnable (putSquareWave x f) k e).getLsbD i
        = (putSquareWave x f).getLsbD i := putBits_wmask_other _ k e hi
      _ = (putSquareWave (putAlarmEnable x k e) f).getLsbD i :=
        putSquareWave_getLsbD_congr f (putBits_wmask_other x k e hi).symm

/-- The command reads CONTROL and then writes it back as `put` makes it (R116, R128). -/
def UpdatesControl (i : Instr) (put : Byte → Byte) : Prop :=
  ∃ p, ∀ s, exec i s = .next (busRead 0x0E#8 1 p (fun _ bytes u => u.suspend (.controlWrite (put (byteAt bytes 0)))) s)

theorem sqwset_updatesControl {freq : Byte} {f : SqwFreq} (hf : SqwFreq.ofByte freq = some f) :
    UpdatesControl (.sqwset freq) (putSquareWave · f) :=
  ⟨.sqwRead f, exec_sqwset hf⟩

theorem almie_updatesControl {which enabled : Byte} {k : Alarm} {e : Bool} (hk : Alarm.ofByte which = some k)
    (he : boolOfByte enabled = some e) : UpdatesControl (.almie which enabled) (putAlarmEnable · k e) :=
  ⟨.almieRead k e, exec_almie hk he⟩

/-- With successful transactions such a command completes in two, whatever the Chip does between them. -/
theorem UpdatesControl.completes {i : Instr} {put : Byte → Byte} (hi : UpdatesControl i put) {s : State} {g : List ChipStep}
    {gs : List (List ChipStep)} {d1 d2 : Answer} {rs : List Reply} (hreset : s.resetIn = false) (hgaps : s.gaps = g :: gs)
    (hreplies : s.replies = .answers d1 :: .answers d2 :: rs) (hd1 : d1.Succeeds) (hd2 : d2.Succeeds) :
    Completes i s (.ok [])
      [.write 0x0E#8 [] 0x00#8, .read 1 [Memory.read s.rf 0x0E] 0x00#8, .write 0x0E#8 [put (Memory.read s.rf 0x0E)] 0x00#8]
      (Memory.write (chipSteps g s.rf) 0x0E (put (Memory.read s.rf 0x0E))) s.lastError 2 := by
  obtain ⟨p, hexec⟩ := hi
  exact readWriteByte_completes (q := .controlWrite _) (hexec s) hreset hgaps hreplies hd1 hd2 (fun _ _ => rfl) rfl rfl (by decide)

/-- Two such commands, one after the other on a quiet Chip, apply both updates to CONTROL. -/
theorem UpdatesControl.andThen {i j : Instr} {put put' : Byte → Byte} (hi : UpdatesControl i put) (hj : UpdatesControl j put')
    {s : State} {d1 d2 d3 d4 : Answer} {gs : List (List ChipStep)} {rs : List Reply} (hwf : s.rf.wf = true)
    (hreset : s.resetIn = false) (hgaps : s.gaps = [] :: [] :: [] :: gs)
    (hreplies : s.replies = .answers d1 :: .answers d2 :: .answers d3 :: .answers d4 :: rs)
    (hd1 : d1.Succeeds) (hd2 : d2.Succeeds) (hd3 : d3.Succeeds) (hd4 : d4.Succeeds) :
    ∃ u v w x, exec i s = .next u ∧ steps 1 u = some v ∧ exec j v.afterGap = .next w ∧ steps 1 w = some x ∧ x.busy = none ∧
      Memory.read x.rf 0x0E = put' (put (Memory.read s.rf 0x0E)) := by
  obtain ⟨u, v, hexec, hsteps, -, -, -, hrf, -, hrepliesv, hgapsv, -, hresetv, -⟩ :=
    hi.completes hreset hgaps hreplies hd1 hd2
  have hgapsv : v.gaps = [] :: [] :: gs := hgapsv.trans (congrArg (List.drop 1) hgaps)
  have hrfv : v.afterGap.rf = Memory.write s.rf 0x0E (put (Memory.read s.rf 0x0E)) := by
    rw [State.afterGap_rf, State.gap_of_gaps hgapsv, chipSteps_nil, hrf, chipSteps_nil]
  obtain ⟨w, x, hexec', hsteps', -, hbusy, -, hrf', -⟩ := hj.completes (s := v.afterGap) (hresetv.trans hreset)
    (congrArg List.tail hgapsv) (hrepliesv.trans (congrArg (List.drop 2) hreplies)) hd3 hd4
  refine ⟨u, v, w, x, hexec, hsteps, hexec', hsteps', hbusy, ?_⟩
  rw [hrf', chipSteps_nil, hrfv, Memory.read_write (Memory.wf_write hwf (by decide) _), if_pos rfl, Memory.read_write hwf, if_pos rfl]

/-- Settles O30: CONTROL is read, and written back with INTCN and, for a frequency, the rate bits put. -/
theorem squareWaveSetsRateOrInterruptControl : Obligations.SquareWaveSetsRateOrInterruptControl := by
  rintro freq s g gs d1 d2 rs b hfreq hreset hgaps hreplies hd1 hd2 rfl
  obtain ⟨f, hf, rfl⟩ := exists_sqwFreq_of_le hfreq
  have hcompletes := (sqwset_updatesControl hf).completes hreset hgaps hreplies hd1 hd2
  refine ⟨rfl, _, hcompletes, putSquareWave_intcn _ f, putSquareWave_rate _, fun hdisabled => ?_,
    fun _ h2 h3 h4 => putSquareWave_other _ f h2 h3 h4⟩
  obtain rfl : f = .disabled := by
    cases f with
    | disabled => rfl
    | hz1 | hz1024 | hz4096 | hz8192 => exact absurd hdisabled (by decide)
  exact ⟨putSquareWave_disabled_other _ (by decide), putSquareWave_disabled_other _ (by decide)⟩

/-- Settles O31: either order applies both updates, and they commute. -/
theorem squareWaveAndAlarmEnableCommute : Obligations.SquareWaveAndAlarmEnableCommute := by
  intro freq which enabled s d1 d2 d3 d4 gs rs hfreq hwhich henabled hwf hreset hgaps hreplies hd1 hd2 hd3 hd4
  obtain ⟨f, hf, -⟩ := exists_sqwFreq_of_le hfreq
  obtain ⟨k, hk, -⟩ := exists_alarm_of_which hwhich
  have hsqw := sqwset_updatesControl hf
  have halmie := almie_updatesControl hk (boolOfByte_of_legal henabled)
  obtain ⟨u, v, w, x, hu, hv, hw, hx, hbusy, hread⟩ := hsqw.andThen halmie hwf hreset hgaps hreplies hd1 hd2 hd3 hd4
  obtain ⟨u', v', w', x', hu', hv', hw', hx', hbusy', hread'⟩ := halmie.andThen hsqw hwf hreset hgaps hreplies hd1 hd2 hd3 hd4
  exact ⟨u, v, w, x, u', v', w', x', hu, hv, hw, hx, hu', hv', hw', hx', hbusy, hbusy',
    hread.trans ((putAlarmEnable_putSquareWave _ f k _).trans hread'.symm)⟩

end Sys2Proof.Machine

/-! ### O32: OSCSTOP (R129) -/

namespace Sys2Proof.Machine

/-- The flag as OSCSTOP tests it is bit 7 (R25). -/
theorem osfFlag_eq (status : Byte) : osfFlag status = status.getLsbD 7 := by
  have hosf : osfMask = BitVec.twoPow 8 7 := rfl
  rw [osfFlag, hosf, BitVec.and_twoPow]
  cases status.getLsbD 7 <;> rfl

/-- STATUS is written back with every bit but OSF as read. -/
theorem clearOsf_getLsbD_other (status : Byte) {i : Nat} (hi : i ≠ 7) : (clearOsf status).getLsbD i = status.getLsbD i := by
  rcases Nat.lt_or_gt_of_ne hi with hlow | hhigh
  · exact and_7F_getLsbD status hlow
  · rw [BitVec.getLsbD_of_ge _ _ hhigh, BitVec.getLsbD_of_ge _ _ hhigh]

theorem exec_oscstop {clear : Byte} {c : Bool} (hc : boolOfByte clear = some c) (s : State) :
    exec (.oscstop clear) s = .next (oscRead c s) := by
  rw [exec, execOscstop, hc]

/-- Without OSF set and `clear` true together, OSCSTOP answers OSF. -/
theorem oscStatus_answers {clear : Bool} {status : Byte} (h : ¬ (status.getLsbD 7 = true ∧ clear = true)) (s : State) :
    oscStatus clear status s = s.respond (.ok [if status.getLsbD 7 then 0x01#8 else 0x00#8]) := by
  rw [oscStatus, osfFlag_eq, if_neg (by rwa [Bool.and_eq_true]), boolPayload]

/-- With both, the write of STATUS comes next. -/
theorem oscStatus_clears {status : Byte} (h : status.getLsbD 7 = true) (s : State) :
    oscStatus true status s = s.suspend (.statusWrite (clearOsf status)) := by
  rw [oscStatus, osfFlag_eq, Bool.and_true, if_pos h]

/-- Settles O32: the byte read and `clear` say whether the write follows. -/
theorem oscillatorStoppedAnswersAndClears : Obligations.OscillatorStoppedAnswersAndClears := by
  rintro clear s g gs d1 d2 rs b hclear hreset hgaps hreplies hd1 hd2 rfl
  have hexec := exec_oscstop (boolOfByte_of_legal hclear) s
  refine ⟨rfl, fun hkeep => ?_, ?_⟩
  · have hboth : ¬ ((Memory.read s.rf 0x0F).getLsbD 7 = true ∧ (clear == 0x01#8) = true) := by
      rintro ⟨hosf, hc⟩
      rcases hkeep with hzero | rfl
      · exact Bool.false_ne_true (hzero.symm.trans hosf)
      · cases hc
    exact readByte_completes hexec hreplies hd1 fun _ u => oscStatus_answers hboth u
  · rintro hosf rfl
    have hcompletes := readWriteByte_completes (q := .statusWrite _) hexec hreset hgaps hreplies hd1 hd2
      (fun _ u => oscStatus_clears hosf u) rfl rfl (by decide)
    exact ⟨_, hcompletes, and_7F_getLsbD_seven _, fun _ hi => clearOsf_getLsbD_other _ hi⟩

end Sys2Proof.Machine

/-! ### O33: TEMP (R130, R131, R135) -/

namespace Sys2Proof.Machine

/-- Bits 15:6 of the two temperature registers as a number. -/
theorem tempBits_toNat (msb lsb : Byte) :
    ((msb ++ lsb : Half).extractLsb' 6 10).toNat = 4 * msb.toNat + lsb.toNat / 64 := by
  have happend : (msb ++ lsb : Half).toNat = 256 * msb.toNat + lsb.toNat := half_toNat lsb msb
  have := msb.isLt
  have := lsb.isLt
  rw [BitVec.extractLsb'_toNat, happend, Nat.shiftRight_eq_div_pow]
  omega

/-- The temperature is four times the signed upper byte plus the top two bits of the lower one (R130). -/
theorem unpackTemp_toInt (msb lsb : Byte) : (unpackTemp msb lsb).toInt = 4 * msb.toInt + (lsb.toNat / 64 : Nat) := by
  have := msb.isLt
  have := lsb.isLt
  rw [unpackTemp, BitVec.toInt_signExtend_of_le (by decide), BitVec.toInt_eq_toNat_cond, BitVec.toInt_eq_toNat_cond, tempBits_toNat]
  split <;> split <;> omega

/-- The range of a signed 10-bit number (R135). -/
theorem unpackTemp_range (msb lsb : Byte) : -512 ≤ (unpackTemp msb lsb).toInt ∧ (unpackTemp msb lsb).toInt ≤ 511 := by
  have := msb.le_toInt
  have := msb.toInt_le
  have := lsb.isLt
  rw [unpackTemp_toInt]
  omega

/-- TEMP completes in its two reads, whatever they answer: the second follows the first, and the two bytes they returned are unpacked
(R131, R144). -/
theorem temp_completes {s : State} {g : List ChipStep} {gs : List (List ChipStep)} {d1 d2 : Answer} {rs : List Reply}
    (hreset : s.resetIn = false) (hgaps : s.gaps = g :: gs) (hreplies : s.replies = .answers d1 :: .answers d2 :: rs) :
    ∃ (lsb msb : Byte) (legs1 legs2 : List Event), ReadReturns s.rf 0x12#8 d1 lsb legs1 ∧
      ReadReturns (chipSteps g s.rf) 0x11#8 d2 msb legs2 ∧
      Completes .temp s (.ok (le16 (unpackTemp msb lsb))) (legs1 ++ legs2) (chipSteps g s.rf) s.lastError 2 := by
  obtain ⟨_, lsb, legs1, u1, e1, hreturns1, ran1⟩ := busRead_one_ran hreplies 0x12#8 .tempLsb
    fun _ bytes u => u.suspend (.tempMsb (byteAt bytes 0))
  have hreplies1 : (u1.suspend (.tempMsb lsb)).afterGap.replies = .answers d2 :: rs :=
    ran1.replies.trans (congrArg (List.drop 1) hreplies)
  obtain ⟨_, msb, legs2, u2, e2, hreturns2, ran2⟩ := busRead_one_ran hreplies1 0x11#8 (.tempMsb lsb)
    fun _ bytes u => u.respond (.ok (le16 (unpackTemp (byteAt bytes 0) lsb)))
  rw [ran1.afterGap_rf hgaps] at hreturns2 ran2
  refine ⟨lsb, msb, legs1, legs2, hreturns1, hreturns2, (ran1.next ran2).completes (congrArg Host.Outcome.next e1) ?_⟩
  exact (steps_suspend (ran1.resetIn.trans hreset) (p := .tempMsb lsb) (Nat.le_add_right 18 3) 0).trans (congrArg some e2)

/-- Settles O33: with successful reads the two bytes are the registers', the second one after the gap. -/
theorem temperatureAnswersQuarterDegrees : Obligations.TemperatureAnswersQuarterDegrees := by
  rintro s g gs d1 d2 rs _ _ hreset hgaps hreplies hd1 hd2 rfl rfl
  obtain ⟨lsb, msb, legs1, legs2, ⟨-, hlegs1, hlsb⟩, ⟨-, hlegs2, hmsb⟩, hcompletes⟩ := temp_completes hreset hgaps hreplies
  obtain rfl := hlsb hd1
  obtain rfl := hmsb hd2
  obtain ⟨hselect1, hread1⟩ := hd1
  obtain ⟨hselect2, hread2⟩ := hd2
  rw [hlegs1 hselect1, hlegs2 hselect2, hread1, hread2] at hcompletes
  exact ⟨rfl, _, hcompletes, unpackTemp_toInt _ _, unpackTemp_range _ _⟩

end Sys2Proof.Machine

/-! ### O35: GETERR (R132) -/

namespace Sys2Proof.Machine

/-- Settles O35: GETERR answers at once, and RDTIME's failed select leg leaves its status in `lastError` (R14). -/
theorem getErrAnswersTheLastTimeReadFailure : Obligations.GetErrAnswersTheLastTimeReadFailure := by
  refine ⟨fun s => ⟨rfl, completes_of_answer rfl⟩, fun s d rs hreplies hfails => ?_⟩
  obtain ⟨-, hread, -⟩ := readTimeAnswersDecodedTimeOrStatus s d rs hreplies
  obtain ⟨u, _, hexec, hdone, houtbox, -, -, -, herror, -⟩ := hread hfails
  cases hdone
  exact ⟨u, _, _, hexec, rfl, rfl, by simp [houtbox, herror]⟩

end Sys2Proof.Machine

/-! ### O34: what the commands that report no status do with the byte read (R144, R163) -/

namespace Sys2Proof.Machine

/-- A command that begins with a one-byte read goes on with the byte `b` the read returned, whatever its legs answered (R144). -/
theorem exec_readByte {i : Instr} {addr : Byte} {p : Pending} {k : Byte → List Byte → State → State} {s : State} {d : Answer}
    {rs : List Reply} (hexec : exec i s = .next (busRead addr 1 p k s)) (h : s.replies = .answers d :: rs) :
    ∃ st b legs u, exec i s = .next (k st [b] u) ∧ ReadReturns s.rf addr d b legs ∧ Ran 0 s legs s.rf u := by
  obtain ⟨st, b, legs, u, e, hreturns, hran⟩ := busRead_one_ran h addr p k
  exact ⟨st, b, legs, u, hexec.trans (congrArg _ e), hreturns, hran⟩

/-- A command whose second and last transaction is a one-byte write completes, and its answer does not depend on what the write answered
(R144). -/
theorem Ran.completes_writeByte {i : Instr} {s u : State} {legs : List Event} {m : Memory} {q : Pending} {addr b : Byte} {r : Response}
    {g : List ChipStep} {gs : List (List ChipStep)} {r1 : Reply} {d : Answer} {rs : List Reply} (h : Ran 0 s legs m u)
    (hexec : exec i s = .next (u.suspend q)) (hreset : s.resetIn = false) (hgaps : s.gaps = g :: gs)
    (hreplies : s.replies = r1 :: .answers d :: rs) (hq : resume q = busWrite addr [b] q fun _ u => u.respond r)
    (hrun : q.run = (addr, 1)) (haddr : addr.toNat + 1 ≤ 21) :
    Completes i s r (legs ++ [.write addr [b] d.writeLeg]) (storeByte (chipSteps g m) addr.toNat b d) s.lastError 2 := by
  have hreplies' : (u.suspend q).afterGap.replies = .answers d :: rs := h.replies.trans (congrArg (List.drop 1) hreplies)
  obtain ⟨w, e, hwrite⟩ := busWrite_ran hreplies' addr (v := [b]) (Nat.le_add_left 1 30) q fun _ u => u.respond r
  rw [writeRun_one_eq_storeByte, h.afterGap_rf hgaps] at hwrite
  refine (h.next hwrite).completes hexec ?_
  rw [steps_suspend (h.resetIn.trans hreset) (by rwa [hrun]), hq, e, steps]

/-- SQWSET's byte as R128 writes it, with the operand in place of the frequency. -/
theorem putSquareWave_eq_ite (x : Byte) (f : SqwFreq) :
    putSquareWave x f = if f.code = 0x04#8 then x ||| 0x04#8 else (x &&& 0xE3#8) ||| (f.code <<< 3) := by
  cases f <;> rfl

/-- ALMIE's byte as R116 writes it, with the operand in place of the Boolean. -/
theorem putAlarmEnable_eq_ite (x e : Byte) (k : Alarm) :
    putAlarmEnable x k (e == 0x01#8) = if e = 0x01#8 then x ||| wmask k else x &&& ~~~wmask k := by
  simp only [putAlarmEnable, putBits, beq_iff_eq]

/-- A result byte that says whether a masked byte is not zero. -/
theorem boolPayload_ne_zero (x : Byte) : boolPayload (x != 0x00#8) = [if x = 0x00#8 then 0x00#8 else 0x01#8] := by
  by_cases hx : x = 0x00#8 <;> simp [boolPayload, hx]

/-- A legal `which` selects the alarm of its mask (R69). -/
theorem exists_alarm_of_mask {which mask : Byte} (h : which = 0x01#8 ∧ mask = 0x01#8 ∨ which = 0x02#8 ∧ mask = 0x02#8) :
    ∃ k, Alarm.ofByte which = some k ∧ wmask k = mask := by
  rcases h with ⟨rfl, rfl⟩ | ⟨rfl, rfl⟩
  · exact ⟨.one, rfl, rfl⟩
  · exact ⟨.two, rfl, rfl⟩

/-- ALMPEEK answers the flag of the byte its read returned. -/
theorem almpeek_goesOn {which : Byte} {k : Alarm} (hk : Alarm.ofByte which = some k) {s : State} {d : Answer} {rs : List Reply}
    (h : s.replies = .answers d :: rs) :
    ∃ b legs, ReadReturns s.rf 0x0F#8 d b legs ∧
      Completes (.almpeek which) s (.ok [if b &&& wmask k = 0x00#8 then 0x00#8 else 0x01#8]) legs s.rf s.lastError 1 := by
  obtain ⟨-, b, legs, u, hexec, hreturns, hran⟩ := exec_readByte (exec_almpeek hk s) h
  refine ⟨b, legs, hreturns, ?_⟩
  rw [← boolPayload_ne_zero]
  exact hran.completes hexec rfl

section

variable {s : State} {g : List ChipStep} {gs : List (List ChipStep)} {d1 d2 : Answer} {rs : List Reply}
  (hreset : s.resetIn = false) (hgaps : s.gaps = g :: gs) (hreplies : s.replies = .answers d1 :: .answers d2 :: rs)
include hreset hgaps hreplies

/-- A command that updates CONTROL writes the byte its read returned back as `put` makes it. -/
theorem UpdatesControl.goesOn {i : Instr} {put : Byte → Byte} (hi : UpdatesControl i put) :
    ∃ b legs, ReadReturns s.rf 0x0E#8 d1 b legs ∧
      Completes i s (.ok []) (legs ++ [.write 0x0E#8 [put b] d2.writeLeg]) (storeByte (chipSteps g s.rf) 0x0E (put b) d2)
        s.lastError 2 := by
  obtain ⟨p, hstart⟩ := hi
  obtain ⟨-, b, legs, u, hexec, hreturns, hran⟩ := exec_readByte (hstart s) hreplies
  exact ⟨b, legs, hreturns, hran.completes_writeByte (q := .controlWrite (put b)) hexec hreset hgaps hreplies rfl rfl (by decide)⟩

/-- A command that comes to the write of STATUS completes with `true`. -/
theorem Ran.completes_statusWrite {i : Instr} {u : State} {legs : List Event} {value : Byte} (h : Ran 0 s legs s.rf u)
    (hexec : exec i s = .next (u.suspend (.statusWrite value))) :
    Completes i s (.ok [0x01#8]) (legs ++ [.write 0x0F#8 [value] d2.writeLeg]) (storeByte (chipSteps g s.rf) 0x0F value d2)
      s.lastError 2 :=
  h.completes_writeByte (q := .statusWrite value) hexec hreset hgaps hreplies rfl rfl (by decide)

/-- A command that reads STATUS and goes on as ALMCONSUME does ends there when the byte its read returned has the flag clear, and writes
that byte back with the flag cleared otherwise. -/
theorem consume_goesOn {i : Instr} {k : Alarm} {p : Pending}
    (hstart : exec i s = .next (busRead 0x0F#8 1 p (fun _ bytes u => consumeStatus k (byteAt bytes 0) u) s)) :
    ∃ b legs, ReadReturns s.rf 0x0F#8 d1 b legs ∧
      (b &&& wmask k = 0x00#8 → Completes i s (.ok [0x00#8]) legs s.rf s.lastError 1) ∧
      (b &&& wmask k ≠ 0x00#8 → Completes i s (.ok [0x01#8]) (legs ++ [.write 0x0F#8 [b &&& ~~~wmask k] d2.writeLeg])
        (storeByte (chipSteps g s.rf) 0x0F (b &&& ~~~wmask k) d2) s.lastError 2) := by
  obtain ⟨-, b, legs, u, hexec, hreturns, hran⟩ := exec_readByte hstart hreplies
  change exec i s = .next (consumeStatus k b u) at hexec
  refine ⟨b, legs, hreturns, fun hclear => ?_, fun hset => ?_⟩
  · have hflag : alarmFlag b k = false := by simp [alarmFlag, hclear]
    rw [consumeStatus, if_neg (Bool.eq_false_iff.mp hflag)] at hexec
    exact hran.completes hexec rfl
  · have hflag : alarmFlag b k = true := by simpa [alarmFlag] using hset
    rw [consumeStatus, if_pos hflag] at hexec
    exact hran.completes_statusWrite hreset hgaps hreplies hexec

/-- OSCSTOP answers OSF of the byte its read returned, and writes that byte back with OSF cleared when OSF is set and `clear` true. -/
theorem oscstop_goesOn {clear : Byte} {c : Bool} (hc : boolOfByte clear = some c) :
    ∃ b legs, ReadReturns s.rf 0x0F#8 d1 b legs ∧
      (b &&& 0x80#8 = 0x00#8 → Completes (.oscstop clear) s (.ok [0x00#8]) legs s.rf s.lastError 1) ∧
      (b &&& 0x80#8 ≠ 0x00#8 → c = false → Completes (.oscstop clear) s (.ok [0x01#8]) legs s.rf s.lastError 1) ∧
      (b &&& 0x80#8 ≠ 0x00#8 → c = true → Completes (.oscstop clear) s (.ok [0x01#8])
        (legs ++ [.write 0x0F#8 [b &&& 0x7F#8] d2.writeLeg]) (storeByte (chipSteps g s.rf) 0x0F (b &&& 0x7F#8) d2) s.lastError 2) := by
  obtain ⟨-, b, legs, u, hexec, hreturns, hran⟩ := exec_readByte (exec_oscstop hc s) hreplies
  change exec _ s = .next (oscStatus c b u) at hexec
  have hset (h : b &&& 0x80#8 ≠ 0x00#8) : b.getLsbD 7 = true := by
    rw [← osfFlag_eq]
    exact bne_iff_ne.mpr h
  refine ⟨b, legs, hreturns, fun h => ?_, ?_, ?_⟩
  · have hclear : b.getLsbD 7 = false := by
      rw [← osfFlag_eq]
      exact bne_eq_false_iff_eq.mpr h
    rw [oscStatus_answers fun ⟨hosf, _⟩ => Bool.false_ne_true (hclear.symm.trans hosf), hclear] at hexec
    exact hran.completes hexec rfl
  · rintro h rfl
    rw [oscStatus_answers fun ⟨_, hc⟩ => Bool.false_ne_true hc, hset h] at hexec
    exact hran.completes hexec rfl
  · rintro h rfl
    rw [oscStatus_clears (hset h)] at hexec
    exact hran.completes_statusWrite hreset hgaps hreplies hexec

end

/-- Settles O34: each command's rule for the byte read, whatever the transactions answered. -/
theorem unreportedFailuresGoOnWithTheReturnedByte : Obligations.UnreportedFailuresGoOnWithTheReturnedByte := by
  rintro s g gs d1 d2 rs _ _ hreset hgaps hreplies rfl rfl
  refine ⟨fun freq hfreq => ?_, fun which mask hwhich => ?_, fun clear hclear => ?_, temp_completes hreset hgaps hreplies⟩
  · obtain ⟨f, hf, rfl⟩ := exists_sqwFreq_of_le hfreq
    obtain ⟨b, legs, hreturns, hcompletes⟩ := (sqwset_updatesControl hf).goesOn hreset hgaps hreplies
    exact ⟨b, _, legs, hreturns, putSquareWave_eq_ite b f, hcompletes⟩
  · obtain ⟨k, hk, rfl⟩ := exists_alarm_of_mask hwhich
    refine ⟨fun e he => ?_, almpeek_goesOn hk hreplies, ?_⟩
    · obtain ⟨b, legs, hreturns, hcompletes⟩ := (almie_updatesControl hk (boolOfByte_of_legal he)).goesOn hreset hgaps hreplies
      exact ⟨b, _, legs, hreturns, putAlarmEnable_eq_ite b e k, hcompletes⟩
    · rintro i (rfl | rfl)
      · exact consume_goesOn hreset hgaps hreplies (exec_almconsume hk s)
      · exact consume_goesOn hreset hgaps hreplies (exec_almclear hk s)
  · obtain ⟨b, legs, hreturns, hzero, hkept, hcleared⟩ := oscstop_goesOn hreset hgaps hreplies (boolOfByte_of_legal hclear)
    exact ⟨b, legs, hreturns, hzero, fun hosf he => hkept hosf (by rw [he]; rfl), fun hosf he => hcleared hosf (by rw [he]; rfl)⟩

end Sys2Proof.Machine

/-! ### O43: the commands that report no status answer `ok` (R140, R144) -/

namespace Sys2Proof

/-- The operand of a legal packet passes its check (R68). -/
theorem Instr.check_of_wellFormed {i : Instr} {check : Bool} {e : IllegalOperand} (hlegal : i.wellFormed = true)
    (hcheck : i.illegalOperand = if check then none else some e) : check = true := by
  rw [Instr.wellFormed, hcheck] at hlegal
  cases check with
  | true => rfl
  | false => cases hlegal

theorem legalWhich_iff (b : Byte) : legalWhich b = true ↔ b = 0x01#8 ∨ b = 0x02#8 := by
  simp [legalWhich]

theorem legalBoolean_iff (b : Byte) : legalBoolean b = true ↔ b = 0x00#8 ∨ b = 0x01#8 := by
  simp [legalBoolean]

/-- A legal type operand is the code of a type (R70). -/
theorem legalAlarmType_iff (b : Byte) : legalAlarmType b = true ↔ b ∈ AlarmType.all.map AlarmType.code :=
  List.contains_iff_mem

/-- ALMIE has two operands to check (R68 cases 2 and 3). -/
theorem Instr.wellFormed_almie (which enabled : Byte) :
    (Instr.almie which enabled).wellFormed = (legalWhich which && legalBoolean enabled) := by
  rw [Instr.wellFormed, Instr.illegalOperand]
  cases legalWhich which <;> cases legalBoolean enabled <;> rfl

end Sys2Proof

namespace Sys2Proof.Machine

/-- The command answers `ok`, in its first step or the one after it. -/
def AnswersOk (i : Instr) (s : State) : Prop :=
  ∃ (n : Nat) (u t : State) (payload : List Byte), n ≤ 1 ∧ exec i s = .next u ∧ steps n u = some t ∧
    t.outbox = s.outbox ++ [.ok payload] ∧ t.busy = none

/-- A command that completes with `ok` in at most two transactions. -/
theorem Completes.answersOk {i : Instr} {s : State} {payload : List Byte} {legs : List Event} {m : Memory} {e : Byte} {n : Nat}
    (h : Completes i s (.ok payload) legs m e n) (hn : n ≤ 2) : AnswersOk i s := by
  obtain ⟨u, t, hexec, hsteps, houtbox, hbusy, -⟩ := h
  exact ⟨n - 1, u, t, payload, Nat.sub_le_sub_right hn 1, hexec, hsteps, houtbox, hbusy⟩

/-- GETEPOCH answers the converted time, or the sentinel when a leg fails (R98). -/
theorem getepoch_answersOk {s : State} {d : Answer} {rs : List Reply} (h : s.replies = .answers d :: rs) : AnswersOk .getepoch s := by
  obtain ⟨-, hfails, hreadFails, hsucceeds⟩ := getEpochAnswersConversionOrSentinel s d rs h
  by_cases hw : d.writeLeg = 0x00#8
  · by_cases hr : d.readLeg = 0x00#8
    · obtain ⟨bytes, -, hcompletes⟩ := hsucceeds ⟨hw, hr⟩
      exact hcompletes.answersOk (by decide)
    · obtain ⟨drawn, -, hcompletes⟩ := hreadFails hw hr
      exact hcompletes.answersOk (by decide)
  · exact (hfails hw).answersOk (by decide)

/-- SETALM of a legal type answers `ok` whatever its write answered (R114). -/
theorem setalm_answersOk {ty : Byte} (hty : legalAlarmType ty = true) (sec m hr d : Byte) {s : State} {a : Answer} {rs : List Reply}
    (h : s.replies = .answers a :: rs) : AnswersOk (.setalm ty sec m hr d) s := by
  obtain ⟨t, ht, -⟩ := exists_type_of_code ((legalAlarmType_iff ty).mp hty)
  exact (setalm_completes ht h rfl).answersOk (by decide)

section

variable {s : State} {g : List ChipStep} {gs : List (List ChipStep)} {d1 d2 : Answer} {rs : List Reply}
  (hreset : s.resetIn = false) (hgaps : s.gaps = g :: gs) (hreplies : s.replies = .answers d1 :: .answers d2 :: rs)
include hreset hgaps hreplies

/-- A command that updates CONTROL answers `ok`. -/
theorem UpdatesControl.answersOk {i : Instr} {put : Byte → Byte} (hi : UpdatesControl i put) : AnswersOk i s := by
  obtain ⟨b, legs, -, hcompletes⟩ := hi.goesOn hreset hgaps hreplies
  exact hcompletes.answersOk (Nat.le_refl 2)

/-- A command that reads STATUS and goes on as ALMCONSUME does answers `ok`, with the write and without it. -/
theorem consume_answersOk {i : Instr} {k : Alarm} {p : Pending}
    (hstart : exec i s = .next (busRead 0x0F#8 1 p (fun _ bytes u => consumeStatus k (byteAt bytes 0) u) s)) : AnswersOk i s := by
  obtain ⟨b, legs, -, hclear, hset⟩ := consume_goesOn hreset hgaps hreplies hstart
  by_cases hflag : b &&& wmask k = 0x00#8
  · exact (hclear hflag).answersOk (by decide)
  · exact (hset hflag).answersOk (Nat.le_refl 2)

/-- OSCSTOP answers `ok`, with the write and without it. -/
theorem oscstop_answersOk {clear : Byte} {c : Bool} (hc : boolOfByte clear = some c) : AnswersOk (.oscstop clear) s := by
  obtain ⟨b, legs, -, hzero, hkept, hcleared⟩ := oscstop_goesOn hreset hgaps hreplies hc
  by_cases hosf : b &&& 0x80#8 = 0x00#8
  · exact (hzero hosf).answersOk (by decide)
  · cases c with
    | false => exact (hkept hosf rfl).answersOk (by decide)
    | true => exact (hcleared hosf rfl).answersOk (Nat.le_refl 2)

end

/-- Settles O43: each of the thirteen commands completes with `ok` in at most two transactions, its operands being legal. -/
theorem nonReportingCommandsAlwaysAnswerOk : Obligations.NonReportingCommandsAlwaysAnswerOk := by
  intro i s g gs d1 d2 rs hlegal hnever hreset hgaps hreplies
  change AnswersOk i s
  have hwhich {w : Byte} (h : legalWhich w = true) := exists_alarm_of_which ((legalWhich_iff w).mp h)
  have hboolean {b : Byte} (h : legalBoolean b = true) := boolOfByte_of_legal ((legalBoolean_iff b).mp h)
  cases i with
  | rdtime | wrtime | setepoch | wrblk | rdblk | wrbyte | rdbyte => cases hnever
  | dec2bcd | bcd2dec | geterr => exact (completes_of_answer rfl).answersOk (by decide)
  | getepoch => exact getepoch_answersOk hreplies
  | setalm ty sec m hr d => exact setalm_answersOk (Instr.check_of_wellFormed hlegal rfl) sec m hr d hreplies
  | setalm3 ty m hr d => exact setalm_answersOk (Instr.check_of_wellFormed hlegal rfl) 0x00#8 m hr d hreplies
  | almie which enabled =>
    rw [Instr.wellFormed_almie, Bool.and_eq_true] at hlegal
    obtain ⟨hw, he⟩ := hlegal
    obtain ⟨k, hk, -⟩ := hwhich hw
    exact (almie_updatesControl hk (hboolean he)).answersOk hreset hgaps hreplies
  | almconsume which =>
    obtain ⟨k, hk, -⟩ := hwhich (Instr.check_of_wellFormed hlegal rfl)
    exact consume_answersOk hreset hgaps hreplies (exec_almconsume hk s)
  | almclear which =>
    obtain ⟨k, hk, -⟩ := hwhich (Instr.check_of_wellFormed hlegal rfl)
    exact consume_answersOk hreset hgaps hreplies (exec_almclear hk s)
  | almpeek which =>
    obtain ⟨k, hk, -⟩ := hwhich (Instr.check_of_wellFormed hlegal rfl)
    obtain ⟨b, legs, -, hcompletes⟩ := almpeek_goesOn hk hreplies
    exact hcompletes.answersOk (by decide)
  | sqwset freq =>
    have hfreq : legalFrequency freq = true := Instr.check_of_wellFormed hlegal rfl
    obtain ⟨f, hf, -⟩ := exists_sqwFreq_of_le (of_decide_eq_true hfreq)
    exact (sqwset_updatesControl hf).answersOk hreset hgaps hreplies
  | oscstop clear => exact oscstop_answersOk hreset hgaps hreplies (hboolean (Instr.check_of_wellFormed hlegal rfl))
  | temp =>
    obtain ⟨lsb, msb, legs1, legs2, -, -, hcompletes⟩ := temp_completes hreset hgaps hreplies
    exact hcompletes.answersOk (Nat.le_refl 2)

end Sys2Proof.Machine

/-! ### O52: no step faults (R139) -/

namespace Sys2Proof.Machine

/-- A command that checks its run is refused or runs. -/
theorem ifInChip_ne_fault (addr : Byte) (n : Nat) (run : State → State) (s : State) (f : Fault) :
    ifInChip addr n run s ≠ .fault f := by
  unfold ifInChip
  cases runRefusal s.ramTop addr n <;> exact nofun

/-- A command that answers an illegal packet and checks the run of a legal one, in the same way. -/
theorem legal_ifInChip_ne_fault (illegal : Prop) [Decidable illegal] (addr : Byte) (n : Nat) (run : State → State) (s : State)
    (f : Fault) : (if illegal then answerIllegal s else ifInChip addr n run s) ≠ .fault f := by
  split
  · exact nofun
  · exact ifInChip_ne_fault addr n run s f

/-- No command faults when it begins (R139). -/
theorem exec_ne_fault (i : Instr) (s : State) (f : Fault) : exec i s ≠ .fault f := by
  cases hraw : i.rawRun with
  | none =>
    obtain ⟨t, e⟩ := exec_next_of_rawRun_none hraw s
    rw [e]
    exact nofun
  | some run =>
    match i, hraw with
    | .wrblk addr data, _ => exact legal_ifInChip_ne_fault _ addr data.length _ s f
    | .rdblk addr count, _ => exact legal_ifInChip_ne_fault _ addr count.toNat _ s f
    | .wrbyte addr value, _ => exact ifInChip_ne_fault addr 1 _ s f
    | .rdbyte addr, _ => exact ifInChip_ne_fault addr 1 _ s f

/-- The reset input gives a next state (R156). -/
theorem step_reset {s : State} (hr : s.resetIn = true) : step s = .next s.blockReset := by
  simp [step, hr]

/-- The step of an idle Block, whatever the Host has sent, does not fault. -/
theorem step_idle_ne_fault {s : State} (hr : s.resetIn = false) (hb : s.busy = none) (f : Fault) : step s ≠ .fault f := by
  cases hd : decode s.inbox with
  | incomplete => simp [step_waits hr hb hd]
  | illegalOpcode op rest => simp [step_illegalOpcode hr hb hd, answerIllegal]
  | packet i rest =>
    rw [step_packet hr hb hd]
    exact exec_ne_fault i _ f

/-- Settles O52: only a busy Block's transaction outside the chip faults, and the invariant excludes it. -/
theorem noStepFaults : Obligations.NoStepFaults := by
  intro s f hs
  cases hr : s.resetIn with
  | true => simp [step_reset hr]
  | false =>
    cases hb : s.busy with
    | none => exact step_idle_ne_fault hr hb f
    | some p =>
      intro h
      obtain ⟨r, hrefused⟩ := (step_busy_fault_iff hr hb f).mp h
      rw [hs.pendingInChip p hb] at hrefused
      cases hrefused

end Sys2Proof.Machine

/-! ### O47 and O48: the reset input (R156, R173) -/

namespace Sys2Proof.Machine

/-- Settles O47: the step taken is the reset, which writes only the Block's own fields. -/
theorem resetInputAbandonsTheCommand : Obligations.ResetInputAbandonsTheCommand := fun s hr =>
  ⟨s.blockReset, step_reset hr, rfl, rfl, rfl, rfl, rfl, rfl, rfl, rfl, rfl⟩

/-- A command reset while its next transaction is pending: what its first transaction made of the register file stays, and nothing is
answered (R173). -/
theorem Ran.reset_of_suspend {i : Instr} {s u : State} {legs : List Event} {m : Memory} {p : Pending} (h : Ran 0 s legs m u)
    (hexec : exec i s = .next (u.suspend p)) :
    ∃ t v, exec i s = .next t ∧ step { t with resetIn := true } = .next v ∧ v.busy = none ∧ v.outbox = s.outbox ∧
      v.lastError = 0x00#8 ∧ v.rf = m := by
  obtain ⟨v, hstep, herror, hbusy, houtbox, -, -, -, hrf, -⟩ :=
    resetInputAbandonsTheCommand { u.suspend p with resetIn := true } rfl
  exact ⟨u.suspend p, v, hexec, hstep, hbusy, houtbox.trans h.outbox, herror, hrf.trans h.rf⟩

/-- Settles O48: WRTIME is pending after its time write, which lies below STATUS, and ALMCONSUME after its read, which stores nothing. -/
theorem resetDuringACommandKeepsItsFirstEffects : Obligations.ResetDuringACommandKeepsItsFirstEffects := by
  intro s d rs hreplies hd hwf
  refine ⟨fun t => ?_, fun which hwhich hflag => ?_⟩
  · have hlength := packTime_length t
    obtain ⟨u, e, hran⟩ := timeWrite_ran hreplies (hlength.trans_le (by decide))
    obtain ⟨hwrite, -⟩ := hd
    rw [if_pos hwrite] at hran
    obtain ⟨u, v, hexec, hstep, hbusy, houtbox, herror, hrf⟩ :=
      hran.reset_of_suspend (i := .wrtime t) (congrArg Host.Outcome.next e)
    refine ⟨u, v, hexec, hstep, hbusy, houtbox, herror, hrf, ?_⟩
    rw [hrf, Memory.read_writeRun_outside hwf (by omega) (by omega)]
  · obtain ⟨k, hk, hbit⟩ := exists_alarm_of_which hwhich
    obtain ⟨st, u, e, hran⟩ := busRead_one_ran_succeeds hreplies hd 0x0F#8 (.consumeRead k)
      fun _ bytes u => consumeStatus k (byteAt bytes 0) u
    have hset : alarmFlag (Memory.read s.rf 0x0F) k = true := by rw [alarmFlag_eq, hbit, hflag]
    have hpending : consumeRead k s = u.suspend (.statusWrite (clearAlarmFlag (Memory.read s.rf 0x0F) k)) := e.trans (if_pos hset)
    exact hran.reset_of_suspend ((exec_almconsume hk s).trans (congrArg Host.Outcome.next hpending))

end Sys2Proof.Machine
